-- ==== Sys2Proof/Word.lean ====
section
/-! DEFINITION. The widths of the CFU's values (00_scope R6, R7, R8): every value is an unsigned
integer of a stated width. -/

namespace Sys2Proof

/-- A byte of a stream or of BUF (00_scope R8). -/
abbrev Byte := BitVec 8

/-- A register, a command word, a digest, a length (00_scope R6: DIGEST_W, LEN_W, SEQ_W, the command
and the register width are all 32). -/
abbrev Word := BitVec 32

/-- TOT_ORIG, IN_CNT and OUT_CNT (00_scope R6: CNT_W is 64). -/
abbrev Count := BitVec 64

end Sys2Proof
end

