-- ==== Sys2Proof/Config.lean ====
section
/-! DEFINITION. What an implementation fixes: the open parameters of 00_scope R6, the constants this
spec fixes, and the free values (values the spec leaves open, which nothing can evaluate). -/

namespace Sys2Proof

/-- The parameter MAGIC: four bytes, `b0` first on the wire (00_scope R6; 30_encoding R101). -/
structure Magic where
  b0 : Byte
  b1 : Byte
  b2 : Byte
  b3 : Byte
deriving DecidableEq, Repr

/-- The magic as it stands on the wire. -/
def Magic.bytes (m : Magic) : List Byte := [m.b0, m.b1, m.b2, m.b3]

/-- The OPEN parameters of one instance, fixed for its life (00_scope R6; 10_state R49; 93 U1 to U3).
DESIGN CHOICE (log 1): they are held in State, so that a statement over every state is a statement
over every value of them; no step changes them. -/
structure Params where
  /-- MAGIC, any four bytes. -/
  magic : Magic
  /-- BUF_BYTES, the capacity of BUF. -/
  bufBytes : Word
  /-- CFU_BASE, the bus address of the register space. -/
  cfuBase : Nat
deriving DecidableEq, Repr

/-- The defaults of 00_scope R6: `5A 58 43 00` and 65536. CFU_BASE has no default in the spec; 0 is a
DESIGN CHOICE (log 1). -/
def Params.specDefault : Params where
  magic := ⟨0x5A, 0x58, 0x43, 0x00⟩
  bufBytes := 65536
  cfuBase := 0

namespace Config

/-- VER_MAJOR (00_scope R6). -/
def verMajor : BitVec 4 := 1

/-- VER_MINOR (00_scope R6). -/
def verMinor : BitVec 4 := 0

/-- The version byte the serializer writes, `0x10` (30_encoding R102). -/
def versionByte : Byte := verMajor ++ verMinor

/-- The reflected CRC-32 polynomial (42_checksum R150). -/
def crcPolynomial : Word := 0xEDB88320

/-- The initial accumulator and the final exclusive-or of the digest (42_checksum R151). -/
def crcOnes : Word := 0xFFFFFFFF

/-- FREE VALUE (log 6): the byte at index `i` of BUF where its content is unspecified, for the
`epoch`-th time it became so (93 U4; 10_state R41). -/
opaque unspecifiedBufByte (epoch i : Nat) : Byte

/-- FREE VALUE (log 7): PHASE, ERR and EPHASE as the `n`-th read of STATUS while BUSY is 1 shows them
(93 U6; 70_reset R254). -/
opaque busyStatusFields (n : Nat) : BitVec 12

end Config

end Sys2Proof
end

