-- ==== Sys2Proof/Machine/Digest.lean ====
section
/-! DEFINITION. The digest function, CRC-32 (42_checksum R150, R151). -/

namespace Sys2Proof.Machine

/-- One of the eight rounds of `crc_step` (42_checksum R150). -/
def crcRound (acc : Word) : Word :=
  if acc.getLsbD 0 then (acc >>> 1) ^^^ Config.crcPolynomial else acc >>> 1

/-- `n` rounds of `crc_step`. -/
def crcRounds : Nat → Word → Word
  | 0, acc => acc
  | n + 1, acc => crcRounds n (crcRound acc)

/-- `crc_step(acc, b)` (42_checksum R150). -/
def crcStep (acc : Word) (b : Byte) : Word := crcRounds 8 (acc ^^^ b.setWidth 32)

/-- `crc_fold(acc, s)` (42_checksum R151). -/
def crcFold (acc : Word) : List Byte → Word
  | [] => acc
  | b :: t => crcFold (crcStep acc b) t

/-- `digest(s)` (42_checksum R151). -/
def digest (s : List Byte) : Word := crcFold Config.crcOnes s ^^^ Config.crcOnes

end Sys2Proof.Machine
end

