-- ==== Sys2Proof/Syntax.lean ====
section
/-! DEFINITION. The 15 commands (30_encoding R92), the outcome of decoding a command word, and the
names of the register space (10_state R44). -/

namespace Sys2Proof

/-- The commands, one constructor per row of spec/opcode_table.json. The only operand in a command
word is FRM.END's T bit; every other operand is a named register (30_encoding R90, R91). -/
inductive Instr where
  /-- NOP (40_control R133). -/
  | nop
  /-- RESET, the soft reset (40_control R134). -/
  | reset
  /-- BUF.LD (41_buffer R140). -/
  | bufLd
  /-- BUF.ST (41_buffer R141). -/
  | bufSt
  /-- CK.BLK (42_checksum R153). -/
  | ckBlk
  /-- CK.VFY (42_checksum R154). -/
  | ckVfy
  /-- CK.FINIT (42_checksum R155). -/
  | ckFinit
  /-- CK.FABS (42_checksum R156). -/
  | ckFabs
  /-- CK.FBUF (42_checksum R157). -/
  | ckFbuf
  /-- HDR.WR (43_serializer R171). -/
  | hdrWr
  /-- REC.WR (43_serializer R172). -/
  | recWr
  /-- FRM.END with its trailer flag T (43_serializer R174). -/
  | frmEnd (t : Bool)
  /-- HDR.RD (44_parser R191). -/
  | hdrRd
  /-- REC.RD (44_parser R194). -/
  | recRd
  /-- FRM.VFY (44_parser R197). -/
  | frmVfy
deriving DecidableEq, Repr

/-- Why a word is reserved: the three classes of 30_encoding R93. -/
inductive ReservedWord where
  /-- One of bits 31:9 is set. -/
  | highBits
  /-- T is 1 and OPC is not FRM.END's. -/
  | strayT
  /-- OPC is none of the 15. -/
  | unlistedOpcode
deriving DecidableEq, Repr

/-- What a command word decodes to: the decoder is total (30_encoding R93). -/
inductive Decoded where
  | command (i : Instr)
  | reserved (why : ReservedWord)
deriving DecidableEq, Repr

/-- A row of the opcode map (30_encoding R92): a word selects the row when `word & mask = bits`. -/
structure OpcodeRow where
  /-- The row's command, its T operand 0. -/
  instr : Instr
  /-- The column "match". -/
  bits : Word
  mask : Word
deriving DecidableEq, Repr

/-- The registers of the host's space (10_state R44), and `reserved` for every offset that holds
nothing (R45). -/
inductive Reg where
  | cmd | status | ctrl | flags | version | blksz | recTag | origLen | encLen | recCk | xlen | bufLen
  | blkDigest | frmDigest | seq | errSeq | totOrigLo | totOrigHi | inCntLo | inCntHi | outCntLo
  | outCntHi | bufCap | reserved
deriving DecidableEq, Repr

end Sys2Proof
end

