-- ==== Sys2Proof/WellFormed.lean ====
section
/-! DEFINITION. Well-formedness of what comes from outside: a command, a command word (30_encoding
R93) and the parameters of an instance (00_scope R6). -/

namespace Sys2Proof

/-- Every term of `Instr` is a well-formed command: T is one bit and the other commands have no operand
(30_encoding R90). What can be ill-formed is a command WORD, see `commandWordWf`. -/
def Instr.wf : Instr → Bool
  | .nop | .reset | .bufLd | .bufSt | .ckBlk | .ckVfy | .ckFinit | .ckFabs | .ckFbuf | .hdrWr | .recWr
  | .frmEnd _ | .hdrRd | .recRd | .frmVfy => true

/-- The operation codes of the 15 commands (30_encoding R92, column OPC). -/
def listedOpcodes : List Byte :=
  [0x00, 0x01, 0x10, 0x11, 0x20, 0x21, 0x22, 0x23, 0x24, 0x30, 0x31, 0x32, 0x38, 0x39, 0x3A]

/-- A word is a command by its fields: bits 31:9 zero, T set for OPC `0x32` only, OPC one of the 15
(30_encoding R90, R93). Stated by fields, independently of the decoder's table. -/
def commandWordWf (w : Word) : Bool :=
  w.extractLsb' 9 23 == 0 && (!w.getLsbD 8 || w.extractLsb' 0 8 == (0x32 : Byte))
    && listedOpcodes.contains (w.extractLsb' 0 8)

/-- The parameters lie in their ranges (00_scope R6; 92, the table of open parameters):
`1 <= BUF_BYTES <= 2^32 - 1` (the upper bound is the register's width) and CFU_BASE is aligned to 256. -/
def Params.wf (p : Params) : Bool := p.bufBytes != 0 && p.cfuBase % 256 == 0

end Sys2Proof
end

