-- ==== Sys2Proof/Decode.lean ====
section
/-! DEFINITION. The decoder of command words and the encoder, both from the opcode map of 30_encoding
R92, and the names of the register offsets (10_state R44). -/

namespace Sys2Proof

/-- The opcode map (30_encoding R92). -/
def opcodeTable : List OpcodeRow :=
  [⟨.nop, 0x00000000, 0xFFFFFFFF⟩, ⟨.reset, 0x00000001, 0xFFFFFFFF⟩,
   ⟨.bufLd, 0x00000010, 0xFFFFFFFF⟩, ⟨.bufSt, 0x00000011, 0xFFFFFFFF⟩,
   ⟨.ckBlk, 0x00000020, 0xFFFFFFFF⟩, ⟨.ckVfy, 0x00000021, 0xFFFFFFFF⟩,
   ⟨.ckFinit, 0x00000022, 0xFFFFFFFF⟩, ⟨.ckFabs, 0x00000023, 0xFFFFFFFF⟩,
   ⟨.ckFbuf, 0x00000024, 0xFFFFFFFF⟩, ⟨.hdrWr, 0x00000030, 0xFFFFFFFF⟩,
   ⟨.recWr, 0x00000031, 0xFFFFFFFF⟩, ⟨.frmEnd false, 0x00000032, 0xFFFFFEFF⟩,
   ⟨.hdrRd, 0x00000038, 0xFFFFFFFF⟩, ⟨.recRd, 0x00000039, 0xFFFFFFFF⟩,
   ⟨.frmVfy, 0x0000003A, 0xFFFFFFFF⟩]

/-- A word selects a row if and only if `(w & mask) = match` (30_encoding R92). -/
def rowSelects (w : Word) (r : OpcodeRow) : Bool := (w &&& r.mask) == r.bits

/-- A row's command with the T bit of the word: FRM.END's only operand (30_encoding R91). -/
def withT (t : Bool) : Instr → Instr
  | .frmEnd _ => .frmEnd t
  | i => i

/-- Why a word that selects no row is reserved: the classes of 30_encoding R93 in its order. A word with
only T set above OPC and OPC `0x32` selects FRM.END's row, so it does not come here. -/
def reservedWhy (w : Word) : ReservedWord :=
  if w.extractLsb' 9 23 ≠ 0 then .highBits
  else if w.getLsbD 8 then .strayT
  else .unlistedOpcode

/-- The decoder, total on all words (30_encoding R93). -/
def decode (w : Word) : Decoded :=
  match opcodeTable.find? (rowSelects w) with
  | some r => .command (withT (w.getLsbD 8) r.instr)
  | none => .reserved (reservedWhy w)

/-- The encoder: the command's word (30_encoding R92). -/
def encode : Instr → Word
  | .nop => 0x00000000
  | .reset => 0x00000001
  | .bufLd => 0x00000010
  | .bufSt => 0x00000011
  | .ckBlk => 0x00000020
  | .ckVfy => 0x00000021
  | .ckFinit => 0x00000022
  | .ckFabs => 0x00000023
  | .ckFbuf => 0x00000024
  | .hdrWr => 0x00000030
  | .recWr => 0x00000031
  | .frmEnd false => 0x00000032
  | .frmEnd true => 0x00000132
  | .hdrRd => 0x00000038
  | .recRd => 0x00000039
  | .frmVfy => 0x0000003A

/-- The command word whose low `nbits` bits are `w`, the bits above zero. Every command is one 32-bit
word (30_encoding R90). -/
def tableWord (nbits w : Nat) : Word := BitVec.ofNat 32 (w % 2 ^ nbits)

/-- The instruction the decoder reads from a word of the opcode table, none where it refuses. -/
def decodeTableWord (nbits w : Nat) : Option Instr :=
  match decode (tableWord nbits w) with
  | .command i => some i
  | .reserved _ => none

/-- The register at a byte offset (10_state R44); every other offset holds nothing (R45). -/
def regAt (off : Nat) : Reg :=
  match off with
  | 0x00 => .cmd
  | 0x04 => .status
  | 0x08 => .ctrl
  | 0x0C => .flags
  | 0x10 => .version
  | 0x14 => .blksz
  | 0x18 => .recTag
  | 0x1C => .origLen
  | 0x20 => .encLen
  | 0x24 => .recCk
  | 0x28 => .xlen
  | 0x2C => .bufLen
  | 0x30 => .blkDigest
  | 0x34 => .frmDigest
  | 0x38 => .seq
  | 0x3C => .errSeq
  | 0x40 => .totOrigLo
  | 0x44 => .totOrigHi
  | 0x48 => .inCntLo
  | 0x4C => .inCntHi
  | 0x50 => .outCntLo
  | 0x54 => .outCntHi
  | 0x58 => .bufCap
  | _ => .reserved

end Sys2Proof
end

