-- ==== Sys2Proof/Machine/State.lean ====
section
/-! DEFINITION. The whole architectural state of one CFU (10_state R20), the environment's streams, the
operations that have not reached the CFU yet, and the state after reset (10_state R48). -/

namespace Sys2Proof.Machine

/-- STATUS.PHASE, the control state: the six values of 10_state R50. -/
inductive Phase where
  | idle | sBody | pBody | pTrailer | done | failed
deriving DecidableEq, Repr

/-- STATUS.ERR: no fault, or a fault by its name (60_exceptions R220). Codes 6 and 8 are reserved for the
host and no command raises them (R228, R229). -/
inductive ErrCode where
  | none | badMagic | unsupportedVersion | truncatedStream | malformedBlock | checksumMismatch
  | destinationTooSmall | allocationFailure | ioFailure | protocolViolation
deriving DecidableEq, Repr

/-- The width of a bus access (20_memory R61, R62). -/
inductive AccessSize where
  | byte | half | word | double
deriving DecidableEq, Repr

/-- What can reach the CFU from outside, in the order it arrives (00_scope R2; 20_memory R76). -/
inductive Event where
  /-- The host's register write (40_control R130). -/
  | wr (size : AccessSize) (addr : Nat) (v : Word)
  /-- The host's register read (40_control R131). -/
  | rd (size : AccessSize) (addr : Nat)
  /-- The environment appends bytes to IN (20_memory R66). -/
  | input (bs : List Byte)
  /-- The environment sets EOS (20_memory R66). -/
  | endOfStream
  /-- The environment removes `n` bytes from the near end of OUT (10_state R43). -/
  | takeOutput (n : Nat)
  /-- The platform's hard reset (70_reset R250). -/
  | hardReset
deriving DecidableEq, Repr

/-- BUF's known bytes: (index, byte) pairs, indexes strictly rising. A byte that is not listed has
unspecified content (log 6). -/
abbrev Memory := List Host.Cell

/-- The registers of 10_state R20, the hidden accumulator FRM_ACC and the block buffer BUF. -/
structure Regs where
  /-- STATUS.PHASE (R22, R50). -/
  phase : Phase
  /-- STATUS.ERR (R22). -/
  err : ErrCode
  /-- STATUS.EPHASE (R22). -/
  ephase : Phase
  /-- STATUS.BUSY (R22). -/
  busy : Bool
  /-- CTRL.VERIFY (R23). -/
  verify : Bool
  /-- FLAGS (R24). -/
  flags : Byte
  /-- VERSION (R25). -/
  version : Byte
  /-- BLKSZ (R26). -/
  blksz : Word
  /-- REC_TAG (R27). -/
  recTag : Byte
  /-- ORIG_LEN (R28). -/
  origLen : Word
  /-- ENC_LEN (R29). -/
  encLen : Word
  /-- REC_CK (R30). -/
  recCk : Word
  /-- XLEN (R31). -/
  xlen : Word
  /-- BUF_LEN (R32). -/
  bufLen : Word
  /-- BLK_DIGEST (R33). -/
  blkDigest : Word
  /-- FRM_ACC, hidden (R34). -/
  frmAcc : Word
  /-- SEQ (R35). -/
  seq : Word
  /-- ERR_SEQ (R36). -/
  errSeq : Word
  /-- TOT_ORIG (R38). -/
  totOrig : Count
  /-- IN_CNT (R39). -/
  inCnt : Count
  /-- OUT_CNT (R40). -/
  outCnt : Count
  /-- BUF, hidden (R41): its known bytes. -/
  buf : Memory
  /-- The MODEL's own: how often BUF's content became unspecified, the argument of the free value that
  an unlisted byte reads as (log 6). -/
  bufEpoch : Nat
deriving DecidableEq, Repr

/-- The MODEL's own: a command that waits for IN with BUSY 1 (20_memory R67; log 4). -/
structure Running where
  /-- The command. -/
  cmd : Instr
  /-- The registers as they stood when it was issued. -/
  before : Regs
  /-- The bytes it has taken from IN so far. -/
  taken : List Byte
deriving DecidableEq, Repr

/-- One CFU instance with its streams and the operations that wait outside. Plain data. -/
structure State where
  /-- The instance's parameters; no step changes them (10_state R49; log 1). -/
  params : Params
  /-- The registers and BUF (10_state R20). -/
  regs : Regs
  /-- IN: the bytes that have arrived and are not consumed, first-arrived first (20_memory R66). -/
  inq : List Byte
  /-- EOS (20_memory R66). -/
  eos : Bool
  /-- OUT: the bytes the CFU has produced and the environment has not removed (20_memory R70). -/
  out : List Byte
  /-- The MODEL's own: the command in progress while it waits for IN (log 4). -/
  running : Option Running
  /-- The MODEL's own: the host's and the environment's operations, first one first (log 3). -/
  events : List Event
  /-- The MODEL's own: the answer of the host's latest `rd` (log 12). -/
  hostRead : Option Word
  /-- The MODEL's own: how many reads of STATUS were answered while BUSY was 1 (log 7). -/
  busyReads : Nat
deriving DecidableEq, Repr

/-- Why the machine stops. The CFU's OWN faults are not here: they are states (60_exceptions R234). -/
inductive Fault where
  /-- Raised by `idle`: a command waits for a byte of IN, EOS is 0 and no operation is left that could
  end the wait; BUSY stays 1 for ever (70_reset R260; 93 U9, treatment "stuck"). Safe (log 5). -/
  | stuckWaiting
deriving DecidableEq, Repr

/-- Why an operation is outside the spec, so that the run is refused. -/
inductive Refusal where
  /-- The refusal of exec's arms that have no meaning; no arm of this model raises it. Safe. -/
  | notModelled (mnemonic : String)
  /-- Raised by `regOffset`: an access that is not one aligned 32-bit word (20_memory R62; 93 U7). Safe (log 9). -/
  | notAlignedWord
  /-- Raised by `regOffset`: an address outside CFU_BASE to CFU_BASE + 0xFF (93 U8). Safe (log 9). -/
  | outsideRegisterSpace
  /-- Raised by `hostWrite` and `hostRead`: any access but `rd STATUS` while BUSY is 1 (70_reset R254;
  93 U5). Safe (log 8). -/
  | accessWhileBusy
  /-- Raised by `envInput` and `envEndOfStream`: the environment appends to IN or sets EOS after EOS is 1,
  which 20_memory R66 says it does not do. Safe (log 10). -/
  | inputAfterEos
deriving DecidableEq, Repr

/-- The registers after reset (10_state R48). BUF has no known byte: its content is unspecified. -/
def Regs.reset : Regs where
  phase := .idle
  err := .none
  ephase := .idle
  busy := false
  verify := true
  flags := 0x00
  version := 0x10
  blksz := 0
  recTag := 0x00
  origLen := 0
  encLen := 0
  recCk := 0
  xlen := 0
  bufLen := 0
  blkDigest := 0x00000000
  frmAcc := 0xFFFFFFFF
  seq := 0
  errSeq := 0
  totOrig := 0
  inCnt := 0
  outCnt := 0
  buf := []
  bufEpoch := 0

/-- The machine right after reset. The spec's reset changes neither IN, EOS nor OUT (10_state R48); that
they start empty with EOS 0 is a DESIGN CHOICE (log 2), as are the parameters' values (log 1) and the
model's own fields (logs 3, 4, 7, 12). -/
def State.reset : State where
  params := Params.specDefault
  regs := Regs.reset
  inq := []
  eos := false
  out := []
  running := none
  events := []
  hostRead := none
  busyReads := 0

end Sys2Proof.Machine
end

