-- ==== Sys2Proof/Machine/Flags.lean ====
section
/-! DEFINITION. STATUS and what it decides: the codes of PHASE and ERR, the STATUS word, and the table of
the phases in which a command may be issued. The CFU has no condition codes: the fields of STATUS are the
only status a command leaves (10_state R51; 00_scope R13). -/

namespace Sys2Proof.Machine

/-- The encoding of PHASE and EPHASE (10_state R50). -/
def Phase.code : Phase → BitVec 4
  | .idle => 0
  | .sBody => 1
  | .pBody => 2
  | .pTrailer => 3
  | .done => 4
  | .failed => 15

/-- The fault codes (60_exceptions R220). -/
def ErrCode.code : ErrCode → BitVec 4
  | .none => 0
  | .badMagic => 1
  | .unsupportedVersion => 2
  | .truncatedStream => 3
  | .malformedBlock => 4
  | .checksumMismatch => 5
  | .destinationTooSmall => 6
  | .allocationFailure => 7
  | .ioFailure => 8
  | .protocolViolation => 9

/-- The word a read of STATUS returns (40_control R131; 10_state R22): bits 31:13 zero, BUSY, then the
twelve bits EPHASE, ERR, PHASE. -/
def statusWord (busy : Bool) (fields : BitVec 12) : Word :=
  (0 : BitVec 19) ++ BitVec.ofBool busy ++ fields

/-- EPHASE, ERR and PHASE as they stand in STATUS bits 11:0 (10_state R22). -/
def statusFields (r : Regs) : BitVec 12 := r.ephase.code ++ r.err.code ++ r.phase.code

/-- `Legal(c)` outside FAILED (40_control R136). -/
def legal (i : Instr) (p : Phase) : Bool :=
  match i with
  | .nop | .reset | .bufLd | .bufSt | .ckBlk | .ckVfy | .ckFinit | .ckFabs | .ckFbuf => true
  | .hdrWr | .hdrRd => p == .idle || p == .done
  | .recWr | .frmEnd _ => p == .sBody
  | .recRd => p == .pBody
  | .frmVfy => p == .pTrailer

/-- An entry of the table of 40_control R136. -/
inductive Admission where
  | execute | violation | ignored
deriving DecidableEq, Repr

/-- The whole table of 40_control R136, its FAILED column included (R135). -/
def admission (i : Instr) (p : Phase) : Admission :=
  match p with
  | .failed => if i = .reset then .execute else .ignored
  | p => if legal i p then .execute else .violation

/-- The phases in which FLAGS and BLKSZ may be written (10_state R46). -/
def gateOpen (p : Phase) : Bool := p == .idle || p == .done

end Sys2Proof.Machine
end

