-- ==== Sys2Proof/Machine/Wire.lean ====
section
/-! DEFINITION. The field encodings of the frame wire format: varint, le32, the tag byte, the header
(30_encoding Part B). Reading a varint takes bytes from IN and stands in Ops. -/

namespace Sys2Proof.Machine

/-- The rest of `varint(v)` where at most `more` further bytes can follow (30_encoding R115). -/
def varintBytes : Nat → Word → List Byte
  | 0, v => [v.extractLsb' 0 8 &&& 0x7F]
  | more + 1, v =>
    let g : Byte := v.extractLsb' 0 8 &&& 0x7F
    if v >>> 7 ≠ 0 then (0x80 ||| g) :: varintBytes more (v >>> 7) else [g]

/-- `varint(v)`: at most five bytes, since `v` has 32 bits (30_encoding R115). -/
def varint (v : Word) : List Byte := varintBytes 4 v

/-- The value so far with the seven value bits of byte `i` of a varint (30_encoding R116). -/
def varintGroup (i : Nat) (v : Word) (b : Byte) : Word :=
  v ||| ((b &&& 0x7F).setWidth 32 <<< (7 * i))

/-- `le32(v)` (30_encoding R117). -/
def le32 (v : Word) : List Byte :=
  [v.extractLsb' 0 8, v.extractLsb' 8 8, v.extractLsb' 16 8, v.extractLsb' 24 8]

/-- `le32_val(s)` for the 4-byte sequence `s` (30_encoding R117); bytes of `s` beyond four are not read
and a missing byte counts as zero, which no caller can show: each gives it exactly four bytes. -/
def le32Val (s : List Byte) : Word :=
  (s.getD 3 0 ++ s.getD 2 0 ++ s.getD 1 0 ++ s.getD 0 0 : BitVec 32)

/-- The header on the wire: magic, version, flags, `varint(BLKSZ)` (30_encoding R101 to R104). -/
def headerBytes (m : Magic) (version flags : Byte) (blksz : Word) : List Byte :=
  m.bytes ++ [version, flags] ++ varint blksz

/-- A block record's bytes before its checksum and payload (30_encoding R106 to R109). -/
def recordHead (tag : Byte) (origLen encLen : Word) : List Byte :=
  [tag] ++ varint origLen ++ varint encLen

/-- Bit 0 of a tag, STORED (30_encoding R107). -/
def tagStored (t : Byte) : Bool := t.getLsbD 0

/-- Bit 1 of a tag, END (30_encoding R107). -/
def tagEnd (t : Byte) : Bool := t.getLsbD 1

/-- Bit 2 of a tag, TRAILER (30_encoding R107). -/
def tagTrailer (t : Byte) : Bool := t.getLsbD 2

/-- Bits 7:3 of a tag, reserved (30_encoding R107). -/
def tagReserved (t : Byte) : BitVec 5 := t.extractLsb' 3 5

/-- The end marker's tag, `0x02 | (zext_8(T) << 2)` (43_serializer R174). -/
def endTag (t : Bool) : Byte := 0x02 ||| ((BitVec.ofBool t).setWidth 8 <<< 2)

/-- The parser accepts a version byte with VER_MAJOR and a minor of at most VER_MINOR (30_encoding R102). -/
def versionAccepted (v : Byte) : Bool :=
  v.extractLsb' 4 4 == Config.verMajor && decide (v.extractLsb' 0 4 ≤ Config.verMinor)

/-- Bits 7:1 of the flags byte, reserved (30_encoding R103). -/
def flagsReserved (f : Byte) : BitVec 7 := f.extractLsb' 1 7

end Sys2Proof.Machine
end

