-- ==== Sys2Proof/Machine/Ops.lean ====
section
/-! DEFINITION. The named operations the commands are written in: the block buffer, fault entry and the
return from it, the stream primitives, reading a varint, and the issue of a command. -/

namespace Sys2Proof.Machine

/-! ### Register assignment, `NAME <- v` (00_scope R9) -/

/-- `PHASE <- v`. -/
def State.setPhase (s : State) (v : Phase) : State := { s with regs.phase := v }

/-- `BUSY <- v`. -/
def State.setBusy (s : State) (v : Bool) : State := { s with regs.busy := v }

/-- `CTRL.VERIFY <- v`. -/
def State.setVerify (s : State) (v : Bool) : State := { s with regs.verify := v }

/-- `FLAGS <- v`. -/
def State.setFlags (s : State) (v : Byte) : State := { s with regs.flags := v }

/-- `VERSION <- v`. -/
def State.setVersion (s : State) (v : Byte) : State := { s with regs.version := v }

/-- `BLKSZ <- v`. -/
def State.setBlksz (s : State) (v : Word) : State := { s with regs.blksz := v }

/-- `REC_TAG <- v`. -/
def State.setRecTag (s : State) (v : Byte) : State := { s with regs.recTag := v }

/-- `ORIG_LEN <- v`. -/
def State.setOrigLen (s : State) (v : Word) : State := { s with regs.origLen := v }

/-- `ENC_LEN <- v`. -/
def State.setEncLen (s : State) (v : Word) : State := { s with regs.encLen := v }

/-- `REC_CK <- v`. -/
def State.setRecCk (s : State) (v : Word) : State := { s with regs.recCk := v }

/-- `XLEN <- v`. -/
def State.setXlen (s : State) (v : Word) : State := { s with regs.xlen := v }

/-- `BUF_LEN <- v`. -/
def State.setBufLen (s : State) (v : Word) : State := { s with regs.bufLen := v }

/-- `BLK_DIGEST <- v`. -/
def State.setBlkDigest (s : State) (v : Word) : State := { s with regs.blkDigest := v }

/-- `FRM_ACC <- v`. -/
def State.setFrmAcc (s : State) (v : Word) : State := { s with regs.frmAcc := v }

/-! ### The block buffer (20_memory R64, R65) -/

/-- The known byte at an index, none where the content is unspecified (log 6). -/
def Memory.read : Memory → Nat → Option Byte
  | [], _ => none
  | (k, b) :: m, i => if k = i then some b else Memory.read m i

/-- The cells of a byte sequence that starts at index `a`. -/
def Memory.cells : Nat → List Byte → Memory
  | _, [] => []
  | a, b :: bs => (a, b) :: Memory.cells (a + 1) bs

/-- `MemWrite(a, n, v)`: `BUF[a..a+n) <- v` (00_scope R9). Every other byte is as before: 41_buffer R140 states it for
BUF.LD; for REC.RD 93 U4 leaves the bytes above the load open, and keeping them is a DESIGN CHOICE, unsafe (log 17). -/
def Memory.write (m : Memory) (a : Nat) (bs : List Byte) : Memory :=
  m.filter (fun c => c.1 < a) ++ Memory.cells a bs ++ m.filter (fun c => a + bs.length ≤ c.1)

/-- Every index of the list is at or above `a` and the indexes strictly rise. -/
def Memory.risingFrom : Nat → Memory → Bool
  | _, [] => true
  | a, (k, _) :: m => decide (a ≤ k) && Memory.risingFrom (k + 1) m

/-- The canonical form: indexes strictly rising. A listed byte is a known byte and an unlisted one is
unspecified, so no entry can repeat what an unlisted index reads as. -/
def Memory.wf (m : Memory) : Bool := Memory.risingFrom 0 m

/-- `BUF[i]`: the known byte, or the free value where the content is unspecified (log 6). -/
def bufByte (s : State) (i : Nat) : Byte :=
  (Memory.read s.regs.buf i).getD (Config.unspecifiedBufByte s.regs.bufEpoch i)

/-- `MemRead(a, n)`: `BUF[a..a+n)` (00_scope R9). -/
def memRead (s : State) (a n : Nat) : List Byte := (List.range n).map fun j => bufByte s (a + j)

/-- `MemWrite(a, n, v)` on the state (00_scope R9). -/
def memWrite (a : Nat) (bs : List Byte) (s : State) : State :=
  { s with regs.buf := Memory.write s.regs.buf a bs }

/-- `BUF[0..BUF_LEN)`, the buffer's content (10_state R32, R41). -/
def bufContent (s : State) : List Byte := memRead s 0 s.regs.bufLen.toNat

/-- BUF's content becomes unspecified (41_buffer R140; 60_exceptions R237; log 6). -/
def forgetBuf (s : State) : State :=
  { s with regs.buf := [], regs.bufEpoch := s.regs.bufEpoch + 1 }

/-! ### Fault entry and the return from FAILED -/

/-- Fault entry, the one operation behind every `raise` (60_exceptions R234). -/
def raise (e : ErrCode) (s : State) : State :=
  { s with
    regs.err := e
    regs.ephase := s.regs.phase
    regs.errSeq := s.regs.seq
    regs.phase := .failed
    regs.busy := false }

/-- The registers after a hard or soft reset (10_state R48; 70_reset R250, R251): the reset values, and
BUF's content unspecified. The model's counter of unspecified contents goes on (log 6, log 15). -/
def resetRegs (r : Regs) : Regs := { Regs.reset with bufEpoch := r.bufEpoch + 1 }

/-- Soft reset, the only command that leaves FAILED (40_control R134; 60_exceptions R238): IN, EOS and
OUT are not touched. -/
def softReset (s : State) : State := { s with regs := resetRegs s.regs }

/-! ### The result of a piece of a command -/

/-- How a piece of a command ends: with a value; with a fault already entered (00_scope R12); or at a
wait for a byte of IN (20_memory R67). The state holds every effect up to that point. -/
inductive Res (α : Type) where
  | ok (a : α) (s : State)
  | raised (s : State)
  | wait (s : State)
deriving DecidableEq, Repr

/-- Statements in order; one after a `raise` that fired is not executed (00_scope R12). -/
def Res.bind {α β : Type} (r : Res α) (f : α → State → Res β) : Res β :=
  match r with
  | .ok a s => f a s
  | .raised s => .raised s
  | .wait s => .wait s

/-- `require c else raise e` (00_scope R12). -/
def require (c : Prop) [Decidable c] (e : ErrCode) (s : State) : Res Unit :=
  if c then .ok () s else .raised (raise e s)

/-! ### The streams (20_memory R66 to R71) -/

/-- `InByte()` (20_memory R67). -/
def inByte (s : State) : Res Byte :=
  match s.inq with
  | b :: rest => .ok b { s with inq := rest, regs.inCnt := s.regs.inCnt + 1 }
  | [] => if s.eos then .raised (raise .truncatedStream s) else .wait s

/-- `InTake(k)` (20_memory R68). -/
def inTake : Nat → State → Res (List Byte)
  | 0, s => .ok [] s
  | k + 1, s =>
    (inByte s).bind fun b s =>
    (inTake k s).bind fun bs s => .ok (b :: bs) s

/-- `OutPut(s)` (20_memory R70). -/
def outPut (bs : List Byte) (s : State) : State :=
  { s with out := s.out ++ bs, regs.outCnt := s.regs.outCnt + BitVec.ofNat 64 bs.length }

/-- The turns of `VarintRead()` from byte `i = 4 - more` on (30_encoding R116). At `i = 4` bit 7 of an
accepted byte is zero, so that turn never goes on. -/
def varintTurns : Nat → Word → State → Res Word
  | 0, v, s =>
    (inByte s).bind fun b s =>
    (require (b.extractLsb' 4 4 = (0 : BitVec 4)) .malformedBlock s).bind fun _ s =>
    (require (b ≠ 0x00) .malformedBlock s).bind fun _ s => .ok (varintGroup 4 v b) s
  | more + 1, v, s =>
    (inByte s).bind fun b s =>
    let i := 4 - (more + 1)
    if b.getLsbD 7 then varintTurns more (varintGroup i v b) s
    else (require (i = 0 ∨ b ≠ 0x00) .malformedBlock s).bind fun _ s => .ok (varintGroup i v b) s

/-- `VarintRead()` (30_encoding R116). -/
def varintRead (s : State) : Res Word := varintTurns 4 0 s

/-- `BUF_LEN <- 0; s <- InTake(n); BUF[0..n) <- s; BUF_LEN <- n`, the load of BUF.LD and REC.RD
(41_buffer R140; 44_parser R194). A truncation leaves BUF_LEN 0 and BUF unspecified. The bytes at index `n` and above
keep their content: R140 states it for BUF.LD; for REC.RD it is a DESIGN CHOICE, unsafe (93 U4, log 17). -/
def loadBuf (n : Word) (s : State) : Res Unit :=
  match inTake n.toNat (s.setBufLen 0) with
  | .ok bs s => .ok () ((memWrite 0 bs s).setBufLen n)
  | .raised s => .raised (forgetBuf s)
  | .wait s => .wait s

/-- The assignments HDR.WR and HDR.RD start with (43_serializer R171; 44_parser R191). -/
def beginFrame (s : State) : State :=
  { s with
    regs.inCnt := 0
    regs.outCnt := 0
    regs.seq := 0
    regs.totOrig := 0
    regs.frmAcc := Config.crcOnes }

/-- The successful end of a record: SEQ and TOT_ORIG advance (10_state R35, R38). -/
def countRecord (s : State) : State :=
  { s with
    regs.seq := s.regs.seq + 1
    regs.totOrig := s.regs.totOrig + s.regs.origLen.setWidth 64 }

/-! ### The issue of a command (40_control R132) -/

/-- What is left when a command's statements have run from `s` as issued: BUSY falls at a normal end (a
raise has lowered it); a command that waits stays in progress, with all the bytes of IN taken (log 4). -/
def settle (i : Instr) (s : State) : Res Unit → State
  | .ok _ t => t.setBusy false
  | .raised t => t
  | .wait t => { t with running := some { cmd := i, before := s.regs, taken := s.inq } }

/-- `Issue(w)` for the command `i` and its statements `body` (40_control R132, R135, R136): ignored in
FAILED, ProtocolViolation in a phase that is not listed, else executed with BUSY 1. -/
def issue (i : Instr) (body : State → Res Unit) (s : State) : Host.Outcome State Fault Refusal :=
  match admission i s.regs.phase with
  | .ignored => .next s
  | .violation => .next (raise .protocolViolation s)
  | .execute => .next (settle i s (body (s.setBusy true)))

/-- `Issue(w)` for a reserved word (30_encoding R93; 40_control R135). -/
def issueReserved (s : State) : Host.Outcome State Fault Refusal :=
  if s.regs.phase = .failed then .next s else .next (raise .protocolViolation s)

/-- The state in which a waiting command's statements run again with what has arrived since: its bytes
back in front of IN and the registers as they stood at its issue (20_memory R67: the wait itself is no
state change; log 4). -/
def rewind (r : Running) (s : State) : State :=
  { s with regs := r.before, inq := r.taken ++ s.inq, running := none }

end Sys2Proof.Machine
end

