-- ==== Sys2Proof/Machine/Operands.lean ====
section
/-! DEFINITION. The operands: the named fields commands read (30_encoding R91; 40_control R137), and the
registers as the host reads them (40_control R131). -/

namespace Sys2Proof.Machine

/-- `FLAGS.CK`, bit 0 of FLAGS (10_state R24). -/
def ck (s : State) : Bool := s.regs.flags.getLsbD 0

/-- `REC_TAG[0]`, STORED (10_state R27). -/
def stored (s : State) : Bool := tagStored s.regs.recTag

/-- FRM_DIGEST, `FRM_ACC ^ 0xFFFFFFFF` (10_state R34). -/
def frmDigest (s : State) : Word := s.regs.frmAcc ^^^ Config.crcOnes

/-- One bit widened with zeros: `zext_8(v[0])` of the writes to FLAGS and REC_TAG and `zext_8(st)` of
REC.WR (40_control R130; 43_serializer R172). -/
def zextBit (b : Bool) : Byte := (BitVec.ofBool b).setWidth 8

/-- The value a read of a register returns while BUSY is 0 (40_control R131). -/
def readReg (s : State) : Reg → Word
  | .cmd => 0
  | .status => statusWord s.regs.busy (statusFields s.regs)
  | .ctrl => (BitVec.ofBool s.regs.verify).setWidth 32
  | .flags => s.regs.flags.setWidth 32
  | .version => s.regs.version.setWidth 32
  | .blksz => s.regs.blksz
  | .recTag => s.regs.recTag.setWidth 32
  | .origLen => s.regs.origLen
  | .encLen => s.regs.encLen
  | .recCk => s.regs.recCk
  | .xlen => s.regs.xlen
  | .bufLen => s.regs.bufLen
  | .blkDigest => s.regs.blkDigest
  | .frmDigest => frmDigest s
  | .seq => s.regs.seq
  | .errSeq => s.regs.errSeq
  | .totOrigLo => s.regs.totOrig.extractLsb' 0 32
  | .totOrigHi => s.regs.totOrig.extractLsb' 32 32
  | .inCntLo => s.regs.inCnt.extractLsb' 0 32
  | .inCntHi => s.regs.inCnt.extractLsb' 32 32
  | .outCntLo => s.regs.outCnt.extractLsb' 0 32
  | .outCntHi => s.regs.outCnt.extractLsb' 32 32
  | .bufCap => s.params.bufBytes
  | .reserved => 0

/-- A host write to FLAGS (10_state R24, R46): only CK can be set, and only in IDLE or DONE. -/
def writeFlags (v : Word) (s : State) : State :=
  if gateOpen s.regs.phase then s.setFlags (zextBit (v.getLsbD 0))
  else raise .protocolViolation s

/-- A host write to BLKSZ (10_state R26, R46). -/
def writeBlksz (v : Word) (s : State) : State :=
  if gateOpen s.regs.phase then s.setBlksz v else raise .protocolViolation s

/-- A host write to a register other than CMD, outside FAILED (40_control R130): read-only and reserved
offsets ignore it. -/
def writeReg (r : Reg) (v : Word) (s : State) : State :=
  match r with
  | .ctrl => s.setVerify (v.getLsbD 0)
  | .flags => writeFlags v s
  | .blksz => writeBlksz v s
  | .recTag => s.setRecTag (zextBit (v.getLsbD 0))
  | .origLen => s.setOrigLen v
  | .recCk => s.setRecCk v
  | .xlen => s.setXlen v
  | .cmd | .status | .version | .encLen | .bufLen | .blkDigest | .frmDigest | .seq | .errSeq
  | .totOrigLo | .totOrigHi | .inCntLo | .inCntHi | .outCntLo | .outCntHi | .bufCap | .reserved => s

end Sys2Proof.Machine
end

