-- ==== Sys2Proof/Machine/Buffer.lean ====
section
/-! DEFINITION. The buffer commands BUF.LD and BUF.ST (41_buffer). -/

namespace Sys2Proof.Machine

/-- The statements of BUF.LD (41_buffer R140). -/
def bufLdBody (s : State) : Res Unit :=
  (require (s.regs.xlen ≤ s.params.bufBytes) .allocationFailure s).bind fun _ s =>
  loadBuf s.regs.xlen s

/-- BUF.LD (41_buffer R140). -/
def execBufLd (s : State) : Host.Outcome State Fault Refusal := issue .bufLd bufLdBody s

/-- The statements of BUF.ST (41_buffer R141). -/
def bufStBody (s : State) : Res Unit := .ok () (outPut (bufContent s) s)

/-- BUF.ST (41_buffer R141). -/
def execBufSt (s : State) : Host.Outcome State Fault Refusal := issue .bufSt bufStBody s

end Sys2Proof.Machine
end

