-- ==== Sys2Proof/Machine/Checksum.lean ====
section
/-! DEFINITION. The checksum commands CK.BLK, CK.VFY, CK.FINIT, CK.FABS and CK.FBUF (42_checksum); none of
them looks at FLAGS.CK or CTRL.VERIFY (R159). -/

namespace Sys2Proof.Machine

/-- `BLK_DIGEST <- digest(BUF[0..BUF_LEN))` (42_checksum R153, R154). -/
def digestBuf (s : State) : State := s.setBlkDigest (digest (bufContent s))

/-- CK.BLK (42_checksum R153). -/
def execCkBlk (s : State) : Host.Outcome State Fault Refusal :=
  issue .ckBlk (fun s => .ok () (digestBuf s)) s

/-- The statements of CK.VFY (42_checksum R154). -/
def ckVfyBody (s : State) : Res Unit :=
  let s := digestBuf s
  require (s.regs.blkDigest = s.regs.recCk) .checksumMismatch s

/-- CK.VFY (42_checksum R154). -/
def execCkVfy (s : State) : Host.Outcome State Fault Refusal := issue .ckVfy ckVfyBody s

/-- CK.FINIT (42_checksum R155). -/
def execCkFinit (s : State) : Host.Outcome State Fault Refusal :=
  issue .ckFinit (fun s => .ok () (s.setFrmAcc Config.crcOnes)) s

/-- `n` turns of CK.FABS's loop: a byte of IN folded into FRM_ACC (42_checksum R156). -/
def fabsTurns : Nat → State → Res Unit
  | 0, s => .ok () s
  | n + 1, s =>
    (inByte s).bind fun b s => fabsTurns n (s.setFrmAcc (crcStep s.regs.frmAcc b))

/-- CK.FABS (42_checksum R156). -/
def execCkFabs (s : State) : Host.Outcome State Fault Refusal :=
  issue .ckFabs (fun s => fabsTurns s.regs.xlen.toNat s) s

/-- CK.FBUF (42_checksum R157). -/
def execCkFbuf (s : State) : Host.Outcome State Fault Refusal :=
  issue .ckFbuf (fun s => .ok () (s.setFrmAcc (crcFold s.regs.frmAcc (bufContent s)))) s

end Sys2Proof.Machine
end

