-- ==== Sys2Proof/Machine/Control.lean ====
section
/-! DEFINITION. The control commands NOP and RESET (40_control). -/

namespace Sys2Proof.Machine

/-- NOP (40_control R133). -/
def execNop (s : State) : Host.Outcome State Fault Refusal :=
  issue .nop (fun s => .ok () s) s

/-- RESET, the return from FAILED (40_control R134; 60_exceptions R238). -/
def execReset (s : State) : Host.Outcome State Fault Refusal :=
  issue .reset (fun s => .ok () (softReset s)) s

end Sys2Proof.Machine
end

