-- ==== Sys2Proof/Machine/Parser.lean ====
section
/-! DEFINITION. The parser commands HDR.RD, REC.RD and FRM.VFY (44_parser). -/

namespace Sys2Proof.Machine

/-- The magic, compared byte by byte as the bytes arrive (44_parser R191; 90_conflicts C3). -/
def readMagic : List Byte → State → Res Unit
  | [], s => .ok () s
  | m :: ms, s =>
    (inByte s).bind fun b s =>
    (require (b = m) .badMagic s).bind fun _ s => readMagic ms s

/-- The version byte: loaded, then checked (44_parser R191; 30_encoding R102). -/
def readVersion (s : State) : Res Unit :=
  (inByte s).bind fun v s =>
  let s := s.setVersion v
  require (versionAccepted v = true) .unsupportedVersion s

/-- The flags byte: loaded, then checked (44_parser R191; 30_encoding R103). -/
def readFlags (s : State) : Res Unit :=
  (inByte s).bind fun f s =>
  let s := s.setFlags f
  require (flagsReserved f = 0) .malformedBlock s

/-- The statements of HDR.RD (44_parser R191). -/
def hdrRdBody (s : State) : Res Unit :=
  (readMagic s.params.magic.bytes (beginFrame s)).bind fun _ s =>
  (readVersion s).bind fun _ s =>
  (readFlags s).bind fun _ s =>
  (varintRead s).bind fun v s =>
  .ok () ((s.setBlksz v).setPhase .pBody)

/-- HDR.RD (44_parser R191). -/
def execHdrRd (s : State) : Host.Outcome State Fault Refusal := issue .hdrRd hdrRdBody s

/-- `REC_CK <- le32_val(InTake(4))` (44_parser R194). -/
def readRecCk (s : State) : Res Unit :=
  (inTake 4 s).bind fun bs s => .ok () (s.setRecCk (le32Val bs))

/-- REC.RD after a tag with END set: the end marker (44_parser R194). -/
def recRdEnd (t : Byte) (s : State) : Res Unit :=
  (require (tagStored t = false) .malformedBlock s).bind fun _ s =>
  if tagTrailer t then
    (require (ck s = true) .malformedBlock s).bind fun _ s =>
    (readRecCk s).bind fun _ s => .ok () (s.setPhase .pTrailer)
  else .ok () (s.setPhase .done)

/-- The lengths and the checksum field of a record, each loaded as it arrives (44_parser R194). -/
def recRdFields (t : Byte) (s : State) : Res Unit :=
  (varintRead s).bind fun v s =>
  let s := s.setOrigLen v
  (varintRead s).bind fun v s =>
  let s := s.setEncLen v
  (require (tagStored t = false ∨ s.regs.encLen = s.regs.origLen) .malformedBlock s).bind fun _ s =>
  if ck s then readRecCk s else .ok () s

/-- The check of a record's payload, made when the frame has checksums and verification is on
(44_parser R194; 42_checksum R159). -/
def recRdVerify (s : State) : Res Unit :=
  if ck s && s.regs.verify then
    let s := s.setBlkDigest (digest (bufContent s))
    require (s.regs.blkDigest = s.regs.recCk) .checksumMismatch s
  else .ok () s

/-- REC.RD after a tag with END clear: a block record (44_parser R194). That BUF keeps its bytes at index ENC_LEN and
above is a DESIGN CHOICE, unsafe (93 U4, log 17). -/
def recRdRecord (t : Byte) (s : State) : Res Unit :=
  (require (tagTrailer t = false) .malformedBlock s).bind fun _ s =>
  (recRdFields t s).bind fun _ s =>
  (require (s.regs.encLen ≤ s.params.bufBytes) .allocationFailure s).bind fun _ s =>
  (loadBuf s.regs.encLen s).bind fun _ s =>
  (recRdVerify s).bind fun _ s => .ok () (countRecord s)

/-- The statements of REC.RD (44_parser R194). -/
def recRdBody (s : State) : Res Unit :=
  (inByte s).bind fun t s =>
  let s := s.setRecTag t
  (require (tagReserved t = 0) .malformedBlock s).bind fun _ s =>
  if tagEnd t then recRdEnd t s else recRdRecord t s

/-- REC.RD (44_parser R194). -/
def execRecRd (s : State) : Host.Outcome State Fault Refusal := issue .recRd recRdBody s

/-- The statements of FRM.VFY (44_parser R197). -/
def frmVfyBody (s : State) : Res Unit :=
  (require (s.regs.verify = false ∨ frmDigest s = s.regs.recCk) .checksumMismatch s).bind fun _ s =>
  .ok () (s.setPhase .done)

/-- FRM.VFY (44_parser R197). -/
def execFrmVfy (s : State) : Host.Outcome State Fault Refusal := issue .frmVfy frmVfyBody s

end Sys2Proof.Machine
end

