-- ==== Sys2Proof/Machine/Serializer.lean ====
section
/-! DEFINITION. The serializer commands HDR.WR, REC.WR and FRM.END (43_serializer). -/

namespace Sys2Proof.Machine

/-- The statements of HDR.WR (43_serializer R171). -/
def hdrWrBody (s : State) : Res Unit :=
  (require (s.regs.blksz ≠ 0) .protocolViolation s).bind fun _ s =>
  let s := (beginFrame s).setVersion Config.versionByte
  let s := outPut (headerBytes s.params.magic s.regs.version s.regs.flags s.regs.blksz) s
  .ok () (s.setPhase .sBody)

/-- HDR.WR (43_serializer R171). -/
def execHdrWr (s : State) : Host.Outcome State Fault Refusal := issue .hdrWr hdrWrBody s

/-- The per-block digest of REC.WR: computed, kept in BLK_DIGEST and REC_CK and put on the wire when
FLAGS.CK is 1, nothing when it is 0 (43_serializer R172; 42_checksum R159). -/
def recWrChecksum (s : State) : List Byte × State :=
  if ck s then
    let d := digest (bufContent s)
    (le32 d, (s.setBlkDigest d).setRecCk d)
  else ([], s)

/-- The statements of REC.WR (43_serializer R172). -/
def recWrBody (s : State) : Res Unit :=
  let st := stored s
  (require (s.regs.origLen ≤ s.regs.blksz) .protocolViolation s).bind fun _ s =>
  (require (st = false ∨ s.regs.bufLen = s.regs.origLen) .protocolViolation s).bind fun _ s =>
  let s := (s.setEncLen s.regs.bufLen).setRecTag (zextBit st)
  let head := recordHead s.regs.recTag s.regs.origLen s.regs.encLen
  let (sum, s) := recWrChecksum s
  .ok () (countRecord (outPut (head ++ sum ++ bufContent s) s))

/-- REC.WR (43_serializer R172). -/
def execRecWr (s : State) : Host.Outcome State Fault Refusal := issue .recWr recWrBody s

/-- The statements of FRM.END (43_serializer R174). -/
def frmEndBody (t : Bool) (s : State) : Res Unit :=
  (require (t = false ∨ ck s = true) .protocolViolation s).bind fun _ s =>
  let s := s.setRecTag (endTag t)
  let s :=
    if t then
      let s := s.setRecCk (frmDigest s)
      outPut ([s.regs.recTag] ++ le32 s.regs.recCk) s
    else outPut [s.regs.recTag] s
  .ok () (s.setPhase .done)

/-- FRM.END (43_serializer R174). -/
def execFrmEnd (t : Bool) (s : State) : Host.Outcome State Fault Refusal :=
  issue (.frmEnd t) (frmEndBody t) s

end Sys2Proof.Machine
end

