-- ==== Sys2Proof/Machine/Dispatch.lean ====
section
/-! DEFINITION. The dispatch of a decoded command to its meaning (40_control R132). -/

namespace Sys2Proof.Machine

def exec (i : Instr) (s : State) : Host.Outcome State Fault Refusal :=
  match i with
  | .nop => Sys2Proof.Machine.execNop s
  | .reset => Sys2Proof.Machine.execReset s
  | .bufLd => Sys2Proof.Machine.execBufLd s
  | .bufSt => Sys2Proof.Machine.execBufSt s
  | .ckBlk => Sys2Proof.Machine.execCkBlk s
  | .ckVfy => Sys2Proof.Machine.execCkVfy s
  | .ckFinit => Sys2Proof.Machine.execCkFinit s
  | .ckFabs => Sys2Proof.Machine.execCkFabs s
  | .ckFbuf => Sys2Proof.Machine.execCkFbuf s
  | .hdrWr => Sys2Proof.Machine.execHdrWr s
  | .recWr => Sys2Proof.Machine.execRecWr s
  | .frmEnd t => Sys2Proof.Machine.execFrmEnd t s
  | .hdrRd => Sys2Proof.Machine.execHdrRd s
  | .recRd => Sys2Proof.Machine.execRecRd s
  | .frmVfy => Sys2Proof.Machine.execFrmVfy s

end Sys2Proof.Machine
end

