-- ==== Sys2Proof/Machine/Events.lean ====
section
/-! DEFINITION. The host's operations `wr` and `rd` (40_control R130, R131) and the environment's: input,
end of stream, removal of output, hard reset (20_memory R66, R71; 70_reset R250). -/

namespace Sys2Proof.Machine

/-- The offset of a bus access in the register space: only an aligned 32-bit word inside the 256 bytes
from CFU_BASE is performed (20_memory R61, R62, R73; 93 U7, U8; log 9). -/
def regOffset (p : Params) (size : AccessSize) (addr : Nat) : Except Refusal Nat :=
  if size ≠ .word ∨ addr % 4 ≠ 0 then .error .notAlignedWord
  else if addr < p.cfuBase ∨ p.cfuBase + 0x100 ≤ addr then .error .outsideRegisterSpace
  else .ok (addr - p.cfuBase)

/-- A write to CMD (10_state R21; 40_control R132). -/
def writeCmd (w : Word) (s : State) : Host.Outcome State Fault Refusal :=
  match decode w with
  | .command i => exec i s
  | .reserved _ => issueReserved s

/-- `wr off, v` while BUSY is 0 (40_control R130): in FAILED only RESET's word written to CMD is looked at
(10_state R47). -/
def wrOffset (off : Nat) (v : Word) (s : State) : Host.Outcome State Fault Refusal :=
  if s.regs.phase = .failed ∧ ¬ (off = 0x00 ∧ v = 0x00000001) then .next s
  else if regAt off = .cmd then writeCmd v s
  else .next (writeReg (regAt off) v s)

/-- The host's `wr` (40_control R130), refused while BUSY is 1 (70_reset R254; log 8). -/
def hostWrite (size : AccessSize) (addr : Nat) (v : Word) (s : State) : Host.Outcome State Fault Refusal :=
  match regOffset s.params size addr with
  | .error r => .refused r
  | .ok off => if s.regs.busy then .refused .accessWhileBusy else wrOffset off v s

/-- The host's `rd` (40_control R131). While BUSY is 1 only STATUS may be read, and its fields other than
BUSY are free values (70_reset R254; 93 U6; log 7, log 8). -/
def hostRead (size : AccessSize) (addr : Nat) (s : State) : Host.Outcome State Fault Refusal :=
  match regOffset s.params size addr with
  | .error r => .refused r
  | .ok off =>
    if s.regs.busy then
      if regAt off = .status then
        .next { s with
          hostRead := some (statusWord true (Config.busyStatusFields s.busyReads))
          busyReads := s.busyReads + 1 }
      else .refused .accessWhileBusy
    else .next { s with hostRead := some (readReg s (regAt off)) }

/-- The command that waits for IN, if one does, goes on as far as IN now lets it (20_memory R67; log 4). -/
def resume (s : State) : Host.Outcome State Fault Refusal :=
  match s.running with
  | none => .next s
  | some r => exec r.cmd (rewind r s)

/-- The environment appends bytes to IN, which it may while EOS is 0 (20_memory R66; log 10). -/
def envInput (bs : List Byte) (s : State) : Host.Outcome State Fault Refusal :=
  if s.eos then .refused .inputAfterEos else resume { s with inq := s.inq ++ bs }

/-- The environment sets EOS, once (20_memory R66; log 10). -/
def envEndOfStream (s : State) : Host.Outcome State Fault Refusal :=
  if s.eos then .refused .inputAfterEos else resume { s with eos := true }

/-- The environment removes bytes from the near end of OUT (10_state R43; log 13). -/
def envTakeOutput (n : Nat) (s : State) : Host.Outcome State Fault Refusal :=
  .next { s with out := s.out.drop n }

/-- Hard reset (70_reset R250): a waiting command is abandoned where it stands, the bytes it has taken
from IN are gone (log 11), and IN, EOS and OUT are not changed (10_state R48). -/
def hardReset (s : State) : Host.Outcome State Fault Refusal :=
  .next { s with regs := resetRegs s.regs, running := none }

/-- One operation from outside. -/
def handle (e : Event) (s : State) : Host.Outcome State Fault Refusal :=
  match e with
  | .wr size addr v => hostWrite size addr v s
  | .rd size addr => hostRead size addr s
  | .input bs => envInput bs s
  | .endOfStream => envEndOfStream s
  | .takeOutput n => envTakeOutput n s
  | .hardReset => hardReset s

/-- No operation is left: nothing changes (00_scope R2; 70_reset R261; log 3), but for a command that waits
for IN, which then waits for ever (70_reset R260; 93 U9; log 5). -/
def idle (s : State) : Host.Outcome State Fault Refusal :=
  match s.running with
  | none => .next s
  | some _ => .fault .stuckWaiting

end Sys2Proof.Machine
end

