-- ==== Sys2Proof/Machine/Step.lean ====
section
/-! DEFINITION. One step of the machine: the next operation from outside, in program order (20_memory R76). -/

namespace Sys2Proof.Machine

/-- The first waiting operation is taken off the queue and handled (00_scope R2; log 3). -/
def step (s : State) : Host.Outcome State Fault Refusal :=
  match s.events with
  | [] => idle s
  | e :: rest => handle e { s with events := rest }

/-- The command word `w` (its low `nbits` bits) as the next operation: a `wr` to CMD, which is where the
CFU takes its commands from (10_state R54; 20_memory R78; log 3). -/
def State.withFetchWord (s : State) (nbits w : Nat) : State :=
  { s with events := .wr .word s.params.cfuBase (tableWord nbits w) :: s.events }

end Sys2Proof.Machine
end

