-- ==== Sys2Proof/Safety.lean ====
section
/-! DEFINITION. The terms claims are stated in: the invariant of the machine, the phase machine of
60_exceptions R240, what a frame is on the wire (30_encoding R100), and the command sequences of a host. -/

namespace Sys2Proof.Machine

/-- The state after `k` bytes have been removed from IN (20_memory R67, R68). -/
def consume (k : Nat) (s : State) : State :=
  { s with inq := s.inq.drop k, regs.inCnt := s.regs.inCnt + BitVec.ofNat 64 k }

/-- The legal tag values (30_encoding R107). -/
def legalTags : List Byte := [0x00, 0x01, 0x02, 0x06]

/-- The bytes begin an encoding `varint(v)` and at least one more byte of it must follow (30_encoding R115). -/
def UnfinishedVarint (bs : List Byte) : Prop := ∃ v, bs <+: varint v ∧ bs ≠ varint v

/-- The bytes are an ill-formed varint up to and including its offending byte: the bytes before the last begin an
encoding, and with the last they begin none (30_encoding R116; 95_test_vectors 2.5). -/
def IllFormedVarint (bs : List Byte) : Prop := UnfinishedVarint bs.dropLast ∧ ∀ v, ¬ bs <+: varint v

/-- What holds of the registers and BUF at every moment. -/
structure RegsInv (p : Params) (r : Regs) : Prop where
  /-- `BUF_LEN <= BUF_BYTES` (10_state R32). -/
  bufFits : r.bufLen ≤ p.bufBytes
  /-- BUF is in its canonical form. -/
  bufCanonical : Memory.wf r.buf = true
  /-- Nothing is ever written at or above BUF_BYTES (20_memory R64). -/
  bufInside : ∀ c ∈ r.buf, c.1 < p.bufBytes.toNat
  /-- Every byte a command can read has been written: unspecified content is never read (93 U4). -/
  bufKnown : ∀ i, i < r.bufLen.toNat → (Memory.read r.buf i).isSome = true
  /-- `STATUS.ERR != 0` if and only if PHASE is FAILED (60_exceptions R230). -/
  errFailed : r.err ≠ .none ↔ r.phase = .failed
  /-- Codes 6 and 8 are never raised (60_exceptions R228, R229). -/
  errRaised : r.err ≠ .destinationTooSmall ∧ r.err ≠ .ioFailure
  /-- EPHASE and ERR_SEQ are 0 while ERR is 0 (10_state R22, R36). -/
  noFault : r.err = .none → r.ephase = .idle ∧ r.errSeq = 0
  /-- No fault is raised in FAILED (60_exceptions R235). -/
  ephaseLive : r.ephase ≠ .failed
  /-- FLAGS shows reserved bits only after a fault (10_state R24). -/
  flagsLegal : r.phase ≠ .failed → flagsReserved r.flags = 0
  /-- REC_TAG shows an illegal tag only after a fault (10_state R27; 30_encoding R107). -/
  tagLegal : r.phase ≠ .failed → r.recTag ∈ legalTags
  /-- VERSION shows another byte than `0x10` only after a fault (10_state R25; 30_encoding R102). -/
  versionOwn : r.phase ≠ .failed → r.version = Config.versionByte
  /-- A frame is written with a block size (43_serializer R171). -/
  blkszSet : r.phase = .sBody → r.blksz ≠ 0
  /-- A trailer waits for FRM.VFY only in a frame with checksums (30_encoding R107). -/
  trailerCk : r.phase = .pTrailer → r.flags.getLsbD 0 = true
  /-- A command in progress has not failed (60_exceptions R234). -/
  busyLive : r.busy = true → r.phase ≠ .failed

/-- The table of 10_state R48, register by register; no byte of BUF is known. -/
structure ResetTable (r : Regs) : Prop where
  phase : r.phase.code = 0
  err : r.err.code = 0
  ephase : r.ephase.code = 0
  busy : r.busy = false
  verify : r.verify = true
  flags : r.flags = 0x00
  version : r.version = 0x10
  blksz : r.blksz = 0
  recTag : r.recTag = 0x00
  origLen : r.origLen = 0
  encLen : r.encLen = 0
  recCk : r.recCk = 0
  xlen : r.xlen = 0
  bufLen : r.bufLen = 0
  blkDigest : r.blkDigest = 0x00000000
  frmAcc : r.frmAcc = 0xFFFFFFFF
  seq : r.seq = 0
  errSeq : r.errSeq = 0
  totOrig : r.totOrig = 0
  inCnt : r.inCnt = 0
  outCnt : r.outCnt = 0
  buf : ∀ i, Memory.read r.buf i = none

/-- What holds of a command that waits (20_memory R67). -/
structure WaitInv (s : State) (r : Running) : Prop where
  /-- Only a command that takes bytes from IN waits (20_memory R69). -/
  takesInput : r.cmd = .bufLd ∨ r.cmd = .ckFabs ∨ r.cmd = .hdrRd ∨ r.cmd = .recRd
  /-- It waits because IN is empty and may yet grow. -/
  inEmpty : s.inq = []
  eosClear : s.eos = false
  /-- It was issued in a phase that admits it (40_control R136). -/
  admitted : admission r.cmd r.before.phase = .execute
  idleBefore : r.before.busy = false
  regsBefore : RegsInv s.params r.before
  /-- A command changes PHASE at its end only (60_exceptions R240). -/
  phaseKept : s.regs.phase = r.before.phase

/-- The invariant of the machine. -/
structure Inv (s : State) : Prop where
  paramsWf : s.params.wf = true
  regs : RegsInv s.params s.regs
  /-- BUSY is 1 exactly while a command is in progress (10_state R22). -/
  busyRunning : s.regs.busy = s.running.isSome
  waiting : ∀ r, s.running = some r → WaitInv s r

/-- The command a step executes or goes on with, if any: a word written to CMD, or the waiting command
when the environment acts on IN. -/
def commandOf (s : State) : Option Instr :=
  match s.events with
  | .wr _ addr w :: _ =>
    if addr = s.params.cfuBase then
      match decode w with
      | .command i => some i
      | .reserved _ => none
    else none
  | .input _ :: _ | .endOfStream :: _ => s.running.map (·.cmd)
  | _ => none

/-- The phase to which the success of a command leads (60_exceptions R240): from `p`, the phases other
than `p` itself. -/
def successPhases (i : Instr) (p : Phase) : List Phase :=
  match i, p with
  | .reset, _ => [.idle]
  | .hdrWr, .idle | .hdrWr, .done => [.sBody]
  | .frmEnd _, .sBody => [.done]
  | .hdrRd, .idle | .hdrRd, .done => [.pBody]
  | .recRd, .pBody => [.done, .pTrailer]
  | .frmVfy, .pTrailer => [.done]
  | _, _ => []

/-- The faults a command's own statements can raise (60_exceptions R232). -/
def faultsOf : Instr → List ErrCode
  | .nop | .reset | .bufSt | .ckBlk | .ckFinit | .ckFbuf => []
  | .bufLd => [.truncatedStream, .allocationFailure]
  | .ckVfy | .frmVfy => [.checksumMismatch]
  | .ckFabs => [.truncatedStream]
  | .hdrWr | .recWr | .frmEnd _ => [.protocolViolation]
  | .hdrRd => [.badMagic, .unsupportedVersion, .truncatedStream, .malformedBlock]
  | .recRd => [.truncatedStream, .malformedBlock, .checksumMismatch, .allocationFailure]

/-! ### Frames on the wire -/

/-- One block record: the stored bit, ORIG_LEN and the payload (30_encoding R106). -/
structure Rec where
  stored : Bool
  origLen : Word
  payload : List Byte
deriving DecidableEq, Repr

/-- A record the parser accepts with a buffer of `cap` bytes: the payload fits, and a stored record's
lengths are equal (30_encoding R109). -/
def recOk (cap : Word) (r : Rec) : Prop :=
  r.payload.length ≤ cap.toNat ∧ (r.stored = true → r.payload.length = r.origLen.toNat)

/-- A record's bytes, with its checksum field in a frame with checksums (30_encoding R106, R110). -/
def recBytes (ckOn : Bool) (r : Rec) : List Byte :=
  recordHead (zextBit r.stored) r.origLen (BitVec.ofNat 32 r.payload.length)
    ++ (if ckOn then le32 (digest r.payload) else []) ++ r.payload

/-- The end marker and the trailer `d` if there is one (30_encoding R112, R113). -/
def endBytes (trailer : Option Word) : List Byte :=
  match trailer with
  | none => [0x02]
  | some d => 0x06 :: le32 d

/-- A frame (30_encoding R100). -/
def frameBytes (m : Magic) (ckOn : Bool) (blksz : Word) (recs : List Rec) (trailer : Option Word) : List Byte :=
  headerBytes m Config.versionByte (zextBit ckOn) blksz ++ recs.flatMap (recBytes ckOn) ++ endBytes trailer

/-- All payload bytes of a frame in record order: its logical payload when every block is stored (42_checksum R158). -/
def payloads (recs : List Rec) : List Byte := recs.flatMap (·.payload)

/-- The whole-frame digest of the payloads, where the frame has a trailer. -/
def payloadTrailer (t : Bool) (recs : List Rec) : Option Word := if t then some (digest (payloads recs)) else none

/-- The sum of the original lengths, as TOT_ORIG holds it (10_state R38). -/
def totalOrig (recs : List Rec) : Count := (recs.map fun r => r.origLen.setWidth 64).sum

/-! ### Command sequences of a host -/

/-- Commands issued one after another. -/
def execAll : List Instr → State → Host.Outcome State Fault Refusal
  | [], s => .next s
  | i :: is, s =>
    match exec i s with
    | .next t => execAll is t
    | .fault f => .fault f
    | .refused r => .refused r

/-- HDR.RD, then for each of `n` records REC.RD and CK.FBUF (44_parser R190; 42_checksum R158). -/
def readRecords (n : Nat) : List Instr := .hdrRd :: (List.replicate n [Instr.recRd, Instr.ckFbuf]).flatten

/-- The parse of a frame of `n` records, with FRM.VFY if it has a trailer (44_parser R190). -/
def readFrame (n : Nat) (t : Bool) : List Instr := readRecords n ++ .recRd :: if t then [.frmVfy] else []

/-- A host's `wr` of an aligned word at an offset. -/
def wrAt (p : Params) (off : Nat) (v : Word) : Event := .wr .word (p.cfuBase + off) v

/-- The host's operations that write one record whose payload is next in IN: XLEN, BUF.LD, CK.FBUF,
REC_TAG, ORIG_LEN, REC.WR (43_serializer R170; 95_test_vectors 3.2). -/
def writeRecordEvents (p : Params) (r : Rec) : List Event :=
  [wrAt p 0x28 (BitVec.ofNat 32 r.payload.length), wrAt p 0x00 (encode .bufLd), wrAt p 0x00 (encode .ckFbuf),
   wrAt p 0x18 ((zextBit r.stored).setWidth 32), wrAt p 0x1C r.origLen, wrAt p 0x00 (encode .recWr)]

/-- The host's operations that write a frame (43_serializer R170; 70_reset R253). -/
def writeFrameEvents (p : Params) (ckOn : Bool) (blksz : Word) (recs : List Rec) (t : Bool) : List Event :=
  [wrAt p 0x0C ((zextBit ckOn).setWidth 32), wrAt p 0x14 blksz, wrAt p 0x00 (encode .hdrWr)]
    ++ recs.flatMap (writeRecordEvents p) ++ [wrAt p 0x00 (encode (.frmEnd t))]

end Sys2Proof.Machine
end

