-- ==== Sys2Proof/Certificates/Slice0/Obligations.lean ====
section
/-! DEFINITION. The statements for the provers. Each docstring names the rule of spec/ it formalises. -/

open Sys2Proof Sys2Proof.Machine

/-! ### Encoding -/

/-- 30_encoding R92, R93: a word is a command's word exactly when it is the word the encoder writes, for
every command and every value of T, and for all 2^32 words. -/
def Obligations.DecodeInvertsEncode : Prop :=
  ∀ (w : Word) (i : Instr), decode w = .command i ↔ w = encode i

/-- 30_encoding R93: the words the decoder accepts are those with bits 31:9 zero, T set for OPC 0x32 only
and OPC one of the 15. -/
def Obligations.WordIsCommandIffWellFormed : Prop :=
  ∀ w : Word, (∃ i, decode w = .command i) ↔ commandWordWf w = true

/-- 30_encoding R92: words of each family, as the table writes them. -/
def Obligations.SampleWordsDecode : Prop :=
  decode 0x00000001 = .command .reset ∧ decode 0x00000011 = .command .bufSt ∧
  decode 0x00000023 = .command .ckFabs ∧ decode 0x00000031 = .command .recWr ∧
  decode 0x00000132 = .command (.frmEnd true) ∧ decode 0x00000039 = .command .recRd ∧
  decode 0x00000133 = .reserved .strayT

/-- 30_encoding R117: `le32` and `le32_val`, and the place of each byte. -/
def Obligations.Le32RoundTrip : Prop :=
  ∀ v : Word, le32Val (le32 v) = v ∧ (le32 v).length = 4 ∧
    ∀ j, j < 4 → ((le32 v).getD j 0).toNat = v.toNat / 256 ^ j % 256

/-- 30_encoding R115: `vlen`, and bit 7 of a byte is set if and only if another byte follows. -/
def Obligations.VarintLengthAndContinuation : Prop :=
  ∀ v : Word,
    (varint v).length = (if v.toNat < 2 ^ 7 then 1 else if v.toNat < 2 ^ 14 then 2
      else if v.toNat < 2 ^ 21 then 3 else if v.toNat < 2 ^ 28 then 4 else 5) ∧
    ∀ j, j < (varint v).length →
      (((varint v).getD j 0).getLsbD 7 = true ↔ j + 1 < (varint v).length) ∧
      ((varint v).getD j 0).toNat % 128 = v.toNat / 128 ^ j % 128

/-- 30_encoding R116: `VarintRead` reads back what `varint` writes, and it accepts nothing else. -/
def Obligations.VarintReadAcceptsExactlyVarint : Prop :=
  ∀ s : State,
    (∀ v rest, s.inq = varint v ++ rest → varintRead s = .ok v (consume (varint v).length s)) ∧
    (∀ v t, varintRead s = .ok v t → s.inq = varint v ++ t.inq)

/-- 30_encoding R116: where the bytes are not the shortest form of any 32-bit value and not a beginning of
one, `VarintRead` raises MalformedBlock and has consumed the bytes up to and including the offending one, which are
then an ill-formed varint; where IN ends inside a beginning, TruncatedStream. -/
def Obligations.VarintReadFaults : Prop :=
  ∀ s : State,
    ((∀ v, ¬ varint v <+: s.inq) → (∀ v, ¬ s.inq <+: varint v) →
      ∃ k, k ≤ s.inq.length ∧ IllFormedVarint (s.inq.take k) ∧
        varintRead s = .raised (raise .malformedBlock (consume k s))) ∧
    (∀ v, s.inq <+: varint v → s.inq ≠ varint v → s.eos = true →
      varintRead s = .raised (raise .truncatedStream (consume s.inq.length s)))

/-- 30_encoding R118: a frame of `n` original bytes in `ceil(n / B)` records, no payload longer than its
original, is at most `11 + 15 * ceil(n / B) + n + 5` bytes. -/
def Obligations.FrameSizeBound : Prop :=
  ∀ (m : Magic) (ckOn : Bool) (blksz : Word) (recs : List Rec) (trailer : Option Word) (n B : Nat),
    1 ≤ B → (recs.map fun r => r.origLen.toNat).sum = n → recs.length = (n + B - 1) / B →
    (∀ r ∈ recs, r.payload.length ≤ r.origLen.toNat) →
    (frameBytes m ckOn blksz recs trailer).length ≤ 11 + 15 * ((n + B - 1) / B) + n + 5

/-! ### The digest -/

/-- 42_checksum R150, R151: the round values, the empty digest and the check value the rules give. -/
def Obligations.DigestExamples : Prop :=
  crcStep 0x00000000 0x01 = 0x77073096 ∧ crcStep 0x00000000 0x80 = 0xEDB88320 ∧
  crcStep 0xFFFFFFFF 0x00 = 0x2DFD1072 ∧ crcStep 0xFFFFFFFF 0x61 = 0x174841BC ∧
  digest [] = 0x00000000 ∧
  digest [0x31, 0x32, 0x33, 0x34, 0x35, 0x36, 0x37, 0x38, 0x39] = 0xCBF43926

/-- 42_checksum R160: the incremental law. -/
def Obligations.DigestIsIncremental : Prop :=
  (∀ (acc : Word) (s t : List Byte), crcFold acc (s ++ t) = crcFold (crcFold acc s) t) ∧
  ∀ ps : List (List Byte), ps.foldl crcFold 0xFFFFFFFF ^^^ 0xFFFFFFFF = digest ps.flatten

/-- 42_checksum R161: two byte sequences of equal length that differ in exactly one byte have different
digests. -/
def Obligations.DigestDetectsOneChangedByte : Prop :=
  ∀ (p q : List Byte) (b c : Byte), b ≠ c → digest (p ++ b :: q) ≠ digest (p ++ c :: q)

/-! ### Steps and the host's operations -/

/-- 40_control R130, R132: when the next operation writes a command's word to CMD, the step is that
command's execution, with the operation taken off the queue. -/
def Obligations.StepRunsDecodedCommand : Prop :=
  ∀ (s : State) (w : Word) (i : Instr) (rest : List Event),
    s.params.wf = true → s.regs.busy = false → s.events = wrAt s.params 0x00 w :: rest →
    decode w = .command i → i.wf = true → step s = exec i { s with events := rest }

/-- 30_encoding R93: a reserved word raises ProtocolViolation in any phase but FAILED and does nothing else;
in FAILED it is ignored (40_control R135). -/
def Obligations.ReservedWordRaisesProtocolViolation : Prop :=
  ∀ (s : State) (w : Word) (why : ReservedWord) (rest : List Event),
    s.params.wf = true → s.regs.busy = false → s.events = wrAt s.params 0x00 w :: rest →
    decode w = .reserved why →
    (s.regs.phase ≠ .failed → step s = .next (raise .protocolViolation { s with events := rest })) ∧
    (s.regs.phase = .failed → step s = .next { s with events := rest })

/-- 40_control R130: the host's register write outside FAILED, every offset but CMD. -/
def Obligations.HostWriteTable : Prop :=
  ∀ (s : State) (off : Nat) (v : Word) (rest : List Event),
    s.params.wf = true → s.regs.busy = false → s.regs.phase ≠ .failed →
    s.events = wrAt s.params off v :: rest → off % 4 = 0 → off < 0x100 → off ≠ 0x00 →
    let q : State := { s with events := rest }
    (off = 0x08 → step s = .next { q with regs.verify := v.getLsbD 0 }) ∧
    ((off = 0x0C ∨ off = 0x14) → (s.regs.phase = .sBody ∨ s.regs.phase = .pBody ∨ s.regs.phase = .pTrailer) →
      step s = .next (raise .protocolViolation q)) ∧
    (off = 0x0C → (s.regs.phase = .idle ∨ s.regs.phase = .done) →
      step s = .next { q with regs.flags := (v &&& 1).setWidth 8 }) ∧
    (off = 0x14 → (s.regs.phase = .idle ∨ s.regs.phase = .done) →
      step s = .next { q with regs.blksz := v }) ∧
    (off = 0x18 → step s = .next { q with regs.recTag := (v &&& 1).setWidth 8 }) ∧
    (off = 0x1C → step s = .next { q with regs.origLen := v }) ∧
    (off = 0x24 → step s = .next { q with regs.recCk := v }) ∧
    (off = 0x28 → step s = .next { q with regs.xlen := v }) ∧
    (off ∉ [0x08, 0x0C, 0x14, 0x18, 0x1C, 0x24, 0x28] → step s = .next q)

/-- 10_state R47: in FAILED every write but RESET's word to CMD is ignored. -/
def Obligations.FailedIgnoresHostWrites : Prop :=
  ∀ (s : State) (off : Nat) (v : Word) (rest : List Event),
    s.params.wf = true → s.regs.busy = false → s.regs.phase = .failed →
    s.events = wrAt s.params off v :: rest → off % 4 = 0 → off < 0x100 → ¬ (off = 0x00 ∧ v = 0x00000001) →
    step s = .next { s with events := rest }

/-- 40_control R131; 20_memory R74: the value a read returns at every offset, while BUSY is 0; a read changes
no state of the CFU and of its streams. -/
def Obligations.HostReadTable : Prop :=
  ∀ (s : State) (off : Nat) (rest : List Event),
    s.params.wf = true → s.regs.busy = false →
    s.events = .rd .word (s.params.cfuBase + off) :: rest → off % 4 = 0 → off < 0x100 →
    ∃ v : Word, step s = .next { s with events := rest, hostRead := some v } ∧
      (off = 0x00 → v = 0) ∧
      (off = 0x04 → v.toNat =
        s.regs.phase.code.toNat + 16 * s.regs.err.code.toNat + 256 * s.regs.ephase.code.toNat) ∧
      (off = 0x08 → v.toNat = if s.regs.verify then 1 else 0) ∧
      (off = 0x0C → v.toNat = s.regs.flags.toNat) ∧ (off = 0x10 → v.toNat = s.regs.version.toNat) ∧
      (off = 0x14 → v = s.regs.blksz) ∧ (off = 0x18 → v.toNat = s.regs.recTag.toNat) ∧
      (off = 0x1C → v = s.regs.origLen) ∧ (off = 0x20 → v = s.regs.encLen) ∧
      (off = 0x24 → v = s.regs.recCk) ∧ (off = 0x28 → v = s.regs.xlen) ∧ (off = 0x2C → v = s.regs.bufLen) ∧
      (off = 0x30 → v = s.regs.blkDigest) ∧ (off = 0x34 → v = s.regs.frmAcc ^^^ 0xFFFFFFFF) ∧
      (off = 0x38 → v = s.regs.seq) ∧ (off = 0x3C → v = s.regs.errSeq) ∧
      (off = 0x40 → v.toNat = s.regs.totOrig.toNat % 2 ^ 32) ∧
      (off = 0x44 → v.toNat = s.regs.totOrig.toNat / 2 ^ 32) ∧
      (off = 0x48 → v.toNat = s.regs.inCnt.toNat % 2 ^ 32) ∧
      (off = 0x4C → v.toNat = s.regs.inCnt.toNat / 2 ^ 32) ∧
      (off = 0x50 → v.toNat = s.regs.outCnt.toNat % 2 ^ 32) ∧
      (off = 0x54 → v.toNat = s.regs.outCnt.toNat / 2 ^ 32) ∧
      (off = 0x58 → v = s.params.bufBytes) ∧ (0x5C ≤ off → v = 0)

/-- 70_reset R254 (logs 7, 8): while BUSY is 1 a read of STATUS shows BUSY and leaves the CFU as it is, and
every other access is refused. -/
def Obligations.BusyAdmitsOnlyStatusReads : Prop :=
  ∀ (s : State) (off : Nat) (v : Word) (rest : List Event),
    s.params.wf = true → s.regs.busy = true → off % 4 = 0 → off < 0x100 →
    (off = 0x04 → s.events = .rd .word (s.params.cfuBase + off) :: rest →
      ∃ a : Word, a.getLsbD 12 = true ∧ a.toNat < 2 ^ 13 ∧
        step s = .next { s with events := rest, hostRead := some a, busyReads := s.busyReads + 1 }) ∧
    (off ≠ 0x04 → s.events = .rd .word (s.params.cfuBase + off) :: rest → step s = .refused .accessWhileBusy) ∧
    (s.events = wrAt s.params off v :: rest → step s = .refused .accessWhileBusy)

/-- 20_memory R62; 93 U7, U8 (log 9): a narrow, wide or misaligned access and an access outside the register
space are refused, whatever the CFU does. -/
def Obligations.BadBusAccessIsRefused : Prop :=
  ∀ (s : State) (size : AccessSize) (addr : Nat) (v : Word) (rest : List Event),
    (s.events = .wr size addr v :: rest ∨ s.events = .rd size addr :: rest) →
    ((size ≠ .word ∨ addr % 4 ≠ 0) → step s = .refused .notAlignedWord) ∧
    (size = .word → addr % 4 = 0 → (addr < s.params.cfuBase ∨ s.params.cfuBase + 0x100 ≤ addr) →
      step s = .refused .outsideRegisterSpace)

/-- 20_memory R67, R68 (log 4): the wait is not a state change. A command that waits goes on, when bytes
arrive or EOS is set, as it would have run with them there from the start. -/
def Obligations.WaitingIsNoStateChange : Prop :=
  ∀ (i : Instr) (s t : State) (rest : List Event),
    s.running = none → s.regs.busy = false → exec i s = .next t → t.regs.busy = true →
    (∀ bs, step { t with events := .input bs :: rest } =
      exec i { s with inq := s.inq ++ bs, events := rest }) ∧
    step { t with events := .endOfStream :: rest } = exec i { s with eos := true, events := rest }

/-- 20_memory R67, R69: a command waits only where IN has run out and EOS is 0, and only the four commands
that take from IN do; nothing of BUF's content, OUT or PHASE has changed. -/
def Obligations.OnlyInputCommandsWait : Prop :=
  ∀ (i : Instr) (s t : State), s.regs.busy = false → exec i s = .next t → t.regs.busy = true →
    i ∈ [.bufLd, .ckFabs, .hdrRd, .recRd] ∧ s.eos = false ∧ t.inq = [] ∧ t.out = s.out ∧
    t.regs.phase = s.regs.phase ∧ t.regs.err = s.regs.err ∧ (∀ a, bufByte t a = bufByte s a) ∧
    t.running = some ⟨i, s.regs, s.inq⟩

/-! ### Reset, faults, phases -/

/-- 10_state R48: the state right after reset shows the table, as the host reads it. -/
def Obligations.ResetStateShowsTheTable : Prop :=
  ResetTable State.reset.regs ∧ readReg State.reset .status = 0x00000000 ∧
    readReg State.reset .ctrl = 0x00000001 ∧ readReg State.reset .version = 0x10 ∧
    readReg State.reset .frmDigest = 0x00000000

/-- 40_control R134; 10_state R48; 70_reset R251: RESET, in every phase, FAILED included, puts every register
at its reset value and touches neither IN, EOS nor OUT. -/
def Obligations.ResetCommandRestoresRegisters : Prop :=
  ∀ s : State, ∃ t, exec .reset s = .next t ∧ ResetTable t.regs ∧ t.inq = s.inq ∧ t.eos = s.eos ∧
    t.out = s.out ∧ t.params = s.params ∧ t.running = s.running ∧ t.events = s.events

/-- 70_reset R250; 10_state R48: hard reset puts every register at its reset value, abandons a waiting command
and touches neither IN, EOS nor OUT. -/
def Obligations.HardResetRestoresRegisters : Prop :=
  ∀ (s : State) (rest : List Event), s.events = .hardReset :: rest →
    ∃ t, step s = .next t ∧ ResetTable t.regs ∧ t.running = none ∧ t.inq = s.inq ∧ t.eos = s.eos ∧
      t.out = s.out ∧ t.params = s.params ∧ t.events = rest

/-- 40_control R136: a command issued in a phase that is not listed raises ProtocolViolation and has no other
effect. -/
def Obligations.IllegalPhaseRaisesProtocolViolation : Prop :=
  ∀ s : State,
    ((s.regs.phase = .sBody ∨ s.regs.phase = .pBody ∨ s.regs.phase = .pTrailer) →
      exec .hdrWr s = .next (raise .protocolViolation s) ∧ exec .hdrRd s = .next (raise .protocolViolation s)) ∧
    ((s.regs.phase = .idle ∨ s.regs.phase = .pBody ∨ s.regs.phase = .pTrailer ∨ s.regs.phase = .done) →
      exec .recWr s = .next (raise .protocolViolation s) ∧
      ∀ b, exec (.frmEnd b) s = .next (raise .protocolViolation s)) ∧
    ((s.regs.phase = .idle ∨ s.regs.phase = .sBody ∨ s.regs.phase = .pTrailer ∨ s.regs.phase = .done) →
      exec .recRd s = .next (raise .protocolViolation s)) ∧
    ((s.regs.phase = .idle ∨ s.regs.phase = .sBody ∨ s.regs.phase = .pBody ∨ s.regs.phase = .done) →
      exec .frmVfy s = .next (raise .protocolViolation s))

/-- 40_control R135: in FAILED a command other than RESET is ignored, and no state changes. -/
def Obligations.FailedIgnoresCommands : Prop :=
  ∀ (i : Instr) (s : State), s.regs.phase = .failed → i ≠ .reset → exec i s = .next s

/-- 60_exceptions R231, R234: whatever command raises a fault, the phase it was raised in, SEQ and a code that
the CFU raises are recorded, BUSY is 0, and what was put on OUT before stays. -/
def Obligations.FaultRecordsPhaseSeqAndCode : Prop :=
  ∀ (i : Instr) (s t : State), exec i s = .next t → s.regs.phase ≠ .failed → t.regs.phase = .failed →
    t.regs.ephase = s.regs.phase ∧ t.regs.errSeq = t.regs.seq ∧ t.regs.busy = false ∧
    t.regs.err.code ∈ [1, 2, 3, 4, 5, 7, 9] ∧ s.out <+: t.out

/-- 60_exceptions R232: which command raises which fault. -/
def Obligations.FaultsOfEachCommand : Prop :=
  ∀ (i : Instr) (s t : State), exec i s = .next t → s.regs.phase ≠ .failed → t.regs.phase = .failed →
    t.regs.err ∈ faultsOf i ∨ (legal i s.regs.phase = false ∧ t = raise .protocolViolation s)

/-- 60_exceptions R235, R238: FAILED is left by RESET and hard reset only; until then no step changes a register
or BUF, and none puts a byte on OUT. -/
def Obligations.FirstFaultStays : Prop :=
  ∀ s t : State, Inv s → s.regs.phase = .failed → step s = .next t → commandOf s ≠ some .reset →
    s.events.head? ≠ some .hardReset → t.regs = s.regs ∧ t.out <:+ s.out

/-- 60_exceptions R240: every change of PHASE. A step leaves PHASE as it is, or a raise makes it FAILED, or a
hard reset makes it IDLE, or the command it executes (or goes on with) leads to a phase the table lists. -/
def Obligations.PhaseMachine : Prop :=
  ∀ s t : State, Inv s → step s = .next t →
    t.regs.phase = s.regs.phase ∨ (s.regs.phase ≠ .failed ∧ t.regs.phase = .failed) ∨
    (s.events.head? = some .hardReset ∧ t.regs.phase = .idle) ∨
    ∃ i, commandOf s = some i ∧ t.regs.phase ∈ successPhases i s.regs.phase

/-- The invariant holds at reset. -/
def Obligations.InvariantHoldsAtReset : Prop := Inv State.reset

/-- Every step keeps the invariant: BUF_LEN is at most BUF_BYTES and every readable byte of BUF has been written
(10_state R32, R41), ERR is not 0 exactly in FAILED and never 6 or 8 (60_exceptions R230), FLAGS, REC_TAG and
VERSION are legal outside FAILED, and a waiting command waits for a byte (20_memory R67). -/
def Obligations.StepKeepsInvariant : Prop := ∀ s t : State, Inv s → step s = .next t → Inv t

/-- 40_control R137: what a command may write. Whatever it does (ends, faults, waits), everything outside its
row of the table is as before; every byte of BUF is read before and after. -/
def Obligations.CommandFrames : Prop :=
  ∀ (i : Instr) (s t : State), exec i s = .next t →
    (t.params = s.params ∧ t.eos = s.eos ∧ t.events = s.events ∧ t.hostRead = s.hostRead ∧
      t.busyReads = s.busyReads) ∧
    (i ∉ [.bufLd, .ckFabs, .hdrRd, .recRd] → t.inq = s.inq ∧ t.running = s.running) ∧
    (i ∉ [.bufSt, .hdrWr, .recWr, .frmEnd false, .frmEnd true] → t.out = s.out) ∧
    (i ≠ .reset →
      t.regs.verify = s.regs.verify ∧ t.regs.xlen = s.regs.xlen ∧
      (i ≠ .hdrRd → t.regs.flags = s.regs.flags ∧ t.regs.blksz = s.regs.blksz) ∧
      (i ∉ [.hdrWr, .hdrRd] → t.regs.version = s.regs.version) ∧
      (i ∉ [.recWr, .frmEnd false, .frmEnd true, .recRd] → t.regs.recTag = s.regs.recTag) ∧
      (i ≠ .recRd → t.regs.origLen = s.regs.origLen) ∧
      (i ∉ [.recWr, .recRd] → t.regs.encLen = s.regs.encLen) ∧
      (i ∉ [.recWr, .frmEnd true, .recRd] → t.regs.recCk = s.regs.recCk) ∧
      (i ∉ [.bufLd, .recRd] → t.regs.bufLen = s.regs.bufLen ∧ ∀ a, bufByte t a = bufByte s a) ∧
      (i ∉ [.ckBlk, .ckVfy, .recWr, .recRd] → t.regs.blkDigest = s.regs.blkDigest) ∧
      (i ∉ [.ckFinit, .ckFabs, .ckFbuf, .hdrWr, .hdrRd] → t.regs.frmAcc = s.regs.frmAcc) ∧
      (i ∉ [.hdrWr, .recWr, .hdrRd, .recRd] → t.regs.seq = s.regs.seq ∧ t.regs.totOrig = s.regs.totOrig) ∧
      (i ∉ [.bufLd, .ckFabs, .hdrWr, .hdrRd, .recRd] → t.regs.inCnt = s.regs.inCnt) ∧
      (i ∉ [.bufSt, .hdrWr, .recWr, .frmEnd false, .frmEnd true, .hdrRd] → t.regs.outCnt = s.regs.outCnt) ∧
      (t.regs.phase ≠ .failed ∨ s.regs.phase = .failed →
        t.regs.err = s.regs.err ∧ t.regs.ephase = s.regs.ephase ∧ t.regs.errSeq = s.regs.errSeq) ∧
      (i ∉ [.hdrWr, .frmEnd false, .frmEnd true, .hdrRd, .recRd, .frmVfy] → t.regs.phase ≠ .failed →
        t.regs.phase = s.regs.phase))

/-! ### Control and buffer commands -/

/-- 40_control R133: NOP does nothing in every phase but FAILED, where it is ignored. -/
def Obligations.NopDoesNothing : Prop :=
  decode 0x00000000 = .command .nop ∧
  ∀ s : State, (s.regs.phase ≠ .failed → exec .nop s = .next { s with regs.busy := false }) ∧
    (s.regs.phase = .failed → exec .nop s = .next s)

/-- 41_buffer R140: BUF.LD with XLEN bytes in IN: exactly those are in BUF, the bytes of BUF from XLEN on are as
before, and IN_CNT has advanced. -/
def Obligations.BufLdLoadsXlenBytes : Prop :=
  ∀ (s : State) (p rest : List Byte), s.regs.phase ≠ .failed → s.regs.xlen ≤ s.params.bufBytes →
    s.inq = p ++ rest → p.length = s.regs.xlen.toNat →
    ∃ t, exec .bufLd s = .next t ∧
      t = { s with
        inq := rest
        regs.inCnt := s.regs.inCnt + BitVec.ofNat 64 p.length
        regs.buf := t.regs.buf
        regs.bufLen := s.regs.xlen
        regs.busy := false } ∧
      bufContent t = p ∧ (∀ a, p.length ≤ a → bufByte t a = bufByte s a)

/-- 41_buffer R140; 60_exceptions R226, R237: BUF.LD with XLEN above BUF_BYTES changes nothing but what fault
entry changes. BUF.LD short of XLEN bytes, with EOS, has emptied IN, counted the bytes and set BUF_LEN to 0. -/
def Obligations.BufLdFaults : Prop :=
  ∀ s : State, s.regs.phase ≠ .failed →
    (¬ s.regs.xlen ≤ s.params.bufBytes → exec .bufLd s = .next (raise .allocationFailure s)) ∧
    (s.regs.xlen ≤ s.params.bufBytes → s.inq.length < s.regs.xlen.toNat → s.eos = true →
      ∃ t, exec .bufLd s = .next t ∧
        t = raise .truncatedStream { s with
          inq := []
          regs.inCnt := s.regs.inCnt + BitVec.ofNat 64 s.inq.length
          regs.bufLen := 0
          regs.buf := t.regs.buf
          regs.bufEpoch := t.regs.bufEpoch })

/-- 41_buffer R141: BUF.ST appends BUF's content to OUT and changes neither BUF nor BUF_LEN; OUT_CNT advances by
BUF_LEN; in FAILED it is ignored. -/
def Obligations.BufStEmitsContent : Prop :=
  decode 0x00000011 = .command .bufSt ∧
  ∀ s : State, (bufContent s).length = s.regs.bufLen.toNat ∧
    (s.regs.phase ≠ .failed → exec .bufSt s = .next { s with
      out := s.out ++ bufContent s
      regs.outCnt := s.regs.outCnt + s.regs.bufLen.setWidth 64
      regs.busy := false }) ∧
    (s.regs.phase = .failed → exec .bufSt s = .next s)

/-! ### Checksum commands -/

/-- 42_checksum R153: CK.BLK. -/
def Obligations.CkBlkStoresDigest : Prop :=
  decode 0x00000020 = .command .ckBlk ∧
  ∀ s : State, (s.regs.phase ≠ .failed → exec .ckBlk s = .next { s with
      regs.blkDigest := digest (bufContent s)
      regs.busy := false }) ∧
    (s.regs.phase = .failed → exec .ckBlk s = .next s)

/-- 42_checksum R154: CK.VFY writes BLK_DIGEST, and raises ChecksumMismatch exactly when it differs from
REC_CK, whatever FLAGS.CK and CTRL.VERIFY are. -/
def Obligations.CkVfyComparesWithRecCk : Prop :=
  decode 0x00000021 = .command .ckVfy ∧
  ∀ s : State,
    let q : State := { s with regs.blkDigest := digest (bufContent s), regs.busy := false }
    (s.regs.phase ≠ .failed → digest (bufContent s) = s.regs.recCk → exec .ckVfy s = .next q) ∧
    (s.regs.phase ≠ .failed → digest (bufContent s) ≠ s.regs.recCk →
      exec .ckVfy s = .next (raise .checksumMismatch q)) ∧
    (s.regs.phase = .failed → exec .ckVfy s = .next s)

/-- 42_checksum R155: CK.FINIT. -/
def Obligations.CkFinitRestartsAccumulator : Prop :=
  decode 0x00000022 = .command .ckFinit ∧
  ∀ s : State, (s.regs.phase ≠ .failed → exec .ckFinit s = .next { s with
      regs.frmAcc := 0xFFFFFFFF
      regs.busy := false }) ∧
    (s.regs.phase = .failed → exec .ckFinit s = .next s)

/-- 42_checksum R156: CK.FABS folds XLEN bytes of IN, which go nowhere else; short of them, with EOS, it raises
TruncatedStream with those it had folded and counted. -/
def Obligations.CkFabsFoldsInput : Prop :=
  decode 0x00000023 = .command .ckFabs ∧
  ∀ (s : State) (p rest : List Byte),
    (s.regs.phase ≠ .failed → s.inq = p ++ rest → p.length = s.regs.xlen.toNat →
      exec .ckFabs s = .next { s with
        inq := rest
        regs.inCnt := s.regs.inCnt + BitVec.ofNat 64 p.length
        regs.frmAcc := crcFold s.regs.frmAcc p
        regs.busy := false }) ∧
    (s.regs.phase ≠ .failed → s.inq.length < s.regs.xlen.toNat → s.eos = true →
      exec .ckFabs s = .next (raise .truncatedStream { s with
        inq := []
        regs.inCnt := s.regs.inCnt + BitVec.ofNat 64 s.inq.length
        regs.frmAcc := crcFold s.regs.frmAcc s.inq })) ∧
    (s.regs.phase = .failed → exec .ckFabs s = .next s)

/-- 42_checksum R157: CK.FBUF. -/
def Obligations.CkFbufFoldsContent : Prop :=
  decode 0x00000024 = .command .ckFbuf ∧
  ∀ s : State, (s.regs.phase ≠ .failed → exec .ckFbuf s = .next { s with
      regs.frmAcc := crcFold s.regs.frmAcc (bufContent s)
      regs.busy := false }) ∧
    (s.regs.phase = .failed → exec .ckFbuf s = .next s)

/-! ### Serializer commands -/

/-- 43_serializer R171: HDR.WR, in IDLE and DONE; with BLKSZ 0 ProtocolViolation before any other effect; in the
other phases it is refused, in FAILED ignored. -/
def Obligations.HdrWrBeginsFrame : Prop :=
  decode 0x00000030 = .command .hdrWr ∧
  ∀ s : State,
    ((s.regs.phase = .idle ∨ s.regs.phase = .done) → s.regs.blksz ≠ 0 → exec .hdrWr s = .next { s with
      out := s.out ++ (s.params.magic.bytes ++ [0x10, s.regs.flags] ++ varint s.regs.blksz)
      regs.inCnt := 0
      regs.outCnt := BitVec.ofNat 64 (6 + (varint s.regs.blksz).length)
      regs.seq := 0
      regs.totOrig := 0
      regs.frmAcc := 0xFFFFFFFF
      regs.version := 0x10
      regs.phase := .sBody
      regs.busy := false }) ∧
    ((s.regs.phase = .idle ∨ s.regs.phase = .done) → s.regs.blksz = 0 →
      exec .hdrWr s = .next (raise .protocolViolation s)) ∧
    ((s.regs.phase = .sBody ∨ s.regs.phase = .pBody ∨ s.regs.phase = .pTrailer) →
      exec .hdrWr s = .next (raise .protocolViolation s)) ∧
    (s.regs.phase = .failed → exec .hdrWr s = .next s)

/-- 43_serializer R172: REC.WR with its two conditions met: the record's bytes, the registers it writes, and with
FLAGS.CK 0 no digest is computed. -/
def Obligations.RecWrWritesRecord : Prop :=
  ∀ s : State, s.regs.phase = .sBody → s.regs.origLen ≤ s.regs.blksz →
    (s.regs.recTag.getLsbD 0 = true → s.regs.bufLen = s.regs.origLen) →
    let tag : Byte := s.regs.recTag &&& 1
    let d := digest (bufContent s)
    let bytes := [tag] ++ varint s.regs.origLen ++ varint s.regs.bufLen
      ++ (if s.regs.flags.getLsbD 0 then le32 d else []) ++ bufContent s
    exec .recWr s = .next { s with
      out := s.out ++ bytes
      regs.outCnt := s.regs.outCnt + BitVec.ofNat 64 bytes.length
      regs.recTag := tag
      regs.encLen := s.regs.bufLen
      regs.blkDigest := if s.regs.flags.getLsbD 0 then d else s.regs.blkDigest
      regs.recCk := if s.regs.flags.getLsbD 0 then d else s.regs.recCk
      regs.seq := s.regs.seq + 1
      regs.totOrig := s.regs.totOrig + s.regs.origLen.setWidth 64
      regs.busy := false }

/-- 43_serializer R172; 60_exceptions R227: REC.WR refuses ORIG_LEN above BLKSZ, and a stored record whose lengths
differ, before any effect. -/
def Obligations.RecWrRefusesBadLengths : Prop :=
  ∀ s : State, s.regs.phase = .sBody →
    (¬ s.regs.origLen ≤ s.regs.blksz ∨ (s.regs.recTag.getLsbD 0 = true ∧ s.regs.bufLen ≠ s.regs.origLen)) →
    exec .recWr s = .next (raise .protocolViolation s)

/-- 43_serializer R174: FRM.END, without and with its trailer, and its refusal of a trailer in a frame without
checksums; in the other phases it is refused, in FAILED ignored. -/
def Obligations.FrmEndEndsFrame : Prop :=
  decode 0x00000032 = .command (.frmEnd false) ∧ decode 0x00000132 = .command (.frmEnd true) ∧
  ∀ s : State,
    (s.regs.phase = .sBody → exec (.frmEnd false) s = .next { s with
      out := s.out ++ [0x02]
      regs.outCnt := s.regs.outCnt + 1
      regs.recTag := 0x02
      regs.phase := .done
      regs.busy := false }) ∧
    (s.regs.phase = .sBody → s.regs.flags.getLsbD 0 = true → exec (.frmEnd true) s = .next { s with
      out := s.out ++ (0x06 :: le32 (s.regs.frmAcc ^^^ 0xFFFFFFFF))
      regs.outCnt := s.regs.outCnt + 5
      regs.recTag := 0x06
      regs.recCk := s.regs.frmAcc ^^^ 0xFFFFFFFF
      regs.phase := .done
      regs.busy := false }) ∧
    (s.regs.phase = .sBody → s.regs.flags.getLsbD 0 = false →
      exec (.frmEnd true) s = .next (raise .protocolViolation s)) ∧
    (∀ t, (s.regs.phase = .idle ∨ s.regs.phase = .pBody ∨ s.regs.phase = .pTrailer ∨ s.regs.phase = .done) →
      exec (.frmEnd t) s = .next (raise .protocolViolation s)) ∧
    (∀ t, s.regs.phase = .failed → exec (.frmEnd t) s = .next s)

/-! ### Parser commands -/

/-- 44_parser R191: HDR.RD on a header: any block size, flags 0 or 1. -/
def Obligations.HdrRdReadsHeader : Prop :=
  ∀ (s : State) (flags : Byte) (blksz : Word) (rest : List Byte),
    (s.regs.phase = .idle ∨ s.regs.phase = .done) → (flags = 0x00 ∨ flags = 0x01) →
    s.inq = s.params.magic.bytes ++ [0x10, flags] ++ varint blksz ++ rest →
    exec .hdrRd s = .next { s with
      inq := rest
      regs.inCnt := BitVec.ofNat 64 (6 + (varint blksz).length)
      regs.outCnt := 0
      regs.seq := 0
      regs.totOrig := 0
      regs.frmAcc := 0xFFFFFFFF
      regs.version := 0x10
      regs.flags := flags
      regs.blksz := blksz
      regs.phase := .pBody
      regs.busy := false }

/-- 44_parser R191; 60_exceptions R221 to R224, R237: HDR.RD's faults, in the order the bytes arrive: on the magic, the
version, the flags byte and the block size (the offending byte is consumed, and shown where its register is loaded
before the check), and where IN is exhausted in the magic, at the version, at the flags byte or in the block size.
The counters were cleared first, and BLKSZ is unchanged. -/
def Obligations.HdrRdHeaderFaults : Prop :=
  ∀ s : State, (s.regs.phase = .idle ∨ s.regs.phase = .done) →
    let magic := s.params.magic.bytes
    let q (rest : List Byte) (k : Nat) : State := { s with
      inq := rest
      regs.inCnt := BitVec.ofNat 64 k
      regs.outCnt := 0
      regs.seq := 0
      regs.totOrig := 0
      regs.frmAcc := 0xFFFFFFFF }
    (∀ k b rest, k < 4 → b ≠ magic.getD k 0 → s.inq = magic.take k ++ b :: rest →
      exec .hdrRd s = .next (raise .badMagic (q rest (k + 1)))) ∧
    (∀ v rest, v ≠ 0x10 → s.inq = magic ++ v :: rest →
      exec .hdrRd s = .next (raise .unsupportedVersion { q rest 5 with regs.version := v })) ∧
    (∀ f rest, f ≠ 0x00 → f ≠ 0x01 → s.inq = magic ++ 0x10 :: f :: rest →
      exec .hdrRd s = .next (raise .malformedBlock { q rest 6 with regs.version := 0x10, regs.flags := f })) ∧
    (∀ f bad rest, (f = 0x00 ∨ f = 0x01) → IllFormedVarint bad → s.inq = magic ++ 0x10 :: f :: (bad ++ rest) →
      exec .hdrRd s = .next (raise .malformedBlock
        { q rest (6 + bad.length) with regs.version := 0x10, regs.flags := f })) ∧
    (s.eos = true →
      (∀ k, k ≤ 4 → s.inq = magic.take k → exec .hdrRd s = .next (raise .truncatedStream (q [] k))) ∧
      (s.inq = magic ++ [0x10] →
        exec .hdrRd s = .next (raise .truncatedStream { q [] 5 with regs.version := 0x10 })) ∧
      (∀ f cut, (f = 0x00 ∨ f = 0x01) → UnfinishedVarint cut → s.inq = magic ++ 0x10 :: f :: cut →
        exec .hdrRd s = .next (raise .truncatedStream
          { q [] (6 + cut.length) with regs.version := 0x10, regs.flags := f })))

/-- 44_parser R194: REC.RD on a block record that fits BUF, with the digest `d` in its checksum field when the
frame has checksums: accepted unless verification is on and `d` is wrong. The last clause, that BUF's bytes past the
payload are as before, is the model's choice and no rule of the spec (93 U4, log 17). -/
def Obligations.RecRdReadsRecord : Prop :=
  ∀ (s : State) (r : Rec) (d : Word) (rest : List Byte),
    let ckOn := s.regs.flags.getLsbD 0
    let bytes := recordHead (zextBit r.stored) r.origLen (BitVec.ofNat 32 r.payload.length)
      ++ (if ckOn then le32 d else []) ++ r.payload
    s.regs.phase = .pBody → recOk s.params.bufBytes r → s.inq = bytes ++ rest →
    (ckOn = true → s.regs.verify = true → d = digest r.payload) →
    ∃ t, exec .recRd s = .next t ∧
      t = { s with
        inq := rest
        regs.inCnt := s.regs.inCnt + BitVec.ofNat 64 bytes.length
        regs.recTag := zextBit r.stored
        regs.origLen := r.origLen
        regs.encLen := BitVec.ofNat 32 r.payload.length
        regs.recCk := if ckOn then d else s.regs.recCk
        regs.bufLen := BitVec.ofNat 32 r.payload.length
        regs.buf := t.regs.buf
        regs.blkDigest := if ckOn && s.regs.verify then d else s.regs.blkDigest
        regs.seq := s.regs.seq + 1
        regs.totOrig := s.regs.totOrig + r.origLen.setWidth 64
        regs.busy := false } ∧
      bufContent t = r.payload ∧ (∀ a, r.payload.length ≤ a → bufByte t a = bufByte s a)

/-- 44_parser R194, R195; 60_exceptions R225, R237: REC.RD on a record whose digest is wrong, with checksums and
verification on: ChecksumMismatch; the record registers are loaded, BUF holds the payload, BLK_DIGEST and REC_CK show
both digests, and the record does not count. The last clause, that BUF's bytes past the payload are as before, is the
model's choice and no rule of the spec (93 U4, log 17). -/
def Obligations.RecRdRejectsWrongDigest : Prop :=
  ∀ (s : State) (r : Rec) (d : Word) (rest : List Byte),
    let bytes := recordHead (zextBit r.stored) r.origLen (BitVec.ofNat 32 r.payload.length) ++ le32 d ++ r.payload
    s.regs.phase = .pBody → s.regs.flags.getLsbD 0 = true → s.regs.verify = true →
    recOk s.params.bufBytes r → s.inq = bytes ++ rest → d ≠ digest r.payload →
    ∃ t, exec .recRd s = .next t ∧
      t = raise .checksumMismatch { s with
        inq := rest
        regs.inCnt := s.regs.inCnt + BitVec.ofNat 64 bytes.length
        regs.recTag := zextBit r.stored
        regs.origLen := r.origLen
        regs.encLen := BitVec.ofNat 32 r.payload.length
        regs.recCk := d
        regs.bufLen := BitVec.ofNat 32 r.payload.length
        regs.buf := t.regs.buf
        regs.blkDigest := digest r.payload } ∧
      bufContent t = r.payload ∧ (∀ a, r.payload.length ≤ a → bufByte t a = bufByte s a)

/-- 44_parser R200; 41_buffer R141: one changed byte inside a record's payload: REC.RD raises ChecksumMismatch and
the payload never reaches OUT, since BUF.ST is ignored from then on. -/
def Obligations.CorruptPayloadIsCaught : Prop :=
  ∀ (s : State) (stored : Bool) (origLen : Word) (p q : List Byte) (b c : Byte) (rest : List Byte),
    let good : Rec := ⟨stored, origLen, p ++ b :: q⟩
    let bad := recordHead (zextBit stored) origLen (BitVec.ofNat 32 good.payload.length)
      ++ le32 (digest good.payload) ++ (p ++ c :: q)
    s.regs.phase = .pBody → s.regs.flags.getLsbD 0 = true → s.regs.verify = true →
    recOk s.params.bufBytes good → b ≠ c → s.inq = bad ++ rest →
    ∃ t, execAll [.recRd, .bufSt] s = .next t ∧ t.regs.phase = .failed ∧ t.regs.err = .checksumMismatch ∧
      t.out = s.out

/-- 44_parser R194: REC.RD on the end marker, without and with a trailer: it writes none of ORIG_LEN, ENC_LEN, BUF,
BUF_LEN, SEQ, TOT_ORIG, and what follows in IN stays. -/
def Obligations.RecRdReadsEndMarker : Prop :=
  ∀ (s : State) (d : Word) (rest : List Byte), s.regs.phase = .pBody →
    (s.inq = 0x02 :: rest → exec .recRd s = .next { s with
      inq := rest
      regs.inCnt := s.regs.inCnt + 1
      regs.recTag := 0x02
      regs.phase := .done
      regs.busy := false }) ∧
    (s.inq = 0x06 :: (le32 d ++ rest) → s.regs.flags.getLsbD 0 = true → exec .recRd s = .next { s with
      inq := rest
      regs.inCnt := s.regs.inCnt + 5
      regs.recTag := 0x06
      regs.recCk := d
      regs.phase := .pTrailer
      regs.busy := false })

/-- 30_encoding R107, R120; 60_exceptions R237: an illegal tag, and 0x06 in a frame without checksums, make REC.RD
raise MalformedBlock with the tag consumed and shown. -/
def Obligations.RecRdRejectsIllegalTag : Prop :=
  ∀ (s : State) (t : Byte) (rest : List Byte), s.regs.phase = .pBody → s.inq = t :: rest →
    (t ∉ [0x00, 0x01, 0x02, 0x06] ∨ (t = 0x06 ∧ s.regs.flags.getLsbD 0 = false)) →
    exec .recRd s = .next (raise .malformedBlock { s with
      inq := rest
      regs.inCnt := s.regs.inCnt + 1
      regs.recTag := t })

/-- 44_parser R194; 60_exceptions R224, R226, R237: an ill-formed length is malformed and loaded nowhere; a stored record
with unequal lengths is malformed; a record longer than BUF raises AllocationFailure after its checksum field; BUF,
BUF_LEN and BLK_DIGEST are as before. A payload cut short by EOS leaves BUF_LEN 0. -/
def Obligations.RecRdLengthFaults : Prop :=
  ∀ (s : State) (stored : Bool) (o e d : Word) (rest : List Byte), s.regs.phase = .pBody →
    let tag := zextBit stored
    let sum := if s.regs.flags.getLsbD 0 then le32 d else []
    let head := recordHead tag o e
    let p (k : Nat) : State := { s with
      inq := rest
      regs.inCnt := s.regs.inCnt + BitVec.ofNat 64 k
      regs.recTag := tag }
    let q (k : Nat) : State := { p k with regs.origLen := o, regs.encLen := e }
    let ck : Word := if s.regs.flags.getLsbD 0 then d else s.regs.recCk
    (∀ bad, IllFormedVarint bad → s.inq = tag :: bad ++ rest →
      exec .recRd s = .next (raise .malformedBlock (p (1 + bad.length)))) ∧
    (∀ bad, IllFormedVarint bad → s.inq = tag :: varint o ++ bad ++ rest →
      exec .recRd s = .next (raise .malformedBlock
        { p (1 + (varint o).length + bad.length) with regs.origLen := o })) ∧
    (stored = true → e ≠ o → s.inq = head ++ rest →
      exec .recRd s = .next (raise .malformedBlock (q head.length))) ∧
    ((stored = true → e = o) → ¬ e ≤ s.params.bufBytes → s.inq = head ++ sum ++ rest →
      exec .recRd s = .next (raise .allocationFailure { q (head ++ sum).length with regs.recCk := ck })) ∧
    ((stored = true → e = o) → e ≤ s.params.bufBytes → s.inq = head ++ sum ++ rest → rest.length < e.toNat →
      s.eos = true →
      ∃ t, exec .recRd s = .next t ∧ t = raise .truncatedStream { q (head ++ sum ++ rest).length with
        inq := []
        regs.recCk := ck
        regs.bufLen := 0
        regs.buf := t.regs.buf
        regs.bufEpoch := t.regs.bufEpoch })

/-- 44_parser R194; 60_exceptions R223, R237: where IN is exhausted at the tag, in a length, in the checksum field or in
the trailer, REC.RD raises TruncatedStream with IN emptied and counted and what was read whole loaded; REC_CK, SEQ,
TOT_ORIG, BUF, BUF_LEN and BLK_DIGEST are as before. -/
def Obligations.RecRdTruncatedBeforePayload : Prop :=
  ∀ (s : State) (stored : Bool) (o e : Word) (cut : List Byte), s.regs.phase = .pBody → s.eos = true →
    let tag := zextBit stored
    let p (k : Nat) : State := { s with
      inq := []
      regs.inCnt := s.regs.inCnt + BitVec.ofNat 64 k }
    (s.inq = [] → exec .recRd s = .next (raise .truncatedStream s)) ∧
    (UnfinishedVarint cut → s.inq = tag :: cut →
      exec .recRd s = .next (raise .truncatedStream { p (1 + cut.length) with regs.recTag := tag })) ∧
    (UnfinishedVarint cut → s.inq = tag :: varint o ++ cut →
      exec .recRd s = .next (raise .truncatedStream
        { p (1 + (varint o).length + cut.length) with regs.recTag := tag, regs.origLen := o })) ∧
    (s.regs.flags.getLsbD 0 = true → (stored = true → e = o) → cut.length < 4 → s.inq = recordHead tag o e ++ cut →
      exec .recRd s = .next (raise .truncatedStream
        { p ((recordHead tag o e).length + cut.length) with
          regs.recTag := tag, regs.origLen := o, regs.encLen := e })) ∧
    (s.regs.flags.getLsbD 0 = true → cut.length < 4 → s.inq = 0x06 :: cut →
      exec .recRd s = .next (raise .truncatedStream { p (1 + cut.length) with regs.recTag := 0x06 }))

/-- 44_parser R197: FRM.VFY compares when CTRL.VERIFY is 1; in the other phases it is refused, in FAILED ignored. -/
def Obligations.FrmVfyChecksTrailer : Prop :=
  decode 0x0000003A = .command .frmVfy ∧
  ∀ s : State,
    (s.regs.phase = .pTrailer → (s.regs.verify = false ∨ s.regs.frmAcc ^^^ 0xFFFFFFFF = s.regs.recCk) →
      exec .frmVfy s = .next { s with regs.phase := .done, regs.busy := false }) ∧
    (s.regs.phase = .pTrailer → s.regs.verify = true → s.regs.frmAcc ^^^ 0xFFFFFFFF ≠ s.regs.recCk →
      exec .frmVfy s = .next (raise .checksumMismatch s)) ∧
    ((s.regs.phase = .idle ∨ s.regs.phase = .sBody ∨ s.regs.phase = .pBody ∨ s.regs.phase = .done) →
      exec .frmVfy s = .next (raise .protocolViolation s)) ∧
    (s.regs.phase = .failed → exec .frmVfy s = .next s)

/-- 44_parser R192: no parser command reads BLKSZ after HDR.RD has loaded it: with another BLKSZ, REC.RD and FRM.VFY
end in the same state but for BLKSZ. -/
def Obligations.ParserIgnoresBlksz : Prop :=
  ∀ (i : Instr) (s t : State) (b : Word), (i = .recRd ∨ i = .frmVfy) → exec i s = .next t → t.regs.busy = false →
    exec i { s with regs.blksz := b } = .next { t with regs.blksz := b }

/-- 44_parser R195: a record that counts has been checked when the frame has checksums and verification is on; with
either off, no parser command raises ChecksumMismatch. -/
def Obligations.RecordsAreCheckedBeforeTheyCount : Prop :=
  ∀ s t : State, Inv s → s.regs.busy = false →
    (exec .recRd s = .next t → t.regs.seq ≠ s.regs.seq → s.regs.flags.getLsbD 0 = true → s.regs.verify = true →
      digest (bufContent t) = t.regs.recCk ∧ t.regs.blkDigest = t.regs.recCk) ∧
    ((s.regs.flags.getLsbD 0 = false ∨ s.regs.verify = false) → s.regs.err ≠ .checksumMismatch →
      ∀ i, i ∈ [.hdrRd, .recRd, .frmVfy] → exec i s = .next t → t.regs.err ≠ .checksumMismatch)

/-! ### Whole frames -/

/-- 43_serializer R170; 30_encoding R100: the host's operations that write a frame, from a CFU in IDLE or DONE with
the payloads in IN, put exactly that frame on OUT and end in DONE. -/
def Obligations.SerializerWritesFrame : Prop :=
  ∀ (s : State) (ckOn t : Bool) (blksz : Word) (recs : List Rec) (inRest : List Byte) (evRest : List Event),
    Inv s → s.regs.busy = false → (s.regs.phase = .idle ∨ s.regs.phase = .done) →
    blksz ≠ 0 → (t = true → ckOn = true) →
    (∀ r ∈ recs, recOk s.params.bufBytes r ∧ r.origLen ≤ blksz) →
    s.inq = payloads recs ++ inRest → s.events = writeFrameEvents s.params ckOn blksz recs t ++ evRest →
    ∃ u, core.run (writeFrameEvents s.params ckOn blksz recs t).length s = .next u ∧
      u.out = s.out ++ frameBytes s.params.magic ckOn blksz recs (payloadTrailer t recs) ∧
      u.regs.phase = .done ∧ u.inq = inRest ∧ u.events = evRest ∧
      u.regs.seq = BitVec.ofNat 32 recs.length ∧ u.regs.totOrig = totalOrig recs ∧
      u.regs.outCnt = BitVec.ofNat 64 (frameBytes s.params.magic ckOn blksz recs (payloadTrailer t recs)).length

/-- 44_parser R198, R190: a frame with its own MAGIC is read back field by field: HDR.RD and each REC.RD succeed, the
`i`-th shows the `i`-th record, the next reads the end marker, FRM.VFY succeeds where there is a trailer, and what
follows the frame stays in IN. Whatever EOS and CTRL.VERIFY are. -/
def Obligations.ParserReadsFrame : Prop :=
  ∀ (s : State) (ckOn t : Bool) (blksz : Word) (recs : List Rec) (inRest : List Byte),
    (s.regs.phase = .idle ∨ s.regs.phase = .done) → s.regs.busy = false → (t = true → ckOn = true) →
    (∀ r ∈ recs, recOk s.params.bufBytes r) →
    s.inq = frameBytes s.params.magic ckOn blksz recs (payloadTrailer t recs) ++ inRest →
    (∃ u, execAll (readFrame recs.length t) s = .next u ∧ u.regs.phase = .done ∧ u.inq = inRest ∧
      u.regs.flags = zextBit ckOn ∧ u.regs.blksz = blksz ∧ u.regs.seq = BitVec.ofNat 32 recs.length ∧
      u.regs.totOrig = totalOrig recs ∧ u.regs.frmAcc ^^^ 0xFFFFFFFF = digest (payloads recs)) ∧
    ∀ (k : Nat) (hk : k < recs.length), ∃ u, execAll (readRecords (k + 1)) s = .next u ∧
      u.regs.phase = .pBody ∧ u.regs.recTag = zextBit recs[k].stored ∧ u.regs.origLen = recs[k].origLen ∧
      u.regs.encLen.toNat = recs[k].payload.length ∧ bufContent u = recs[k].payload ∧
      u.regs.seq = BitVec.ofNat 32 (k + 1)

/-- 44_parser R199: a frame cut at any byte before its end, with EOS: the parse ends in FAILED with TruncatedStream,
and every byte of the cut frame has been consumed and counted. -/
def Obligations.TruncatedFrameIsCaught : Prop :=
  ∀ (s : State) (ckOn t : Bool) (blksz : Word) (recs : List Rec) (k : Nat),
    (s.regs.phase = .idle ∨ s.regs.phase = .done) → s.regs.busy = false → s.eos = true →
    (t = true → ckOn = true) → (∀ r ∈ recs, recOk s.params.bufBytes r) →
    k < (frameBytes s.params.magic ckOn blksz recs (payloadTrailer t recs)).length →
    s.inq = (frameBytes s.params.magic ckOn blksz recs (payloadTrailer t recs)).take k →
    ∃ u, execAll (readFrame recs.length t) s = .next u ∧ u.regs.phase = .failed ∧
      u.regs.err = .truncatedStream ∧ u.inq = [] ∧ u.regs.inCnt = BitVec.ofNat 64 k
end

