-- ==== Sys2Proof/Laws/State.lean ====
section
/-! SUPPORT. One lemma per field per update of State: what each named update leaves in each field. -/

namespace Sys2Proof.Machine

section setPhase

variable (v : Phase) (s : State)

@[simp] theorem setPhase_phase : (s.setPhase v).regs.phase = v := rfl
@[simp] theorem setPhase_err : (s.setPhase v).regs.err = s.regs.err := rfl
@[simp] theorem setPhase_ephase : (s.setPhase v).regs.ephase = s.regs.ephase := rfl
@[simp] theorem setPhase_busy : (s.setPhase v).regs.busy = s.regs.busy := rfl
@[simp] theorem setPhase_verify : (s.setPhase v).regs.verify = s.regs.verify := rfl
@[simp] theorem setPhase_flags : (s.setPhase v).regs.flags = s.regs.flags := rfl
@[simp] theorem setPhase_version : (s.setPhase v).regs.version = s.regs.version := rfl
@[simp] theorem setPhase_blksz : (s.setPhase v).regs.blksz = s.regs.blksz := rfl
@[simp] theorem setPhase_recTag : (s.setPhase v).regs.recTag = s.regs.recTag := rfl
@[simp] theorem setPhase_origLen : (s.setPhase v).regs.origLen = s.regs.origLen := rfl
@[simp] theorem setPhase_encLen : (s.setPhase v).regs.encLen = s.regs.encLen := rfl
@[simp] theorem setPhase_recCk : (s.setPhase v).regs.recCk = s.regs.recCk := rfl
@[simp] theorem setPhase_xlen : (s.setPhase v).regs.xlen = s.regs.xlen := rfl
@[simp] theorem setPhase_bufLen : (s.setPhase v).regs.bufLen = s.regs.bufLen := rfl
@[simp] theorem setPhase_blkDigest : (s.setPhase v).regs.blkDigest = s.regs.blkDigest := rfl
@[simp] theorem setPhase_frmAcc : (s.setPhase v).regs.frmAcc = s.regs.frmAcc := rfl
@[simp] theorem setPhase_seq : (s.setPhase v).regs.seq = s.regs.seq := rfl
@[simp] theorem setPhase_errSeq : (s.setPhase v).regs.errSeq = s.regs.errSeq := rfl
@[simp] theorem setPhase_totOrig : (s.setPhase v).regs.totOrig = s.regs.totOrig := rfl
@[simp] theorem setPhase_inCnt : (s.setPhase v).regs.inCnt = s.regs.inCnt := rfl
@[simp] theorem setPhase_outCnt : (s.setPhase v).regs.outCnt = s.regs.outCnt := rfl
@[simp] theorem setPhase_buf : (s.setPhase v).regs.buf = s.regs.buf := rfl
@[simp] theorem setPhase_bufEpoch : (s.setPhase v).regs.bufEpoch = s.regs.bufEpoch := rfl
@[simp] theorem setPhase_params : (s.setPhase v).params = s.params := rfl
@[simp] theorem setPhase_inq : (s.setPhase v).inq = s.inq := rfl
@[simp] theorem setPhase_eos : (s.setPhase v).eos = s.eos := rfl
@[simp] theorem setPhase_out : (s.setPhase v).out = s.out := rfl
@[simp] theorem setPhase_running : (s.setPhase v).running = s.running := rfl
@[simp] theorem setPhase_events : (s.setPhase v).events = s.events := rfl
@[simp] theorem setPhase_hostRead : (s.setPhase v).hostRead = s.hostRead := rfl
@[simp] theorem setPhase_busyReads : (s.setPhase v).busyReads = s.busyReads := rfl

end setPhase

section setBusy

variable (v : Bool) (s : State)

@[simp] theorem setBusy_phase : (s.setBusy v).regs.phase = s.regs.phase := rfl
@[simp] theorem setBusy_err : (s.setBusy v).regs.err = s.regs.err := rfl
@[simp] theorem setBusy_ephase : (s.setBusy v).regs.ephase = s.regs.ephase := rfl
@[simp] theorem setBusy_busy : (s.setBusy v).regs.busy = v := rfl
@[simp] theorem setBusy_verify : (s.setBusy v).regs.verify = s.regs.verify := rfl
@[simp] theorem setBusy_flags : (s.setBusy v).regs.flags = s.regs.flags := rfl
@[simp] theorem setBusy_version : (s.setBusy v).regs.version = s.regs.version := rfl
@[simp] theorem setBusy_blksz : (s.setBusy v).regs.blksz = s.regs.blksz := rfl
@[simp] theorem setBusy_recTag : (s.setBusy v).regs.recTag = s.regs.recTag := rfl
@[simp] theorem setBusy_origLen : (s.setBusy v).regs.origLen = s.regs.origLen := rfl
@[simp] theorem setBusy_encLen : (s.setBusy v).regs.encLen = s.regs.encLen := rfl
@[simp] theorem setBusy_recCk : (s.setBusy v).regs.recCk = s.regs.recCk := rfl
@[simp] theorem setBusy_xlen : (s.setBusy v).regs.xlen = s.regs.xlen := rfl
@[simp] theorem setBusy_bufLen : (s.setBusy v).regs.bufLen = s.regs.bufLen := rfl
@[simp] theorem setBusy_blkDigest : (s.setBusy v).regs.blkDigest = s.regs.blkDigest := rfl
@[simp] theorem setBusy_frmAcc : (s.setBusy v).regs.frmAcc = s.regs.frmAcc := rfl
@[simp] theorem setBusy_seq : (s.setBusy v).regs.seq = s.regs.seq := rfl
@[simp] theorem setBusy_errSeq : (s.setBusy v).regs.errSeq = s.regs.errSeq := rfl
@[simp] theorem setBusy_totOrig : (s.setBusy v).regs.totOrig = s.regs.totOrig := rfl
@[simp] theorem setBusy_inCnt : (s.setBusy v).regs.inCnt = s.regs.inCnt := rfl
@[simp] theorem setBusy_outCnt : (s.setBusy v).regs.outCnt = s.regs.outCnt := rfl
@[simp] theorem setBusy_buf : (s.setBusy v).regs.buf = s.regs.buf := rfl
@[simp] theorem setBusy_bufEpoch : (s.setBusy v).regs.bufEpoch = s.regs.bufEpoch := rfl
@[simp] theorem setBusy_params : (s.setBusy v).params = s.params := rfl
@[simp] theorem setBusy_inq : (s.setBusy v).inq = s.inq := rfl
@[simp] theorem setBusy_eos : (s.setBusy v).eos = s.eos := rfl
@[simp] theorem setBusy_out : (s.setBusy v).out = s.out := rfl
@[simp] theorem setBusy_running : (s.setBusy v).running = s.running := rfl
@[simp] theorem setBusy_events : (s.setBusy v).events = s.events := rfl
@[simp] theorem setBusy_hostRead : (s.setBusy v).hostRead = s.hostRead := rfl
@[simp] theorem setBusy_busyReads : (s.setBusy v).busyReads = s.busyReads := rfl

end setBusy

section setVerify

variable (v : Bool) (s : State)

@[simp] theorem setVerify_phase : (s.setVerify v).regs.phase = s.regs.phase := rfl
@[simp] theorem setVerify_err : (s.setVerify v).regs.err = s.regs.err := rfl
@[simp] theorem setVerify_ephase : (s.setVerify v).regs.ephase = s.regs.ephase := rfl
@[simp] theorem setVerify_busy : (s.setVerify v).regs.busy = s.regs.busy := rfl
@[simp] theorem setVerify_verify : (s.setVerify v).regs.verify = v := rfl
@[simp] theorem setVerify_flags : (s.setVerify v).regs.flags = s.regs.flags := rfl
@[simp] theorem setVerify_version : (s.setVerify v).regs.version = s.regs.version := rfl
@[simp] theorem setVerify_blksz : (s.setVerify v).regs.blksz = s.regs.blksz := rfl
@[simp] theorem setVerify_recTag : (s.setVerify v).regs.recTag = s.regs.recTag := rfl
@[simp] theorem setVerify_origLen : (s.setVerify v).regs.origLen = s.regs.origLen := rfl
@[simp] theorem setVerify_encLen : (s.setVerify v).regs.encLen = s.regs.encLen := rfl
@[simp] theorem setVerify_recCk : (s.setVerify v).regs.recCk = s.regs.recCk := rfl
@[simp] theorem setVerify_xlen : (s.setVerify v).regs.xlen = s.regs.xlen := rfl
@[simp] theorem setVerify_bufLen : (s.setVerify v).regs.bufLen = s.regs.bufLen := rfl
@[simp] theorem setVerify_blkDigest : (s.setVerify v).regs.blkDigest = s.regs.blkDigest := rfl
@[simp] theorem setVerify_frmAcc : (s.setVerify v).regs.frmAcc = s.regs.frmAcc := rfl
@[simp] theorem setVerify_seq : (s.setVerify v).regs.seq = s.regs.seq := rfl
@[simp] theorem setVerify_errSeq : (s.setVerify v).regs.errSeq = s.regs.errSeq := rfl
@[simp] theorem setVerify_totOrig : (s.setVerify v).regs.totOrig = s.regs.totOrig := rfl
@[simp] theorem setVerify_inCnt : (s.setVerify v).regs.inCnt = s.regs.inCnt := rfl
@[simp] theorem setVerify_outCnt : (s.setVerify v).regs.outCnt = s.regs.outCnt := rfl
@[simp] theorem setVerify_buf : (s.setVerify v).regs.buf = s.regs.buf := rfl
@[simp] theorem setVerify_bufEpoch : (s.setVerify v).regs.bufEpoch = s.regs.bufEpoch := rfl
@[simp] theorem setVerify_params : (s.setVerify v).params = s.params := rfl
@[simp] theorem setVerify_inq : (s.setVerify v).inq = s.inq := rfl
@[simp] theorem setVerify_eos : (s.setVerify v).eos = s.eos := rfl
@[simp] theorem setVerify_out : (s.setVerify v).out = s.out := rfl
@[simp] theorem setVerify_running : (s.setVerify v).running = s.running := rfl
@[simp] theorem setVerify_events : (s.setVerify v).events = s.events := rfl
@[simp] theorem setVerify_hostRead : (s.setVerify v).hostRead = s.hostRead := rfl
@[simp] theorem setVerify_busyReads : (s.setVerify v).busyReads = s.busyReads := rfl

end setVerify

section setFlags

variable (v : Byte) (s : State)

@[simp] theorem setFlags_phase : (s.setFlags v).regs.phase = s.regs.phase := rfl
@[simp] theorem setFlags_err : (s.setFlags v).regs.err = s.regs.err := rfl
@[simp] theorem setFlags_ephase : (s.setFlags v).regs.ephase = s.regs.ephase := rfl
@[simp] theorem setFlags_busy : (s.setFlags v).regs.busy = s.regs.busy := rfl
@[simp] theorem setFlags_verify : (s.setFlags v).regs.verify = s.regs.verify := rfl
@[simp] theorem setFlags_flags : (s.setFlags v).regs.flags = v := rfl
@[simp] theorem setFlags_version : (s.setFlags v).regs.version = s.regs.version := rfl
@[simp] theorem setFlags_blksz : (s.setFlags v).regs.blksz = s.regs.blksz := rfl
@[simp] theorem setFlags_recTag : (s.setFlags v).regs.recTag = s.regs.recTag := rfl
@[simp] theorem setFlags_origLen : (s.setFlags v).regs.origLen = s.regs.origLen := rfl
@[simp] theorem setFlags_encLen : (s.setFlags v).regs.encLen = s.regs.encLen := rfl
@[simp] theorem setFlags_recCk : (s.setFlags v).regs.recCk = s.regs.recCk := rfl
@[simp] theorem setFlags_xlen : (s.setFlags v).regs.xlen = s.regs.xlen := rfl
@[simp] theorem setFlags_bufLen : (s.setFlags v).regs.bufLen = s.regs.bufLen := rfl
@[simp] theorem setFlags_blkDigest : (s.setFlags v).regs.blkDigest = s.regs.blkDigest := rfl
@[simp] theorem setFlags_frmAcc : (s.setFlags v).regs.frmAcc = s.regs.frmAcc := rfl
@[simp] theorem setFlags_seq : (s.setFlags v).regs.seq = s.regs.seq := rfl
@[simp] theorem setFlags_errSeq : (s.setFlags v).regs.errSeq = s.regs.errSeq := rfl
@[simp] theorem setFlags_totOrig : (s.setFlags v).regs.totOrig = s.regs.totOrig := rfl
@[simp] theorem setFlags_inCnt : (s.setFlags v).regs.inCnt = s.regs.inCnt := rfl
@[simp] theorem setFlags_outCnt : (s.setFlags v).regs.outCnt = s.regs.outCnt := rfl
@[simp] theorem setFlags_buf : (s.setFlags v).regs.buf = s.regs.buf := rfl
@[simp] theorem setFlags_bufEpoch : (s.setFlags v).regs.bufEpoch = s.regs.bufEpoch := rfl
@[simp] theorem setFlags_params : (s.setFlags v).params = s.params := rfl
@[simp] theorem setFlags_inq : (s.setFlags v).inq = s.inq := rfl
@[simp] theorem setFlags_eos : (s.setFlags v).eos = s.eos := rfl
@[simp] theorem setFlags_out : (s.setFlags v).out = s.out := rfl
@[simp] theorem setFlags_running : (s.setFlags v).running = s.running := rfl
@[simp] theorem setFlags_events : (s.setFlags v).events = s.events := rfl
@[simp] theorem setFlags_hostRead : (s.setFlags v).hostRead = s.hostRead := rfl
@[simp] theorem setFlags_busyReads : (s.setFlags v).busyReads = s.busyReads := rfl

end setFlags

section setVersion

variable (v : Byte) (s : State)

@[simp] theorem setVersion_phase : (s.setVersion v).regs.phase = s.regs.phase := rfl
@[simp] theorem setVersion_err : (s.setVersion v).regs.err = s.regs.err := rfl
@[simp] theorem setVersion_ephase : (s.setVersion v).regs.ephase = s.regs.ephase := rfl
@[simp] theorem setVersion_busy : (s.setVersion v).regs.busy = s.regs.busy := rfl
@[simp] theorem setVersion_verify : (s.setVersion v).regs.verify = s.regs.verify := rfl
@[simp] theorem setVersion_flags : (s.setVersion v).regs.flags = s.regs.flags := rfl
@[simp] theorem setVersion_version : (s.setVersion v).regs.version = v := rfl
@[simp] theorem setVersion_blksz : (s.setVersion v).regs.blksz = s.regs.blksz := rfl
@[simp] theorem setVersion_recTag : (s.setVersion v).regs.recTag = s.regs.recTag := rfl
@[simp] theorem setVersion_origLen : (s.setVersion v).regs.origLen = s.regs.origLen := rfl
@[simp] theorem setVersion_encLen : (s.setVersion v).regs.encLen = s.regs.encLen := rfl
@[simp] theorem setVersion_recCk : (s.setVersion v).regs.recCk = s.regs.recCk := rfl
@[simp] theorem setVersion_xlen : (s.setVersion v).regs.xlen = s.regs.xlen := rfl
@[simp] theorem setVersion_bufLen : (s.setVersion v).regs.bufLen = s.regs.bufLen := rfl
@[simp] theorem setVersion_blkDigest : (s.setVersion v).regs.blkDigest = s.regs.blkDigest := rfl
@[simp] theorem setVersion_frmAcc : (s.setVersion v).regs.frmAcc = s.regs.frmAcc := rfl
@[simp] theorem setVersion_seq : (s.setVersion v).regs.seq = s.regs.seq := rfl
@[simp] theorem setVersion_errSeq : (s.setVersion v).regs.errSeq = s.regs.errSeq := rfl
@[simp] theorem setVersion_totOrig : (s.setVersion v).regs.totOrig = s.regs.totOrig := rfl
@[simp] theorem setVersion_inCnt : (s.setVersion v).regs.inCnt = s.regs.inCnt := rfl
@[simp] theorem setVersion_outCnt : (s.setVersion v).regs.outCnt = s.regs.outCnt := rfl
@[simp] theorem setVersion_buf : (s.setVersion v).regs.buf = s.regs.buf := rfl
@[simp] theorem setVersion_bufEpoch : (s.setVersion v).regs.bufEpoch = s.regs.bufEpoch := rfl
@[simp] theorem setVersion_params : (s.setVersion v).params = s.params := rfl
@[simp] theorem setVersion_inq : (s.setVersion v).inq = s.inq := rfl
@[simp] theorem setVersion_eos : (s.setVersion v).eos = s.eos := rfl
@[simp] theorem setVersion_out : (s.setVersion v).out = s.out := rfl
@[simp] theorem setVersion_running : (s.setVersion v).running = s.running := rfl
@[simp] theorem setVersion_events : (s.setVersion v).events = s.events := rfl
@[simp] theorem setVersion_hostRead : (s.setVersion v).hostRead = s.hostRead := rfl
@[simp] theorem setVersion_busyReads : (s.setVersion v).busyReads = s.busyReads := rfl

end setVersion

section setBlksz

variable (v : Word) (s : State)

@[simp] theorem setBlksz_phase : (s.setBlksz v).regs.phase = s.regs.phase := rfl
@[simp] theorem setBlksz_err : (s.setBlksz v).regs.err = s.regs.err := rfl
@[simp] theorem setBlksz_ephase : (s.setBlksz v).regs.ephase = s.regs.ephase := rfl
@[simp] theorem setBlksz_busy : (s.setBlksz v).regs.busy = s.regs.busy := rfl
@[simp] theorem setBlksz_verify : (s.setBlksz v).regs.verify = s.regs.verify := rfl
@[simp] theorem setBlksz_flags : (s.setBlksz v).regs.flags = s.regs.flags := rfl
@[simp] theorem setBlksz_version : (s.setBlksz v).regs.version = s.regs.version := rfl
@[simp] theorem setBlksz_blksz : (s.setBlksz v).regs.blksz = v := rfl
@[simp] theorem setBlksz_recTag : (s.setBlksz v).regs.recTag = s.regs.recTag := rfl
@[simp] theorem setBlksz_origLen : (s.setBlksz v).regs.origLen = s.regs.origLen := rfl
@[simp] theorem setBlksz_encLen : (s.setBlksz v).regs.encLen = s.regs.encLen := rfl
@[simp] theorem setBlksz_recCk : (s.setBlksz v).regs.recCk = s.regs.recCk := rfl
@[simp] theorem setBlksz_xlen : (s.setBlksz v).regs.xlen = s.regs.xlen := rfl
@[simp] theorem setBlksz_bufLen : (s.setBlksz v).regs.bufLen = s.regs.bufLen := rfl
@[simp] theorem setBlksz_blkDigest : (s.setBlksz v).regs.blkDigest = s.regs.blkDigest := rfl
@[simp] theorem setBlksz_frmAcc : (s.setBlksz v).regs.frmAcc = s.regs.frmAcc := rfl
@[simp] theorem setBlksz_seq : (s.setBlksz v).regs.seq = s.regs.seq := rfl
@[simp] theorem setBlksz_errSeq : (s.setBlksz v).regs.errSeq = s.regs.errSeq := rfl
@[simp] theorem setBlksz_totOrig : (s.setBlksz v).regs.totOrig = s.regs.totOrig := rfl
@[simp] theorem setBlksz_inCnt : (s.setBlksz v).regs.inCnt = s.regs.inCnt := rfl
@[simp] theorem setBlksz_outCnt : (s.setBlksz v).regs.outCnt = s.regs.outCnt := rfl
@[simp] theorem setBlksz_buf : (s.setBlksz v).regs.buf = s.regs.buf := rfl
@[simp] theorem setBlksz_bufEpoch : (s.setBlksz v).regs.bufEpoch = s.regs.bufEpoch := rfl
@[simp] theorem setBlksz_params : (s.setBlksz v).params = s.params := rfl
@[simp] theorem setBlksz_inq : (s.setBlksz v).inq = s.inq := rfl
@[simp] theorem setBlksz_eos : (s.setBlksz v).eos = s.eos := rfl
@[simp] theorem setBlksz_out : (s.setBlksz v).out = s.out := rfl
@[simp] theorem setBlksz_running : (s.setBlksz v).running = s.running := rfl
@[simp] theorem setBlksz_events : (s.setBlksz v).events = s.events := rfl
@[simp] theorem setBlksz_hostRead : (s.setBlksz v).hostRead = s.hostRead := rfl
@[simp] theorem setBlksz_busyReads : (s.setBlksz v).busyReads = s.busyReads := rfl

end setBlksz

section setRecTag

variable (v : Byte) (s : State)

@[simp] theorem setRecTag_phase : (s.setRecTag v).regs.phase = s.regs.phase := rfl
@[simp] theorem setRecTag_err : (s.setRecTag v).regs.err = s.regs.err := rfl
@[simp] theorem setRecTag_ephase : (s.setRecTag v).regs.ephase = s.regs.ephase := rfl
@[simp] theorem setRecTag_busy : (s.setRecTag v).regs.busy = s.regs.busy := rfl
@[simp] theorem setRecTag_verify : (s.setRecTag v).regs.verify = s.regs.verify := rfl
@[simp] theorem setRecTag_flags : (s.setRecTag v).regs.flags = s.regs.flags := rfl
@[simp] theorem setRecTag_version : (s.setRecTag v).regs.version = s.regs.version := rfl
@[simp] theorem setRecTag_blksz : (s.setRecTag v).regs.blksz = s.regs.blksz := rfl
@[simp] theorem setRecTag_recTag : (s.setRecTag v).regs.recTag = v := rfl
@[simp] theorem setRecTag_origLen : (s.setRecTag v).regs.origLen = s.regs.origLen := rfl
@[simp] theorem setRecTag_encLen : (s.setRecTag v).regs.encLen = s.regs.encLen := rfl
@[simp] theorem setRecTag_recCk : (s.setRecTag v).regs.recCk = s.regs.recCk := rfl
@[simp] theorem setRecTag_xlen : (s.setRecTag v).regs.xlen = s.regs.xlen := rfl
@[simp] theorem setRecTag_bufLen : (s.setRecTag v).regs.bufLen = s.regs.bufLen := rfl
@[simp] theorem setRecTag_blkDigest : (s.setRecTag v).regs.blkDigest = s.regs.blkDigest := rfl
@[simp] theorem setRecTag_frmAcc : (s.setRecTag v).regs.frmAcc = s.regs.frmAcc := rfl
@[simp] theorem setRecTag_seq : (s.setRecTag v).regs.seq = s.regs.seq := rfl
@[simp] theorem setRecTag_errSeq : (s.setRecTag v).regs.errSeq = s.regs.errSeq := rfl
@[simp] theorem setRecTag_totOrig : (s.setRecTag v).regs.totOrig = s.regs.totOrig := rfl
@[simp] theorem setRecTag_inCnt : (s.setRecTag v).regs.inCnt = s.regs.inCnt := rfl
@[simp] theorem setRecTag_outCnt : (s.setRecTag v).regs.outCnt = s.regs.outCnt := rfl
@[simp] theorem setRecTag_buf : (s.setRecTag v).regs.buf = s.regs.buf := rfl
@[simp] theorem setRecTag_bufEpoch : (s.setRecTag v).regs.bufEpoch = s.regs.bufEpoch := rfl
@[simp] theorem setRecTag_params : (s.setRecTag v).params = s.params := rfl
@[simp] theorem setRecTag_inq : (s.setRecTag v).inq = s.inq := rfl
@[simp] theorem setRecTag_eos : (s.setRecTag v).eos = s.eos := rfl
@[simp] theorem setRecTag_out : (s.setRecTag v).out = s.out := rfl
@[simp] theorem setRecTag_running : (s.setRecTag v).running = s.running := rfl
@[simp] theorem setRecTag_events : (s.setRecTag v).events = s.events := rfl
@[simp] theorem setRecTag_hostRead : (s.setRecTag v).hostRead = s.hostRead := rfl
@[simp] theorem setRecTag_busyReads : (s.setRecTag v).busyReads = s.busyReads := rfl

end setRecTag

section setOrigLen

variable (v : Word) (s : State)

@[simp] theorem setOrigLen_phase : (s.setOrigLen v).regs.phase = s.regs.phase := rfl
@[simp] theorem setOrigLen_err : (s.setOrigLen v).regs.err = s.regs.err := rfl
@[simp] theorem setOrigLen_ephase : (s.setOrigLen v).regs.ephase = s.regs.ephase := rfl
@[simp] theorem setOrigLen_busy : (s.setOrigLen v).regs.busy = s.regs.busy := rfl
@[simp] theorem setOrigLen_verify : (s.setOrigLen v).regs.verify = s.regs.verify := rfl
@[simp] theorem setOrigLen_flags : (s.setOrigLen v).regs.flags = s.regs.flags := rfl
@[simp] theorem setOrigLen_version : (s.setOrigLen v).regs.version = s.regs.version := rfl
@[simp] theorem setOrigLen_blksz : (s.setOrigLen v).regs.blksz = s.regs.blksz := rfl
@[simp] theorem setOrigLen_recTag : (s.setOrigLen v).regs.recTag = s.regs.recTag := rfl
@[simp] theorem setOrigLen_origLen : (s.setOrigLen v).regs.origLen = v := rfl
@[simp] theorem setOrigLen_encLen : (s.setOrigLen v).regs.encLen = s.regs.encLen := rfl
@[simp] theorem setOrigLen_recCk : (s.setOrigLen v).regs.recCk = s.regs.recCk := rfl
@[simp] theorem setOrigLen_xlen : (s.setOrigLen v).regs.xlen = s.regs.xlen := rfl
@[simp] theorem setOrigLen_bufLen : (s.setOrigLen v).regs.bufLen = s.regs.bufLen := rfl
@[simp] theorem setOrigLen_blkDigest : (s.setOrigLen v).regs.blkDigest = s.regs.blkDigest := rfl
@[simp] theorem setOrigLen_frmAcc : (s.setOrigLen v).regs.frmAcc = s.regs.frmAcc := rfl
@[simp] theorem setOrigLen_seq : (s.setOrigLen v).regs.seq = s.regs.seq := rfl
@[simp] theorem setOrigLen_errSeq : (s.setOrigLen v).regs.errSeq = s.regs.errSeq := rfl
@[simp] theorem setOrigLen_totOrig : (s.setOrigLen v).regs.totOrig = s.regs.totOrig := rfl
@[simp] theorem setOrigLen_inCnt : (s.setOrigLen v).regs.inCnt = s.regs.inCnt := rfl
@[simp] theorem setOrigLen_outCnt : (s.setOrigLen v).regs.outCnt = s.regs.outCnt := rfl
@[simp] theorem setOrigLen_buf : (s.setOrigLen v).regs.buf = s.regs.buf := rfl
@[simp] theorem setOrigLen_bufEpoch : (s.setOrigLen v).regs.bufEpoch = s.regs.bufEpoch := rfl
@[simp] theorem setOrigLen_params : (s.setOrigLen v).params = s.params := rfl
@[simp] theorem setOrigLen_inq : (s.setOrigLen v).inq = s.inq := rfl
@[simp] theorem setOrigLen_eos : (s.setOrigLen v).eos = s.eos := rfl
@[simp] theorem setOrigLen_out : (s.setOrigLen v).out = s.out := rfl
@[simp] theorem setOrigLen_running : (s.setOrigLen v).running = s.running := rfl
@[simp] theorem setOrigLen_events : (s.setOrigLen v).events = s.events := rfl
@[simp] theorem setOrigLen_hostRead : (s.setOrigLen v).hostRead = s.hostRead := rfl
@[simp] theorem setOrigLen_busyReads : (s.setOrigLen v).busyReads = s.busyReads := rfl

end setOrigLen

section setEncLen

variable (v : Word) (s : State)

@[simp] theorem setEncLen_phase : (s.setEncLen v).regs.phase = s.regs.phase := rfl
@[simp] theorem setEncLen_err : (s.setEncLen v).regs.err = s.regs.err := rfl
@[simp] theorem setEncLen_ephase : (s.setEncLen v).regs.ephase = s.regs.ephase := rfl
@[simp] theorem setEncLen_busy : (s.setEncLen v).regs.busy = s.regs.busy := rfl
@[simp] theorem setEncLen_verify : (s.setEncLen v).regs.verify = s.regs.verify := rfl
@[simp] theorem setEncLen_flags : (s.setEncLen v).regs.flags = s.regs.flags := rfl
@[simp] theorem setEncLen_version : (s.setEncLen v).regs.version = s.regs.version := rfl
@[simp] theorem setEncLen_blksz : (s.setEncLen v).regs.blksz = s.regs.blksz := rfl
@[simp] theorem setEncLen_recTag : (s.setEncLen v).regs.recTag = s.regs.recTag := rfl
@[simp] theorem setEncLen_origLen : (s.setEncLen v).regs.origLen = s.regs.origLen := rfl
@[simp] theorem setEncLen_encLen : (s.setEncLen v).regs.encLen = v := rfl
@[simp] theorem setEncLen_recCk : (s.setEncLen v).regs.recCk = s.regs.recCk := rfl
@[simp] theorem setEncLen_xlen : (s.setEncLen v).regs.xlen = s.regs.xlen := rfl
@[simp] theorem setEncLen_bufLen : (s.setEncLen v).regs.bufLen = s.regs.bufLen := rfl
@[simp] theorem setEncLen_blkDigest : (s.setEncLen v).regs.blkDigest = s.regs.blkDigest := rfl
@[simp] theorem setEncLen_frmAcc : (s.setEncLen v).regs.frmAcc = s.regs.frmAcc := rfl
@[simp] theorem setEncLen_seq : (s.setEncLen v).regs.seq = s.regs.seq := rfl
@[simp] theorem setEncLen_errSeq : (s.setEncLen v).regs.errSeq = s.regs.errSeq := rfl
@[simp] theorem setEncLen_totOrig : (s.setEncLen v).regs.totOrig = s.regs.totOrig := rfl
@[simp] theorem setEncLen_inCnt : (s.setEncLen v).regs.inCnt = s.regs.inCnt := rfl
@[simp] theorem setEncLen_outCnt : (s.setEncLen v).regs.outCnt = s.regs.outCnt := rfl
@[simp] theorem setEncLen_buf : (s.setEncLen v).regs.buf = s.regs.buf := rfl
@[simp] theorem setEncLen_bufEpoch : (s.setEncLen v).regs.bufEpoch = s.regs.bufEpoch := rfl
@[simp] theorem setEncLen_params : (s.setEncLen v).params = s.params := rfl
@[simp] theorem setEncLen_inq : (s.setEncLen v).inq = s.inq := rfl
@[simp] theorem setEncLen_eos : (s.setEncLen v).eos = s.eos := rfl
@[simp] theorem setEncLen_out : (s.setEncLen v).out = s.out := rfl
@[simp] theorem setEncLen_running : (s.setEncLen v).running = s.running := rfl
@[simp] theorem setEncLen_events : (s.setEncLen v).events = s.events := rfl
@[simp] theorem setEncLen_hostRead : (s.setEncLen v).hostRead = s.hostRead := rfl
@[simp] theorem setEncLen_busyReads : (s.setEncLen v).busyReads = s.busyReads := rfl

end setEncLen

section setRecCk

variable (v : Word) (s : State)

@[simp] theorem setRecCk_phase : (s.setRecCk v).regs.phase = s.regs.phase := rfl
@[simp] theorem setRecCk_err : (s.setRecCk v).regs.err = s.regs.err := rfl
@[simp] theorem setRecCk_ephase : (s.setRecCk v).regs.ephase = s.regs.ephase := rfl
@[simp] theorem setRecCk_busy : (s.setRecCk v).regs.busy = s.regs.busy := rfl
@[simp] theorem setRecCk_verify : (s.setRecCk v).regs.verify = s.regs.verify := rfl
@[simp] theorem setRecCk_flags : (s.setRecCk v).regs.flags = s.regs.flags := rfl
@[simp] theorem setRecCk_version : (s.setRecCk v).regs.version = s.regs.version := rfl
@[simp] theorem setRecCk_blksz : (s.setRecCk v).regs.blksz = s.regs.blksz := rfl
@[simp] theorem setRecCk_recTag : (s.setRecCk v).regs.recTag = s.regs.recTag := rfl
@[simp] theorem setRecCk_origLen : (s.setRecCk v).regs.origLen = s.regs.origLen := rfl
@[simp] theorem setRecCk_encLen : (s.setRecCk v).regs.encLen = s.regs.encLen := rfl
@[simp] theorem setRecCk_recCk : (s.setRecCk v).regs.recCk = v := rfl
@[simp] theorem setRecCk_xlen : (s.setRecCk v).regs.xlen = s.regs.xlen := rfl
@[simp] theorem setRecCk_bufLen : (s.setRecCk v).regs.bufLen = s.regs.bufLen := rfl
@[simp] theorem setRecCk_blkDigest : (s.setRecCk v).regs.blkDigest = s.regs.blkDigest := rfl
@[simp] theorem setRecCk_frmAcc : (s.setRecCk v).regs.frmAcc = s.regs.frmAcc := rfl
@[simp] theorem setRecCk_seq : (s.setRecCk v).regs.seq = s.regs.seq := rfl
@[simp] theorem setRecCk_errSeq : (s.setRecCk v).regs.errSeq = s.regs.errSeq := rfl
@[simp] theorem setRecCk_totOrig : (s.setRecCk v).regs.totOrig = s.regs.totOrig := rfl
@[simp] theorem setRecCk_inCnt : (s.setRecCk v).regs.inCnt = s.regs.inCnt := rfl
@[simp] theorem setRecCk_outCnt : (s.setRecCk v).regs.outCnt = s.regs.outCnt := rfl
@[simp] theorem setRecCk_buf : (s.setRecCk v).regs.buf = s.regs.buf := rfl
@[simp] theorem setRecCk_bufEpoch : (s.setRecCk v).regs.bufEpoch = s.regs.bufEpoch := rfl
@[simp] theorem setRecCk_params : (s.setRecCk v).params = s.params := rfl
@[simp] theorem setRecCk_inq : (s.setRecCk v).inq = s.inq := rfl
@[simp] theorem setRecCk_eos : (s.setRecCk v).eos = s.eos := rfl
@[simp] theorem setRecCk_out : (s.setRecCk v).out = s.out := rfl
@[simp] theorem setRecCk_running : (s.setRecCk v).running = s.running := rfl
@[simp] theorem setRecCk_events : (s.setRecCk v).events = s.events := rfl
@[simp] theorem setRecCk_hostRead : (s.setRecCk v).hostRead = s.hostRead := rfl
@[simp] theorem setRecCk_busyReads : (s.setRecCk v).busyReads = s.busyReads := rfl

end setRecCk

section setXlen

variable (v : Word) (s : State)

@[simp] theorem setXlen_phase : (s.setXlen v).regs.phase = s.regs.phase := rfl
@[simp] theorem setXlen_err : (s.setXlen v).regs.err = s.regs.err := rfl
@[simp] theorem setXlen_ephase : (s.setXlen v).regs.ephase = s.regs.ephase := rfl
@[simp] theorem setXlen_busy : (s.setXlen v).regs.busy = s.regs.busy := rfl
@[simp] theorem setXlen_verify : (s.setXlen v).regs.verify = s.regs.verify := rfl
@[simp] theorem setXlen_flags : (s.setXlen v).regs.flags = s.regs.flags := rfl
@[simp] theorem setXlen_version : (s.setXlen v).regs.version = s.regs.version := rfl
@[simp] theorem setXlen_blksz : (s.setXlen v).regs.blksz = s.regs.blksz := rfl
@[simp] theorem setXlen_recTag : (s.setXlen v).regs.recTag = s.regs.recTag := rfl
@[simp] theorem setXlen_origLen : (s.setXlen v).regs.origLen = s.regs.origLen := rfl
@[simp] theorem setXlen_encLen : (s.setXlen v).regs.encLen = s.regs.encLen := rfl
@[simp] theorem setXlen_recCk : (s.setXlen v).regs.recCk = s.regs.recCk := rfl
@[simp] theorem setXlen_xlen : (s.setXlen v).regs.xlen = v := rfl
@[simp] theorem setXlen_bufLen : (s.setXlen v).regs.bufLen = s.regs.bufLen := rfl
@[simp] theorem setXlen_blkDigest : (s.setXlen v).regs.blkDigest = s.regs.blkDigest := rfl
@[simp] theorem setXlen_frmAcc : (s.setXlen v).regs.frmAcc = s.regs.frmAcc := rfl
@[simp] theorem setXlen_seq : (s.setXlen v).regs.seq = s.regs.seq := rfl
@[simp] theorem setXlen_errSeq : (s.setXlen v).regs.errSeq = s.regs.errSeq := rfl
@[simp] theorem setXlen_totOrig : (s.setXlen v).regs.totOrig = s.regs.totOrig := rfl
@[simp] theorem setXlen_inCnt : (s.setXlen v).regs.inCnt = s.regs.inCnt := rfl
@[simp] theorem setXlen_outCnt : (s.setXlen v).regs.outCnt = s.regs.outCnt := rfl
@[simp] theorem setXlen_buf : (s.setXlen v).regs.buf = s.regs.buf := rfl
@[simp] theorem setXlen_bufEpoch : (s.setXlen v).regs.bufEpoch = s.regs.bufEpoch := rfl
@[simp] theorem setXlen_params : (s.setXlen v).params = s.params := rfl
@[simp] theorem setXlen_inq : (s.setXlen v).inq = s.inq := rfl
@[simp] theorem setXlen_eos : (s.setXlen v).eos = s.eos := rfl
@[simp] theorem setXlen_out : (s.setXlen v).out = s.out := rfl
@[simp] theorem setXlen_running : (s.setXlen v).running = s.running := rfl
@[simp] theorem setXlen_events : (s.setXlen v).events = s.events := rfl
@[simp] theorem setXlen_hostRead : (s.setXlen v).hostRead = s.hostRead := rfl
@[simp] theorem setXlen_busyReads : (s.setXlen v).busyReads = s.busyReads := rfl

end setXlen

section setBufLen

variable (v : Word) (s : State)

@[simp] theorem setBufLen_phase : (s.setBufLen v).regs.phase = s.regs.phase := rfl
@[simp] theorem setBufLen_err : (s.setBufLen v).regs.err = s.regs.err := rfl
@[simp] theorem setBufLen_ephase : (s.setBufLen v).regs.ephase = s.regs.ephase := rfl
@[simp] theorem setBufLen_busy : (s.setBufLen v).regs.busy = s.regs.busy := rfl
@[simp] theorem setBufLen_verify : (s.setBufLen v).regs.verify = s.regs.verify := rfl
@[simp] theorem setBufLen_flags : (s.setBufLen v).regs.flags = s.regs.flags := rfl
@[simp] theorem setBufLen_version : (s.setBufLen v).regs.version = s.regs.version := rfl
@[simp] theorem setBufLen_blksz : (s.setBufLen v).regs.blksz = s.regs.blksz := rfl
@[simp] theorem setBufLen_recTag : (s.setBufLen v).regs.recTag = s.regs.recTag := rfl
@[simp] theorem setBufLen_origLen : (s.setBufLen v).regs.origLen = s.regs.origLen := rfl
@[simp] theorem setBufLen_encLen : (s.setBufLen v).regs.encLen = s.regs.encLen := rfl
@[simp] theorem setBufLen_recCk : (s.setBufLen v).regs.recCk = s.regs.recCk := rfl
@[simp] theorem setBufLen_xlen : (s.setBufLen v).regs.xlen = s.regs.xlen := rfl
@[simp] theorem setBufLen_bufLen : (s.setBufLen v).regs.bufLen = v := rfl
@[simp] theorem setBufLen_blkDigest : (s.setBufLen v).regs.blkDigest = s.regs.blkDigest := rfl
@[simp] theorem setBufLen_frmAcc : (s.setBufLen v).regs.frmAcc = s.regs.frmAcc := rfl
@[simp] theorem setBufLen_seq : (s.setBufLen v).regs.seq = s.regs.seq := rfl
@[simp] theorem setBufLen_errSeq : (s.setBufLen v).regs.errSeq = s.regs.errSeq := rfl
@[simp] theorem setBufLen_totOrig : (s.setBufLen v).regs.totOrig = s.regs.totOrig := rfl
@[simp] theorem setBufLen_inCnt : (s.setBufLen v).regs.inCnt = s.regs.inCnt := rfl
@[simp] theorem setBufLen_outCnt : (s.setBufLen v).regs.outCnt = s.regs.outCnt := rfl
@[simp] theorem setBufLen_buf : (s.setBufLen v).regs.buf = s.regs.buf := rfl
@[simp] theorem setBufLen_bufEpoch : (s.setBufLen v).regs.bufEpoch = s.regs.bufEpoch := rfl
@[simp] theorem setBufLen_params : (s.setBufLen v).params = s.params := rfl
@[simp] theorem setBufLen_inq : (s.setBufLen v).inq = s.inq := rfl
@[simp] theorem setBufLen_eos : (s.setBufLen v).eos = s.eos := rfl
@[simp] theorem setBufLen_out : (s.setBufLen v).out = s.out := rfl
@[simp] theorem setBufLen_running : (s.setBufLen v).running = s.running := rfl
@[simp] theorem setBufLen_events : (s.setBufLen v).events = s.events := rfl
@[simp] theorem setBufLen_hostRead : (s.setBufLen v).hostRead = s.hostRead := rfl
@[simp] theorem setBufLen_busyReads : (s.setBufLen v).busyReads = s.busyReads := rfl

end setBufLen

section setBlkDigest

variable (v : Word) (s : State)

@[simp] theorem setBlkDigest_phase : (s.setBlkDigest v).regs.phase = s.regs.phase := rfl
@[simp] theorem setBlkDigest_err : (s.setBlkDigest v).regs.err = s.regs.err := rfl
@[simp] theorem setBlkDigest_ephase : (s.setBlkDigest v).regs.ephase = s.regs.ephase := rfl
@[simp] theorem setBlkDigest_busy : (s.setBlkDigest v).regs.busy = s.regs.busy := rfl
@[simp] theorem setBlkDigest_verify : (s.setBlkDigest v).regs.verify = s.regs.verify := rfl
@[simp] theorem setBlkDigest_flags : (s.setBlkDigest v).regs.flags = s.regs.flags := rfl
@[simp] theorem setBlkDigest_version : (s.setBlkDigest v).regs.version = s.regs.version := rfl
@[simp] theorem setBlkDigest_blksz : (s.setBlkDigest v).regs.blksz = s.regs.blksz := rfl
@[simp] theorem setBlkDigest_recTag : (s.setBlkDigest v).regs.recTag = s.regs.recTag := rfl
@[simp] theorem setBlkDigest_origLen : (s.setBlkDigest v).regs.origLen = s.regs.origLen := rfl
@[simp] theorem setBlkDigest_encLen : (s.setBlkDigest v).regs.encLen = s.regs.encLen := rfl
@[simp] theorem setBlkDigest_recCk : (s.setBlkDigest v).regs.recCk = s.regs.recCk := rfl
@[simp] theorem setBlkDigest_xlen : (s.setBlkDigest v).regs.xlen = s.regs.xlen := rfl
@[simp] theorem setBlkDigest_bufLen : (s.setBlkDigest v).regs.bufLen = s.regs.bufLen := rfl
@[simp] theorem setBlkDigest_blkDigest : (s.setBlkDigest v).regs.blkDigest = v := rfl
@[simp] theorem setBlkDigest_frmAcc : (s.setBlkDigest v).regs.frmAcc = s.regs.frmAcc := rfl
@[simp] theorem setBlkDigest_seq : (s.setBlkDigest v).regs.seq = s.regs.seq := rfl
@[simp] theorem setBlkDigest_errSeq : (s.setBlkDigest v).regs.errSeq = s.regs.errSeq := rfl
@[simp] theorem setBlkDigest_totOrig : (s.setBlkDigest v).regs.totOrig = s.regs.totOrig := rfl
@[simp] theorem setBlkDigest_inCnt : (s.setBlkDigest v).regs.inCnt = s.regs.inCnt := rfl
@[simp] theorem setBlkDigest_outCnt : (s.setBlkDigest v).regs.outCnt = s.regs.outCnt := rfl
@[simp] theorem setBlkDigest_buf : (s.setBlkDigest v).regs.buf = s.regs.buf := rfl
@[simp] theorem setBlkDigest_bufEpoch : (s.setBlkDigest v).regs.bufEpoch = s.regs.bufEpoch := rfl
@[simp] theorem setBlkDigest_params : (s.setBlkDigest v).params = s.params := rfl
@[simp] theorem setBlkDigest_inq : (s.setBlkDigest v).inq = s.inq := rfl
@[simp] theorem setBlkDigest_eos : (s.setBlkDigest v).eos = s.eos := rfl
@[simp] theorem setBlkDigest_out : (s.setBlkDigest v).out = s.out := rfl
@[simp] theorem setBlkDigest_running : (s.setBlkDigest v).running = s.running := rfl
@[simp] theorem setBlkDigest_events : (s.setBlkDigest v).events = s.events := rfl
@[simp] theorem setBlkDigest_hostRead : (s.setBlkDigest v).hostRead = s.hostRead := rfl
@[simp] theorem setBlkDigest_busyReads : (s.setBlkDigest v).busyReads = s.busyReads := rfl

end setBlkDigest

section setFrmAcc

variable (v : Word) (s : State)

@[simp] theorem setFrmAcc_phase : (s.setFrmAcc v).regs.phase = s.regs.phase := rfl
@[simp] theorem setFrmAcc_err : (s.setFrmAcc v).regs.err = s.regs.err := rfl
@[simp] theorem setFrmAcc_ephase : (s.setFrmAcc v).regs.ephase = s.regs.ephase := rfl
@[simp] theorem setFrmAcc_busy : (s.setFrmAcc v).regs.busy = s.regs.busy := rfl
@[simp] theorem setFrmAcc_verify : (s.setFrmAcc v).regs.verify = s.regs.verify := rfl
@[simp] theorem setFrmAcc_flags : (s.setFrmAcc v).regs.flags = s.regs.flags := rfl
@[simp] theorem setFrmAcc_version : (s.setFrmAcc v).regs.version = s.regs.version := rfl
@[simp] theorem setFrmAcc_blksz : (s.setFrmAcc v).regs.blksz = s.regs.blksz := rfl
@[simp] theorem setFrmAcc_recTag : (s.setFrmAcc v).regs.recTag = s.regs.recTag := rfl
@[simp] theorem setFrmAcc_origLen : (s.setFrmAcc v).regs.origLen = s.regs.origLen := rfl
@[simp] theorem setFrmAcc_encLen : (s.setFrmAcc v).regs.encLen = s.regs.encLen := rfl
@[simp] theorem setFrmAcc_recCk : (s.setFrmAcc v).regs.recCk = s.regs.recCk := rfl
@[simp] theorem setFrmAcc_xlen : (s.setFrmAcc v).regs.xlen = s.regs.xlen := rfl
@[simp] theorem setFrmAcc_bufLen : (s.setFrmAcc v).regs.bufLen = s.regs.bufLen := rfl
@[simp] theorem setFrmAcc_blkDigest : (s.setFrmAcc v).regs.blkDigest = s.regs.blkDigest := rfl
@[simp] theorem setFrmAcc_frmAcc : (s.setFrmAcc v).regs.frmAcc = v := rfl
@[simp] theorem setFrmAcc_seq : (s.setFrmAcc v).regs.seq = s.regs.seq := rfl
@[simp] theorem setFrmAcc_errSeq : (s.setFrmAcc v).regs.errSeq = s.regs.errSeq := rfl
@[simp] theorem setFrmAcc_totOrig : (s.setFrmAcc v).regs.totOrig = s.regs.totOrig := rfl
@[simp] theorem setFrmAcc_inCnt : (s.setFrmAcc v).regs.inCnt = s.regs.inCnt := rfl
@[simp] theorem setFrmAcc_outCnt : (s.setFrmAcc v).regs.outCnt = s.regs.outCnt := rfl
@[simp] theorem setFrmAcc_buf : (s.setFrmAcc v).regs.buf = s.regs.buf := rfl
@[simp] theorem setFrmAcc_bufEpoch : (s.setFrmAcc v).regs.bufEpoch = s.regs.bufEpoch := rfl
@[simp] theorem setFrmAcc_params : (s.setFrmAcc v).params = s.params := rfl
@[simp] theorem setFrmAcc_inq : (s.setFrmAcc v).inq = s.inq := rfl
@[simp] theorem setFrmAcc_eos : (s.setFrmAcc v).eos = s.eos := rfl
@[simp] theorem setFrmAcc_out : (s.setFrmAcc v).out = s.out := rfl
@[simp] theorem setFrmAcc_running : (s.setFrmAcc v).running = s.running := rfl
@[simp] theorem setFrmAcc_events : (s.setFrmAcc v).events = s.events := rfl
@[simp] theorem setFrmAcc_hostRead : (s.setFrmAcc v).hostRead = s.hostRead := rfl
@[simp] theorem setFrmAcc_busyReads : (s.setFrmAcc v).busyReads = s.busyReads := rfl

end setFrmAcc

section raise

variable (e : ErrCode) (s : State)

@[simp] theorem raise_phase : (raise e s).regs.phase = .failed := rfl
@[simp] theorem raise_err : (raise e s).regs.err = e := rfl
@[simp] theorem raise_ephase : (raise e s).regs.ephase = s.regs.phase := rfl
@[simp] theorem raise_busy : (raise e s).regs.busy = false := rfl
@[simp] theorem raise_verify : (raise e s).regs.verify = s.regs.verify := rfl
@[simp] theorem raise_flags : (raise e s).regs.flags = s.regs.flags := rfl
@[simp] theorem raise_version : (raise e s).regs.version = s.regs.version := rfl
@[simp] theorem raise_blksz : (raise e s).regs.blksz = s.regs.blksz := rfl
@[simp] theorem raise_recTag : (raise e s).regs.recTag = s.regs.recTag := rfl
@[simp] theorem raise_origLen : (raise e s).regs.origLen = s.regs.origLen := rfl
@[simp] theorem raise_encLen : (raise e s).regs.encLen = s.regs.encLen := rfl
@[simp] theorem raise_recCk : (raise e s).regs.recCk = s.regs.recCk := rfl
@[simp] theorem raise_xlen : (raise e s).regs.xlen = s.regs.xlen := rfl
@[simp] theorem raise_bufLen : (raise e s).regs.bufLen = s.regs.bufLen := rfl
@[simp] theorem raise_blkDigest : (raise e s).regs.blkDigest = s.regs.blkDigest := rfl
@[simp] theorem raise_frmAcc : (raise e s).regs.frmAcc = s.regs.frmAcc := rfl
@[simp] theorem raise_seq : (raise e s).regs.seq = s.regs.seq := rfl
@[simp] theorem raise_errSeq : (raise e s).regs.errSeq = s.regs.seq := rfl
@[simp] theorem raise_totOrig : (raise e s).regs.totOrig = s.regs.totOrig := rfl
@[simp] theorem raise_inCnt : (raise e s).regs.inCnt = s.regs.inCnt := rfl
@[simp] theorem raise_outCnt : (raise e s).regs.outCnt = s.regs.outCnt := rfl
@[simp] theorem raise_buf : (raise e s).regs.buf = s.regs.buf := rfl
@[simp] theorem raise_bufEpoch : (raise e s).regs.bufEpoch = s.regs.bufEpoch := rfl
@[simp] theorem raise_params : (raise e s).params = s.params := rfl
@[simp] theorem raise_inq : (raise e s).inq = s.inq := rfl
@[simp] theorem raise_eos : (raise e s).eos = s.eos := rfl
@[simp] theorem raise_out : (raise e s).out = s.out := rfl
@[simp] theorem raise_running : (raise e s).running = s.running := rfl
@[simp] theorem raise_events : (raise e s).events = s.events := rfl
@[simp] theorem raise_hostRead : (raise e s).hostRead = s.hostRead := rfl
@[simp] theorem raise_busyReads : (raise e s).busyReads = s.busyReads := rfl

end raise

section memWrite

variable (a : Nat) (bs : List Byte) (s : State)

@[simp] theorem memWrite_phase : (memWrite a bs s).regs.phase = s.regs.phase := rfl
@[simp] theorem memWrite_err : (memWrite a bs s).regs.err = s.regs.err := rfl
@[simp] theorem memWrite_ephase : (memWrite a bs s).regs.ephase = s.regs.ephase := rfl
@[simp] theorem memWrite_busy : (memWrite a bs s).regs.busy = s.regs.busy := rfl
@[simp] theorem memWrite_verify : (memWrite a bs s).regs.verify = s.regs.verify := rfl
@[simp] theorem memWrite_flags : (memWrite a bs s).regs.flags = s.regs.flags := rfl
@[simp] theorem memWrite_version : (memWrite a bs s).regs.version = s.regs.version := rfl
@[simp] theorem memWrite_blksz : (memWrite a bs s).regs.blksz = s.regs.blksz := rfl
@[simp] theorem memWrite_recTag : (memWrite a bs s).regs.recTag = s.regs.recTag := rfl
@[simp] theorem memWrite_origLen : (memWrite a bs s).regs.origLen = s.regs.origLen := rfl
@[simp] theorem memWrite_encLen : (memWrite a bs s).regs.encLen = s.regs.encLen := rfl
@[simp] theorem memWrite_recCk : (memWrite a bs s).regs.recCk = s.regs.recCk := rfl
@[simp] theorem memWrite_xlen : (memWrite a bs s).regs.xlen = s.regs.xlen := rfl
@[simp] theorem memWrite_bufLen : (memWrite a bs s).regs.bufLen = s.regs.bufLen := rfl
@[simp] theorem memWrite_blkDigest : (memWrite a bs s).regs.blkDigest = s.regs.blkDigest := rfl
@[simp] theorem memWrite_frmAcc : (memWrite a bs s).regs.frmAcc = s.regs.frmAcc := rfl
@[simp] theorem memWrite_seq : (memWrite a bs s).regs.seq = s.regs.seq := rfl
@[simp] theorem memWrite_errSeq : (memWrite a bs s).regs.errSeq = s.regs.errSeq := rfl
@[simp] theorem memWrite_totOrig : (memWrite a bs s).regs.totOrig = s.regs.totOrig := rfl
@[simp] theorem memWrite_inCnt : (memWrite a bs s).regs.inCnt = s.regs.inCnt := rfl
@[simp] theorem memWrite_outCnt : (memWrite a bs s).regs.outCnt = s.regs.outCnt := rfl
@[simp] theorem memWrite_buf : (memWrite a bs s).regs.buf = Memory.write s.regs.buf a bs := rfl
@[simp] theorem memWrite_bufEpoch : (memWrite a bs s).regs.bufEpoch = s.regs.bufEpoch := rfl
@[simp] theorem memWrite_params : (memWrite a bs s).params = s.params := rfl
@[simp] theorem memWrite_inq : (memWrite a bs s).inq = s.inq := rfl
@[simp] theorem memWrite_eos : (memWrite a bs s).eos = s.eos := rfl
@[simp] theorem memWrite_out : (memWrite a bs s).out = s.out := rfl
@[simp] theorem memWrite_running : (memWrite a bs s).running = s.running := rfl
@[simp] theorem memWrite_events : (memWrite a bs s).events = s.events := rfl
@[simp] theorem memWrite_hostRead : (memWrite a bs s).hostRead = s.hostRead := rfl
@[simp] theorem memWrite_busyReads : (memWrite a bs s).busyReads = s.busyReads := rfl

end memWrite

section forgetBuf

variable (s : State)

@[simp] theorem forgetBuf_phase : (forgetBuf s).regs.phase = s.regs.phase := rfl
@[simp] theorem forgetBuf_err : (forgetBuf s).regs.err = s.regs.err := rfl
@[simp] theorem forgetBuf_ephase : (forgetBuf s).regs.ephase = s.regs.ephase := rfl
@[simp] theorem forgetBuf_busy : (forgetBuf s).regs.busy = s.regs.busy := rfl
@[simp] theorem forgetBuf_verify : (forgetBuf s).regs.verify = s.regs.verify := rfl
@[simp] theorem forgetBuf_flags : (forgetBuf s).regs.flags = s.regs.flags := rfl
@[simp] theorem forgetBuf_version : (forgetBuf s).regs.version = s.regs.version := rfl
@[simp] theorem forgetBuf_blksz : (forgetBuf s).regs.blksz = s.regs.blksz := rfl
@[simp] theorem forgetBuf_recTag : (forgetBuf s).regs.recTag = s.regs.recTag := rfl
@[simp] theorem forgetBuf_origLen : (forgetBuf s).regs.origLen = s.regs.origLen := rfl
@[simp] theorem forgetBuf_encLen : (forgetBuf s).regs.encLen = s.regs.encLen := rfl
@[simp] theorem forgetBuf_recCk : (forgetBuf s).regs.recCk = s.regs.recCk := rfl
@[simp] theorem forgetBuf_xlen : (forgetBuf s).regs.xlen = s.regs.xlen := rfl
@[simp] theorem forgetBuf_bufLen : (forgetBuf s).regs.bufLen = s.regs.bufLen := rfl
@[simp] theorem forgetBuf_blkDigest : (forgetBuf s).regs.blkDigest = s.regs.blkDigest := rfl
@[simp] theorem forgetBuf_frmAcc : (forgetBuf s).regs.frmAcc = s.regs.frmAcc := rfl
@[simp] theorem forgetBuf_seq : (forgetBuf s).regs.seq = s.regs.seq := rfl
@[simp] theorem forgetBuf_errSeq : (forgetBuf s).regs.errSeq = s.regs.errSeq := rfl
@[simp] theorem forgetBuf_totOrig : (forgetBuf s).regs.totOrig = s.regs.totOrig := rfl
@[simp] theorem forgetBuf_inCnt : (forgetBuf s).regs.inCnt = s.regs.inCnt := rfl
@[simp] theorem forgetBuf_outCnt : (forgetBuf s).regs.outCnt = s.regs.outCnt := rfl
@[simp] theorem forgetBuf_buf : (forgetBuf s).regs.buf = [] := rfl
@[simp] theorem forgetBuf_bufEpoch : (forgetBuf s).regs.bufEpoch = s.regs.bufEpoch + 1 := rfl
@[simp] theorem forgetBuf_params : (forgetBuf s).params = s.params := rfl
@[simp] theorem forgetBuf_inq : (forgetBuf s).inq = s.inq := rfl
@[simp] theorem forgetBuf_eos : (forgetBuf s).eos = s.eos := rfl
@[simp] theorem forgetBuf_out : (forgetBuf s).out = s.out := rfl
@[simp] theorem forgetBuf_running : (forgetBuf s).running = s.running := rfl
@[simp] theorem forgetBuf_events : (forgetBuf s).events = s.events := rfl
@[simp] theorem forgetBuf_hostRead : (forgetBuf s).hostRead = s.hostRead := rfl
@[simp] theorem forgetBuf_busyReads : (forgetBuf s).busyReads = s.busyReads := rfl

end forgetBuf

section outPut

variable (bs : List Byte) (s : State)

@[simp] theorem outPut_phase : (outPut bs s).regs.phase = s.regs.phase := rfl
@[simp] theorem outPut_err : (outPut bs s).regs.err = s.regs.err := rfl
@[simp] theorem outPut_ephase : (outPut bs s).regs.ephase = s.regs.ephase := rfl
@[simp] theorem outPut_busy : (outPut bs s).regs.busy = s.regs.busy := rfl
@[simp] theorem outPut_verify : (outPut bs s).regs.verify = s.regs.verify := rfl
@[simp] theorem outPut_flags : (outPut bs s).regs.flags = s.regs.flags := rfl
@[simp] theorem outPut_version : (outPut bs s).regs.version = s.regs.version := rfl
@[simp] theorem outPut_blksz : (outPut bs s).regs.blksz = s.regs.blksz := rfl
@[simp] theorem outPut_recTag : (outPut bs s).regs.recTag = s.regs.recTag := rfl
@[simp] theorem outPut_origLen : (outPut bs s).regs.origLen = s.regs.origLen := rfl
@[simp] theorem outPut_encLen : (outPut bs s).regs.encLen = s.regs.encLen := rfl
@[simp] theorem outPut_recCk : (outPut bs s).regs.recCk = s.regs.recCk := rfl
@[simp] theorem outPut_xlen : (outPut bs s).regs.xlen = s.regs.xlen := rfl
@[simp] theorem outPut_bufLen : (outPut bs s).regs.bufLen = s.regs.bufLen := rfl
@[simp] theorem outPut_blkDigest : (outPut bs s).regs.blkDigest = s.regs.blkDigest := rfl
@[simp] theorem outPut_frmAcc : (outPut bs s).regs.frmAcc = s.regs.frmAcc := rfl
@[simp] theorem outPut_seq : (outPut bs s).regs.seq = s.regs.seq := rfl
@[simp] theorem outPut_errSeq : (outPut bs s).regs.errSeq = s.regs.errSeq := rfl
@[simp] theorem outPut_totOrig : (outPut bs s).regs.totOrig = s.regs.totOrig := rfl
@[simp] theorem outPut_inCnt : (outPut bs s).regs.inCnt = s.regs.inCnt := rfl
@[simp] theorem outPut_outCnt : (outPut bs s).regs.outCnt = s.regs.outCnt + BitVec.ofNat 64 bs.length := rfl
@[simp] theorem outPut_buf : (outPut bs s).regs.buf = s.regs.buf := rfl
@[simp] theorem outPut_bufEpoch : (outPut bs s).regs.bufEpoch = s.regs.bufEpoch := rfl
@[simp] theorem outPut_params : (outPut bs s).params = s.params := rfl
@[simp] theorem outPut_inq : (outPut bs s).inq = s.inq := rfl
@[simp] theorem outPut_eos : (outPut bs s).eos = s.eos := rfl
@[simp] theorem outPut_out : (outPut bs s).out = s.out ++ bs := rfl
@[simp] theorem outPut_running : (outPut bs s).running = s.running := rfl
@[simp] theorem outPut_events : (outPut bs s).events = s.events := rfl
@[simp] theorem outPut_hostRead : (outPut bs s).hostRead = s.hostRead := rfl
@[simp] theorem outPut_busyReads : (outPut bs s).busyReads = s.busyReads := rfl

end outPut

section beginFrame

variable (s : State)

@[simp] theorem beginFrame_phase : (beginFrame s).regs.phase = s.regs.phase := rfl
@[simp] theorem beginFrame_err : (beginFrame s).regs.err = s.regs.err := rfl
@[simp] theorem beginFrame_ephase : (beginFrame s).regs.ephase = s.regs.ephase := rfl
@[simp] theorem beginFrame_busy : (beginFrame s).regs.busy = s.regs.busy := rfl
@[simp] theorem beginFrame_verify : (beginFrame s).regs.verify = s.regs.verify := rfl
@[simp] theorem beginFrame_flags : (beginFrame s).regs.flags = s.regs.flags := rfl
@[simp] theorem beginFrame_version : (beginFrame s).regs.version = s.regs.version := rfl
@[simp] theorem beginFrame_blksz : (beginFrame s).regs.blksz = s.regs.blksz := rfl
@[simp] theorem beginFrame_recTag : (beginFrame s).regs.recTag = s.regs.recTag := rfl
@[simp] theorem beginFrame_origLen : (beginFrame s).regs.origLen = s.regs.origLen := rfl
@[simp] theorem beginFrame_encLen : (beginFrame s).regs.encLen = s.regs.encLen := rfl
@[simp] theorem beginFrame_recCk : (beginFrame s).regs.recCk = s.regs.recCk := rfl
@[simp] theorem beginFrame_xlen : (beginFrame s).regs.xlen = s.regs.xlen := rfl
@[simp] theorem beginFrame_bufLen : (beginFrame s).regs.bufLen = s.regs.bufLen := rfl
@[simp] theorem beginFrame_blkDigest : (beginFrame s).regs.blkDigest = s.regs.blkDigest := rfl
@[simp] theorem beginFrame_frmAcc : (beginFrame s).regs.frmAcc = Config.crcOnes := rfl
@[simp] theorem beginFrame_seq : (beginFrame s).regs.seq = 0 := rfl
@[simp] theorem beginFrame_errSeq : (beginFrame s).regs.errSeq = s.regs.errSeq := rfl
@[simp] theorem beginFrame_totOrig : (beginFrame s).regs.totOrig = 0 := rfl
@[simp] theorem beginFrame_inCnt : (beginFrame s).regs.inCnt = 0 := rfl
@[simp] theorem beginFrame_outCnt : (beginFrame s).regs.outCnt = 0 := rfl
@[simp] theorem beginFrame_buf : (beginFrame s).regs.buf = s.regs.buf := rfl
@[simp] theorem beginFrame_bufEpoch : (beginFrame s).regs.bufEpoch = s.regs.bufEpoch := rfl
@[simp] theorem beginFrame_params : (beginFrame s).params = s.params := rfl
@[simp] theorem beginFrame_inq : (beginFrame s).inq = s.inq := rfl
@[simp] theorem beginFrame_eos : (beginFrame s).eos = s.eos := rfl
@[simp] theorem beginFrame_out : (beginFrame s).out = s.out := rfl
@[simp] theorem beginFrame_running : (beginFrame s).running = s.running := rfl
@[simp] theorem beginFrame_events : (beginFrame s).events = s.events := rfl
@[simp] theorem beginFrame_hostRead : (beginFrame s).hostRead = s.hostRead := rfl
@[simp] theorem beginFrame_busyReads : (beginFrame s).busyReads = s.busyReads := rfl

end beginFrame

section countRecord

variable (s : State)

@[simp] theorem countRecord_phase : (countRecord s).regs.phase = s.regs.phase := rfl
@[simp] theorem countRecord_err : (countRecord s).regs.err = s.regs.err := rfl
@[simp] theorem countRecord_ephase : (countRecord s).regs.ephase = s.regs.ephase := rfl
@[simp] theorem countRecord_busy : (countRecord s).regs.busy = s.regs.busy := rfl
@[simp] theorem countRecord_verify : (countRecord s).regs.verify = s.regs.verify := rfl
@[simp] theorem countRecord_flags : (countRecord s).regs.flags = s.regs.flags := rfl
@[simp] theorem countRecord_version : (countRecord s).regs.version = s.regs.version := rfl
@[simp] theorem countRecord_blksz : (countRecord s).regs.blksz = s.regs.blksz := rfl
@[simp] theorem countRecord_recTag : (countRecord s).regs.recTag = s.regs.recTag := rfl
@[simp] theorem countRecord_origLen : (countRecord s).regs.origLen = s.regs.origLen := rfl
@[simp] theorem countRecord_encLen : (countRecord s).regs.encLen = s.regs.encLen := rfl
@[simp] theorem countRecord_recCk : (countRecord s).regs.recCk = s.regs.recCk := rfl
@[simp] theorem countRecord_xlen : (countRecord s).regs.xlen = s.regs.xlen := rfl
@[simp] theorem countRecord_bufLen : (countRecord s).regs.bufLen = s.regs.bufLen := rfl
@[simp] theorem countRecord_blkDigest : (countRecord s).regs.blkDigest = s.regs.blkDigest := rfl
@[simp] theorem countRecord_frmAcc : (countRecord s).regs.frmAcc = s.regs.frmAcc := rfl
@[simp] theorem countRecord_seq : (countRecord s).regs.seq = s.regs.seq + 1 := rfl
@[simp] theorem countRecord_errSeq : (countRecord s).regs.errSeq = s.regs.errSeq := rfl
@[simp] theorem countRecord_totOrig : (countRecord s).regs.totOrig = s.regs.totOrig + s.regs.origLen.setWidth 64 := rfl
@[simp] theorem countRecord_inCnt : (countRecord s).regs.inCnt = s.regs.inCnt := rfl
@[simp] theorem countRecord_outCnt : (countRecord s).regs.outCnt = s.regs.outCnt := rfl
@[simp] theorem countRecord_buf : (countRecord s).regs.buf = s.regs.buf := rfl
@[simp] theorem countRecord_bufEpoch : (countRecord s).regs.bufEpoch = s.regs.bufEpoch := rfl
@[simp] theorem countRecord_params : (countRecord s).params = s.params := rfl
@[simp] theorem countRecord_inq : (countRecord s).inq = s.inq := rfl
@[simp] theorem countRecord_eos : (countRecord s).eos = s.eos := rfl
@[simp] theorem countRecord_out : (countRecord s).out = s.out := rfl
@[simp] theorem countRecord_running : (countRecord s).running = s.running := rfl
@[simp] theorem countRecord_events : (countRecord s).events = s.events := rfl
@[simp] theorem countRecord_hostRead : (countRecord s).hostRead = s.hostRead := rfl
@[simp] theorem countRecord_busyReads : (countRecord s).busyReads = s.busyReads := rfl

end countRecord

section digestBuf

variable (s : State)

@[simp] theorem digestBuf_phase : (digestBuf s).regs.phase = s.regs.phase := rfl
@[simp] theorem digestBuf_err : (digestBuf s).regs.err = s.regs.err := rfl
@[simp] theorem digestBuf_ephase : (digestBuf s).regs.ephase = s.regs.ephase := rfl
@[simp] theorem digestBuf_busy : (digestBuf s).regs.busy = s.regs.busy := rfl
@[simp] theorem digestBuf_verify : (digestBuf s).regs.verify = s.regs.verify := rfl
@[simp] theorem digestBuf_flags : (digestBuf s).regs.flags = s.regs.flags := rfl
@[simp] theorem digestBuf_version : (digestBuf s).regs.version = s.regs.version := rfl
@[simp] theorem digestBuf_blksz : (digestBuf s).regs.blksz = s.regs.blksz := rfl
@[simp] theorem digestBuf_recTag : (digestBuf s).regs.recTag = s.regs.recTag := rfl
@[simp] theorem digestBuf_origLen : (digestBuf s).regs.origLen = s.regs.origLen := rfl
@[simp] theorem digestBuf_encLen : (digestBuf s).regs.encLen = s.regs.encLen := rfl
@[simp] theorem digestBuf_recCk : (digestBuf s).regs.recCk = s.regs.recCk := rfl
@[simp] theorem digestBuf_xlen : (digestBuf s).regs.xlen = s.regs.xlen := rfl
@[simp] theorem digestBuf_bufLen : (digestBuf s).regs.bufLen = s.regs.bufLen := rfl
@[simp] theorem digestBuf_blkDigest : (digestBuf s).regs.blkDigest = digest (bufContent s) := rfl
@[simp] theorem digestBuf_frmAcc : (digestBuf s).regs.frmAcc = s.regs.frmAcc := rfl
@[simp] theorem digestBuf_seq : (digestBuf s).regs.seq = s.regs.seq := rfl
@[simp] theorem digestBuf_errSeq : (digestBuf s).regs.errSeq = s.regs.errSeq := rfl
@[simp] theorem digestBuf_totOrig : (digestBuf s).regs.totOrig = s.regs.totOrig := rfl
@[simp] theorem digestBuf_inCnt : (digestBuf s).regs.inCnt = s.regs.inCnt := rfl
@[simp] theorem digestBuf_outCnt : (digestBuf s).regs.outCnt = s.regs.outCnt := rfl
@[simp] theorem digestBuf_buf : (digestBuf s).regs.buf = s.regs.buf := rfl
@[simp] theorem digestBuf_bufEpoch : (digestBuf s).regs.bufEpoch = s.regs.bufEpoch := rfl
@[simp] theorem digestBuf_params : (digestBuf s).params = s.params := rfl
@[simp] theorem digestBuf_inq : (digestBuf s).inq = s.inq := rfl
@[simp] theorem digestBuf_eos : (digestBuf s).eos = s.eos := rfl
@[simp] theorem digestBuf_out : (digestBuf s).out = s.out := rfl
@[simp] theorem digestBuf_running : (digestBuf s).running = s.running := rfl
@[simp] theorem digestBuf_events : (digestBuf s).events = s.events := rfl
@[simp] theorem digestBuf_hostRead : (digestBuf s).hostRead = s.hostRead := rfl
@[simp] theorem digestBuf_busyReads : (digestBuf s).busyReads = s.busyReads := rfl

end digestBuf

section consume

variable (k : Nat) (s : State)

@[simp] theorem consume_phase : (consume k s).regs.phase = s.regs.phase := rfl
@[simp] theorem consume_err : (consume k s).regs.err = s.regs.err := rfl
@[simp] theorem consume_ephase : (consume k s).regs.ephase = s.regs.ephase := rfl
@[simp] theorem consume_busy : (consume k s).regs.busy = s.regs.busy := rfl
@[simp] theorem consume_verify : (consume k s).regs.verify = s.regs.verify := rfl
@[simp] theorem consume_flags : (consume k s).regs.flags = s.regs.flags := rfl
@[simp] theorem consume_version : (consume k s).regs.version = s.regs.version := rfl
@[simp] theorem consume_blksz : (consume k s).regs.blksz = s.regs.blksz := rfl
@[simp] theorem consume_recTag : (consume k s).regs.recTag = s.regs.recTag := rfl
@[simp] theorem consume_origLen : (consume k s).regs.origLen = s.regs.origLen := rfl
@[simp] theorem consume_encLen : (consume k s).regs.encLen = s.regs.encLen := rfl
@[simp] theorem consume_recCk : (consume k s).regs.recCk = s.regs.recCk := rfl
@[simp] theorem consume_xlen : (consume k s).regs.xlen = s.regs.xlen := rfl
@[simp] theorem consume_bufLen : (consume k s).regs.bufLen = s.regs.bufLen := rfl
@[simp] theorem consume_blkDigest : (consume k s).regs.blkDigest = s.regs.blkDigest := rfl
@[simp] theorem consume_frmAcc : (consume k s).regs.frmAcc = s.regs.frmAcc := rfl
@[simp] theorem consume_seq : (consume k s).regs.seq = s.regs.seq := rfl
@[simp] theorem consume_errSeq : (consume k s).regs.errSeq = s.regs.errSeq := rfl
@[simp] theorem consume_totOrig : (consume k s).regs.totOrig = s.regs.totOrig := rfl
@[simp] theorem consume_inCnt : (consume k s).regs.inCnt = s.regs.inCnt + BitVec.ofNat 64 k := rfl
@[simp] theorem consume_outCnt : (consume k s).regs.outCnt = s.regs.outCnt := rfl
@[simp] theorem consume_buf : (consume k s).regs.buf = s.regs.buf := rfl
@[simp] theorem consume_bufEpoch : (consume k s).regs.bufEpoch = s.regs.bufEpoch := rfl
@[simp] theorem consume_params : (consume k s).params = s.params := rfl
@[simp] theorem consume_inq : (consume k s).inq = s.inq.drop k := rfl
@[simp] theorem consume_eos : (consume k s).eos = s.eos := rfl
@[simp] theorem consume_out : (consume k s).out = s.out := rfl
@[simp] theorem consume_running : (consume k s).running = s.running := rfl
@[simp] theorem consume_events : (consume k s).events = s.events := rfl
@[simp] theorem consume_hostRead : (consume k s).hostRead = s.hostRead := rfl
@[simp] theorem consume_busyReads : (consume k s).busyReads = s.busyReads := rfl

end consume

section resets

variable (s : State) (r : Regs) (w : Running)

@[simp] theorem resetRegs_phase : (resetRegs r).phase = .idle := rfl
@[simp] theorem resetRegs_err : (resetRegs r).err = .none := rfl
@[simp] theorem resetRegs_ephase : (resetRegs r).ephase = .idle := rfl
@[simp] theorem resetRegs_busy : (resetRegs r).busy = false := rfl
@[simp] theorem resetRegs_verify : (resetRegs r).verify = true := rfl
@[simp] theorem resetRegs_flags : (resetRegs r).flags = 0x00 := rfl
@[simp] theorem resetRegs_version : (resetRegs r).version = 0x10 := rfl
@[simp] theorem resetRegs_blksz : (resetRegs r).blksz = 0 := rfl
@[simp] theorem resetRegs_recTag : (resetRegs r).recTag = 0 := rfl
@[simp] theorem resetRegs_origLen : (resetRegs r).origLen = 0 := rfl
@[simp] theorem resetRegs_encLen : (resetRegs r).encLen = 0 := rfl
@[simp] theorem resetRegs_recCk : (resetRegs r).recCk = 0 := rfl
@[simp] theorem resetRegs_xlen : (resetRegs r).xlen = 0 := rfl
@[simp] theorem resetRegs_bufLen : (resetRegs r).bufLen = 0 := rfl
@[simp] theorem resetRegs_blkDigest : (resetRegs r).blkDigest = 0 := rfl
@[simp] theorem resetRegs_frmAcc : (resetRegs r).frmAcc = 0xFFFFFFFF := rfl
@[simp] theorem resetRegs_seq : (resetRegs r).seq = 0 := rfl
@[simp] theorem resetRegs_errSeq : (resetRegs r).errSeq = 0 := rfl
@[simp] theorem resetRegs_totOrig : (resetRegs r).totOrig = 0 := rfl
@[simp] theorem resetRegs_inCnt : (resetRegs r).inCnt = 0 := rfl
@[simp] theorem resetRegs_outCnt : (resetRegs r).outCnt = 0 := rfl
@[simp] theorem resetRegs_buf : (resetRegs r).buf = [] := rfl
@[simp] theorem resetRegs_bufEpoch : (resetRegs r).bufEpoch = r.bufEpoch + 1 := rfl
@[simp] theorem softReset_regs : (softReset s).regs = resetRegs s.regs := rfl
@[simp] theorem softReset_params : (softReset s).params = s.params := rfl
@[simp] theorem softReset_inq : (softReset s).inq = s.inq := rfl
@[simp] theorem softReset_eos : (softReset s).eos = s.eos := rfl
@[simp] theorem softReset_out : (softReset s).out = s.out := rfl
@[simp] theorem softReset_running : (softReset s).running = s.running := rfl
@[simp] theorem softReset_events : (softReset s).events = s.events := rfl
@[simp] theorem softReset_hostRead : (softReset s).hostRead = s.hostRead := rfl
@[simp] theorem softReset_busyReads : (softReset s).busyReads = s.busyReads := rfl
@[simp] theorem rewind_regs : (rewind w s).regs = w.before := rfl
@[simp] theorem rewind_params : (rewind w s).params = s.params := rfl
@[simp] theorem rewind_inq : (rewind w s).inq = w.taken ++ s.inq := rfl
@[simp] theorem rewind_eos : (rewind w s).eos = s.eos := rfl
@[simp] theorem rewind_out : (rewind w s).out = s.out := rfl
@[simp] theorem rewind_running : (rewind w s).running = none := rfl
@[simp] theorem rewind_events : (rewind w s).events = s.events := rfl
@[simp] theorem rewind_hostRead : (rewind w s).hostRead = s.hostRead := rfl
@[simp] theorem rewind_busyReads : (rewind w s).busyReads = s.busyReads := rfl

end resets

end Sys2Proof.Machine
end

