-- ==== Sys2Proof/Laws/Memory.lean ====
section
/-! SUPPORT. The block buffer: read after write, and that a write keeps the canonical form. -/

namespace Sys2Proof.Machine

theorem Memory.read_append (m n : Memory) (i : Nat) :
    Memory.read (m ++ n) i = (Memory.read m i).or (Memory.read n i) := by
  induction m with
  | nil => simp [Memory.read]
  | cons c m ih =>
    obtain ⟨k, b⟩ := c
    by_cases h : k = i <;> simp [Memory.read, h, ih]

/-- Keeping the cells whose index satisfies `p` keeps what an index that satisfies `p` reads as, and
leaves nothing at the others. -/
theorem Memory.read_filter (p : Nat → Bool) (m : Memory) (i : Nat) :
    Memory.read (m.filter fun c => p c.1) i = if p i then Memory.read m i else none := by
  induction m with
  | nil => simp [Memory.read]
  | cons c m ih =>
    obtain ⟨k, b⟩ := c
    by_cases hk : p k = true
    · by_cases h : k = i
      · subst h; simp [Memory.read, hk]
      · simp [Memory.read, hk, h, ih]
    · by_cases h : k = i
      · subst h; simp [hk, ih]
      · simp [Memory.read, hk, h, ih]

theorem Memory.read_cells (a : Nat) (bs : List Byte) (i : Nat) :
    Memory.read (Memory.cells a bs) i = if a ≤ i then bs[i - a]? else none := by
  induction bs generalizing a with
  | nil => simp [Memory.cells, Memory.read]
  | cons b bs ih =>
    rcases Nat.lt_trichotomy i a with h | h | h
    · rw [if_neg (by omega)]
      simp only [Memory.cells, Memory.read, ih]
      rw [if_neg (by omega), if_neg (by omega)]
    · subst h; simp [Memory.cells, Memory.read]
    · simp only [Memory.cells, Memory.read, ih]
      rw [if_neg (by omega), if_pos (by omega), if_pos (by omega)]
      obtain ⟨j, rfl⟩ : ∃ j, i = a + 1 + j := ⟨i - (a + 1), by omega⟩
      simp [show a + 1 + j - a = j + 1 by omega]

/-- Read after write: inside the written range the byte written, outside what was there. -/
theorem Memory.read_write (m : Memory) (a : Nat) (bs : List Byte) (i : Nat) :
    Memory.read (Memory.write m a bs) i =
      if a ≤ i ∧ i < a + bs.length then bs[i - a]? else Memory.read m i := by
  unfold Memory.write
  rw [Memory.read_append, Memory.read_append, Memory.read_cells,
    Memory.read_filter (fun k => decide (k < a)), Memory.read_filter (fun k => decide (a + bs.length ≤ k))]
  rcases Nat.lt_or_ge i a with h | h
  · simp [h, show ¬ a ≤ i by omega, show ¬ a + bs.length ≤ i by omega]
  · rcases Nat.lt_or_ge i (a + bs.length) with h' | h'
    · have hlt : i - a < bs.length := by omega
      simp [h, h', show ¬ i < a by omega, List.getElem?_eq_getElem hlt]
    · simp [h, h', show ¬ i < a by omega, show ¬ i < a + bs.length by omega,
        List.getElem?_eq_none (l := bs) (i := i - a) (by omega)]

theorem Memory.risingFrom_mono {a b : Nat} (hab : a ≤ b) {m : Memory}
    (h : Memory.risingFrom b m = true) : Memory.risingFrom a m = true := by
  cases m with
  | nil => rfl
  | cons c m =>
    simp only [Memory.risingFrom, Bool.and_eq_true, decide_eq_true_eq] at h ⊢
    exact ⟨Nat.le_trans hab h.1, h.2⟩

theorem Memory.risingFrom_filter (p : Host.Cell → Bool) {a : Nat} {m : Memory}
    (h : Memory.risingFrom a m = true) : Memory.risingFrom a (m.filter p) = true := by
  induction m generalizing a with
  | nil => rfl
  | cons c m ih =>
    obtain ⟨k, b⟩ := c
    simp only [Memory.risingFrom, Bool.and_eq_true, decide_eq_true_eq] at h
    by_cases hp : p (k, b) = true
    · simp [hp, Memory.risingFrom, h.1, ih h.2]
    · simpa [hp] using ih (Memory.risingFrom_mono (by omega) h.2)

/-- What starts at or above `a` and has no cell at or above `e`, followed by what rises from `e`. -/
theorem Memory.risingFrom_append {a e : Nat} {m n : Memory} (hae : a ≤ e)
    (hm : Memory.risingFrom a m = true) (hlt : ∀ c ∈ m, c.1 < e)
    (hn : Memory.risingFrom e n = true) : Memory.risingFrom a (m ++ n) = true := by
  induction m generalizing a with
  | nil => exact Memory.risingFrom_mono hae hn
  | cons c m ih =>
    obtain ⟨k, b⟩ := c
    simp only [Memory.risingFrom, List.cons_append, Bool.and_eq_true, decide_eq_true_eq] at hm ⊢
    have hk : k < e := hlt (k, b) (List.mem_cons_self ..)
    exact ⟨hm.1, ih (by omega) hm.2 fun c hc => hlt c (List.mem_cons_of_mem _ hc)⟩

theorem Memory.risingFrom_cells (a : Nat) (bs : List Byte) :
    Memory.risingFrom a (Memory.cells a bs) = true := by
  induction bs generalizing a with
  | nil => rfl
  | cons b bs ih => simp [Memory.cells, Memory.risingFrom, ih]

theorem Memory.mem_cells {a : Nat} {bs : List Byte} {c : Host.Cell} (h : c ∈ Memory.cells a bs) :
    a ≤ c.1 ∧ c.1 < a + bs.length := by
  induction bs generalizing a with
  | nil => simp [Memory.cells] at h
  | cons b bs ih =>
    simp only [Memory.cells, List.mem_cons] at h
    rcases h with rfl | h
    · simp
    · have := ih h; simp only [List.length_cons]; omega

theorem Memory.risingFrom_filter_ge {a e : Nat} {m : Memory} (h : Memory.risingFrom a m = true) :
    Memory.risingFrom e (m.filter fun c => e ≤ c.1) = true := by
  induction m generalizing a with
  | nil => rfl
  | cons c m ih =>
    obtain ⟨k, b⟩ := c
    simp only [Memory.risingFrom, Bool.and_eq_true, decide_eq_true_eq] at h
    by_cases hk : e ≤ k
    · simp only [List.filter_cons, hk, decide_true, if_true, Memory.risingFrom, Bool.true_and]
      exact Memory.risingFrom_filter _ h.2
    · simpa [hk] using ih h.2

/-- Every write to BUF keeps the canonical form. -/
theorem Memory.write_wf {m : Memory} (h : Memory.wf m = true) (a : Nat) (bs : List Byte) :
    Memory.wf (Memory.write m a bs) = true := by
  unfold Memory.wf Memory.write at *
  have hhi : Memory.risingFrom (a + bs.length) (m.filter fun c => a + bs.length ≤ c.1) = true :=
    Memory.risingFrom_filter_ge h
  have hmid : Memory.risingFrom a
      (Memory.cells a bs ++ m.filter fun c => a + bs.length ≤ c.1) = true :=
    Memory.risingFrom_append (Nat.le_add_right ..) (Memory.risingFrom_cells a bs)
      (fun c hc => (Memory.mem_cells hc).2) hhi
  rw [List.append_assoc]
  exact Memory.risingFrom_append (Nat.zero_le a) (Memory.risingFrom_filter _ h)
    (fun c hc => by simpa using (List.mem_filter.1 hc).2) hmid

/-- The empty buffer, as after a reset and after a truncated load, has the canonical form. -/
theorem Memory.nil_wf : Memory.wf [] = true := rfl

/-- A write of `bs` from `a` puts no cell outside its range and the old cells. -/
theorem Memory.mem_write {m : Memory} {a : Nat} {bs : List Byte} {c : Host.Cell}
    (h : c ∈ Memory.write m a bs) : c ∈ m ∨ (a ≤ c.1 ∧ c.1 < a + bs.length) := by
  simp only [Memory.write, List.mem_append, List.mem_filter] at h
  rcases h with (h | h) | h
  · exact .inl h.1
  · exact .inr (Memory.mem_cells h)
  · exact .inl h.1

/-- What a byte of BUF reads as after a write. -/
theorem bufByte_memWrite (a : Nat) (bs : List Byte) (s : State) (i : Nat) :
    bufByte (memWrite a bs s) i = if a ≤ i ∧ i < a + bs.length then bs.getD (i - a) 0 else bufByte s i := by
  unfold bufByte
  rw [memWrite_buf, memWrite_bufEpoch, Memory.read_write]
  split
  · rename_i h
    have hlt : i - a < bs.length := by omega
    simp [List.getElem?_eq_getElem hlt]
  · rfl

/-- `BUF[0..n)` right after those bytes were written. -/
theorem memRead_memWrite (bs : List Byte) (s : State) :
    memRead (memWrite 0 bs s) 0 bs.length = bs := by
  apply List.ext_getElem
  · simp [memRead]
  · intro i h₁ h₂
    simp only [memRead, List.getElem_map, List.getElem_range, Nat.zero_add, bufByte_memWrite]
    simp [h₂]

/-- BUF's content depends on the buffer's cells, its epoch and its length alone. -/
theorem memRead_congr {s t : State} (hb : t.regs.buf = s.regs.buf) (he : t.regs.bufEpoch = s.regs.bufEpoch)
    (a n : Nat) : memRead t a n = memRead s a n := by
  simp [memRead, bufByte, hb, he]

theorem bufContent_congr {s t : State} (hb : t.regs.buf = s.regs.buf)
    (he : t.regs.bufEpoch = s.regs.bufEpoch) (hl : t.regs.bufLen = s.regs.bufLen) :
    bufContent t = bufContent s := by
  unfold bufContent; rw [hl, memRead_congr hb he]

theorem bufContent_length (s : State) : (bufContent s).length = s.regs.bufLen.toNat := by
  simp [bufContent, memRead]

end Sys2Proof.Machine
end

