-- ==== Sys2Proof/Laws/Streams.lean ====
section
/-! SUPPORT. The stream primitives and fault entry: everything each can do, said once. -/

namespace Sys2Proof.Machine

section res

variable {α β : Type} (f : α → State → Res β)

@[simp] theorem Res.bind_ok (a : α) (s : State) : (Res.ok a s).bind f = f a s := rfl
@[simp] theorem Res.bind_raised (s : State) : (Res.raised s : Res α).bind f = .raised s := rfl
@[simp] theorem Res.bind_wait (s : State) : (Res.wait s : Res α).bind f = .wait s := rfl

end res

/-- The state a piece of a command ends in. -/
def Res.final {α : Type} : Res α → State
  | .ok _ s => s
  | .raised s => s
  | .wait s => s

theorem require_true {c : Prop} [Decidable c] (h : c) (e : ErrCode) (s : State) :
    require c e s = .ok () s := by simp [require, h]

theorem require_false {c : Prop} [Decidable c] (h : ¬ c) (e : ErrCode) (s : State) :
    require c e s = .raised (raise e s) := by simp [require, h]

/-- All that `require` can do. -/
theorem require_cases (c : Prop) [Decidable c] (e : ErrCode) (s : State) :
    (c ∧ require c e s = .ok () s) ∨ (¬ c ∧ require c e s = .raised (raise e s)) := by
  by_cases h : c
  · exact .inl ⟨h, require_true h e s⟩
  · exact .inr ⟨h, require_false h e s⟩

@[simp] theorem consume_zero (s : State) : consume 0 s = s := by
  simp [consume]

theorem consume_consume (j k : Nat) (s : State) : consume k (consume j s) = consume (j + k) s := by
  simp only [consume, List.drop_drop, BitVec.ofNat_add]
  rw [BitVec.add_assoc]

theorem inByte_cons {s : State} {b : Byte} {rest : List Byte} (h : s.inq = b :: rest) :
    inByte s = .ok b (consume 1 s) := by
  simp [inByte, h, consume]

theorem inByte_exhausted {s : State} (h : s.inq = []) (he : s.eos = true) :
    inByte s = .raised (raise .truncatedStream s) := by
  simp [inByte, h, he]

theorem inByte_waits {s : State} (h : s.inq = []) (he : s.eos = false) : inByte s = .wait s := by
  simp [inByte, h, he]

/-- All that `InByte` can do (20_memory R67). -/
theorem inByte_cases (s : State) :
    (∃ b rest, s.inq = b :: rest ∧ inByte s = .ok b (consume 1 s)) ∨
    (s.inq = [] ∧ s.eos = true ∧ inByte s = .raised (raise .truncatedStream s)) ∨
    (s.inq = [] ∧ s.eos = false ∧ inByte s = .wait s) := by
  cases h : s.inq with
  | cons b rest => exact .inl ⟨b, rest, rfl, inByte_cons h⟩
  | nil =>
    cases he : s.eos with
    | true => exact .inr (.inl ⟨rfl, rfl, inByte_exhausted h he⟩)
    | false => exact .inr (.inr ⟨rfl, rfl, inByte_waits h he⟩)

/-- `InTake(k)` where `k` bytes stand in IN (20_memory R68). -/
theorem inTake_enough {k : Nat} {s : State} (h : k ≤ s.inq.length) :
    inTake k s = .ok (s.inq.take k) (consume k s) := by
  induction k generalizing s with
  | zero => simp [inTake]
  | succ k ih =>
    cases hq : s.inq with
    | nil => simp [hq] at h
    | cons b rest =>
      have hk : k ≤ (consume 1 s).inq.length := by
        rw [hq] at h; rw [consume_inq, hq]; simpa using h
      simp only [inTake, inByte_cons hq, Res.bind_ok, ih hk, consume_consume]
      rw [consume_inq, hq, Nat.add_comm]
      simp

/-- `InTake(k)` where IN holds fewer than `k` bytes: all of them have gone (20_memory R68). -/
theorem inTake_short {k : Nat} {s : State} (h : s.inq.length < k) :
    inTake k s = if s.eos then .raised (raise .truncatedStream (consume s.inq.length s))
      else .wait (consume s.inq.length s) := by
  induction k generalizing s with
  | zero => omega
  | succ k ih =>
    cases hq : s.inq with
    | nil =>
      cases he : s.eos with
      | true => simp [inTake, inByte_exhausted hq he]
      | false => simp [inTake, inByte_waits hq he]
    | cons b rest =>
      have hlen : (consume 1 s).inq.length = rest.length := by rw [consume_inq, hq]; rfl
      have hk : (consume 1 s).inq.length < k := by
        rw [hlen]; rw [hq] at h; simpa using h
      simp only [inTake, inByte_cons hq, Res.bind_ok, ih hk, consume_consume, hlen, consume_eos]
      rw [List.length_cons, Nat.add_comm]
      cases s.eos <;> simp

theorem consume_setFrmAcc (k : Nat) (s : State) (v : Word) :
    consume k (s.setFrmAcc v) = (consume k s).setFrmAcc v := rfl

theorem consume_setVersion (k : Nat) (s : State) (v : Byte) : consume k (s.setVersion v) = (consume k s).setVersion v := rfl
theorem consume_setFlags (k : Nat) (s : State) (v : Byte) : consume k (s.setFlags v) = (consume k s).setFlags v := rfl
theorem consume_setRecTag (k : Nat) (s : State) (v : Byte) : consume k (s.setRecTag v) = (consume k s).setRecTag v := rfl
theorem consume_setOrigLen (k : Nat) (s : State) (v : Word) : consume k (s.setOrigLen v) = (consume k s).setOrigLen v := rfl
theorem consume_setEncLen (k : Nat) (s : State) (v : Word) : consume k (s.setEncLen v) = (consume k s).setEncLen v := rfl
theorem consume_setRecCk (k : Nat) (s : State) (v : Word) : consume k (s.setRecCk v) = (consume k s).setRecCk v := rfl
theorem consume_setBufLen (k : Nat) (s : State) (v : Word) : consume k (s.setBufLen v) = (consume k s).setBufLen v := rfl

theorem setFrmAcc_setFrmAcc (s : State) (v w : Word) : (s.setFrmAcc v).setFrmAcc w = s.setFrmAcc w := rfl

/-- CK.FABS's loop where `k` bytes stand in IN (42_checksum R156). -/
theorem fabsTurns_enough {k : Nat} {s : State} (h : k ≤ s.inq.length) :
    fabsTurns k s = .ok () ((consume k s).setFrmAcc (crcFold s.regs.frmAcc (s.inq.take k))) := by
  induction k generalizing s with
  | zero => rw [fabsTurns, consume_zero]; rfl
  | succ k ih =>
    cases hq : s.inq with
    | nil => simp [hq] at h
    | cons b rest =>
      rw [fabsTurns, inByte_cons hq, Res.bind_ok, ih (by rw [hq] at h; simpa [hq] using h)]
      rw [consume_setFrmAcc, consume_consume, setFrmAcc_setFrmAcc, Nat.add_comm 1 k]
      simp [hq, crcFold]

/-- CK.FABS's loop where IN holds fewer than `k` bytes: those there are folded (42_checksum R156). -/
theorem fabsTurns_short {k : Nat} {s : State} (h : s.inq.length < k) :
    fabsTurns k s =
      if s.eos then .raised (raise .truncatedStream
        ((consume s.inq.length s).setFrmAcc (crcFold s.regs.frmAcc s.inq)))
      else .wait ((consume s.inq.length s).setFrmAcc (crcFold s.regs.frmAcc s.inq)) := by
  induction k generalizing s with
  | zero => omega
  | succ k ih =>
    cases hq : s.inq with
    | nil =>
      have hs : (consume 0 s).setFrmAcc (crcFold s.regs.frmAcc []) = s := by rw [consume_zero]; rfl
      rw [List.length_nil, hs]
      cases he : s.eos with
      | true => rw [fabsTurns, inByte_exhausted hq he]; rfl
      | false => rw [fabsTurns, inByte_waits hq he]; rfl
    | cons b rest =>
      rw [fabsTurns, inByte_cons hq, Res.bind_ok, ih (by rw [hq] at h; simpa [hq] using h)]
      simp only [consume_setFrmAcc, consume_consume, setFrmAcc_setFrmAcc, setFrmAcc_inq, setFrmAcc_eos,
        setFrmAcc_frmAcc, consume_inq, consume_eos, consume_frmAcc, hq, List.drop_succ_cons, List.drop_zero,
        List.length_cons, Nat.add_comm 1, crcFold]

/-- All that the load of BUF.LD and REC.RD can do (41_buffer R140; 44_parser R194). -/
theorem loadBuf_cases (n : Word) (s : State) :
    (n.toNat ≤ s.inq.length ∧
      loadBuf n s = .ok () ((memWrite 0 (s.inq.take n.toNat) (consume n.toNat s)).setBufLen n)) ∨
    (s.inq.length < n.toNat ∧ s.eos = true ∧
      loadBuf n s = .raised (forgetBuf
        (raise .truncatedStream (consume s.inq.length (s.setBufLen 0))))) ∨
    (s.inq.length < n.toNat ∧ s.eos = false ∧
      loadBuf n s = .wait (consume s.inq.length (s.setBufLen 0))) := by
  rcases Nat.lt_or_ge s.inq.length n.toNat with h | h
  · have hs := inTake_short (k := n.toNat) (s := s.setBufLen 0) h
    cases he : s.eos with
    | true => exact .inr (.inl ⟨h, rfl, by rw [loadBuf, hs, setBufLen_eos, he]; rfl⟩)
    | false => exact .inr (.inr ⟨h, rfl, by rw [loadBuf, hs, setBufLen_eos, he]; rfl⟩)
  · have hs := inTake_enough (k := n.toNat) (s := s.setBufLen 0) h
    exact .inl ⟨h, by rw [loadBuf, hs]; rfl⟩

/-- A value of one group is the last byte of its encoding (30_encoding R115). -/
theorem varintBytes_last (more : Nat) {v : Word} (h : v >>> 7 = 0) :
    varintBytes (more + 1) v = [v.extractLsb' 0 8 &&& 0x7F] := by
  rw [varintBytes, if_neg (by simpa using h)]

/-- A value of more groups is its low group and the encoding of the rest (30_encoding R115). -/
theorem varintBytes_more (more : Nat) {v : Word} (h : v >>> 7 ≠ 0) :
    varintBytes (more + 1) v = (0x80 ||| (v.extractLsb' 0 8 &&& 0x7F)) :: varintBytes more (v >>> 7) := by
  rw [varintBytes, if_pos h]

theorem varintBytes_ne_nil (more : Nat) (v : Word) : varintBytes more v ≠ [] := by
  cases more with
  | zero => simp [varintBytes]
  | succ more => rw [varintBytes]; split <;> simp

/-- Every encoding has a first byte, so no byte at all is an unfinished one. -/
theorem unfinishedVarint_nil : UnfinishedVarint [] :=
  ⟨0, List.nil_prefix, fun h => varintBytes_ne_nil 4 0 h.symm⟩

/-- An ill-formed varint has an offending byte. -/
theorem IllFormedVarint.ne_nil {bs : List Byte} (h : IllFormedVarint bs) : bs ≠ [] :=
  fun hn => h.2 0 (hn ▸ List.nil_prefix)

/-- What reading a varint can do: it has removed some bytes of IN, at most five, and has a value, or has
raised MalformedBlock or TruncatedStream, or waits with IN empty (30_encoding R116). -/
inductive VarintOutcome (s : State) : Res Word → Prop where
  | value (v : Word) (k : Nat) (hk : k ≤ s.inq.length) : VarintOutcome s (.ok v (consume k s))
  | malformed (k : Nat) (hk : k ≤ s.inq.length) :
    VarintOutcome s (.raised (raise .malformedBlock (consume k s)))
  | truncated (he : s.eos = true) :
    VarintOutcome s (.raised (raise .truncatedStream (consume s.inq.length s)))
  | waits (he : s.eos = false) : VarintOutcome s (.wait (consume s.inq.length s))

theorem VarintOutcome.after_byte {s : State} {b : Byte} {rest : List Byte} (hq : s.inq = b :: rest)
    {r : Res Word} (h : VarintOutcome (consume 1 s) r) : VarintOutcome s r := by
  have hlen : (consume 1 s).inq.length = rest.length := by rw [consume_inq, hq]; rfl
  have hall : 1 + (consume 1 s).inq.length = s.inq.length := by rw [hlen, hq, List.length_cons]; omega
  cases h with
  | value v k hk => rw [consume_consume]; exact .value v _ (by omega)
  | malformed k hk => rw [consume_consume]; exact .malformed _ (by omega)
  | truncated he => rw [consume_consume, hall]; exact .truncated (by simpa using he)
  | waits he => rw [consume_consume, hall]; exact .waits (by simpa using he)

/-- All that the turns of `VarintRead` can do. -/
theorem varintTurns_outcome (more : Nat) (v : Word) (s : State) :
    VarintOutcome s (varintTurns more v s) := by
  induction more generalizing v s with
  | zero =>
    rcases inByte_cases s with ⟨b, rest, hq, h⟩ | ⟨hq, he, h⟩ | ⟨hq, he, h⟩
    · have h1 : 1 ≤ s.inq.length := by simp [hq]
      rw [varintTurns, h, Res.bind_ok]
      rcases require_cases (b.extractLsb' 4 4 = (0 : BitVec 4)) .malformedBlock (consume 1 s) with ⟨-, hr⟩ | ⟨-, hr⟩
      · rw [hr, Res.bind_ok]
        rcases require_cases (b ≠ 0x00) .malformedBlock (consume 1 s) with ⟨-, hr⟩ | ⟨-, hr⟩
        · rw [hr, Res.bind_ok]; exact .value _ 1 h1
        · rw [hr, Res.bind_raised]; exact .malformed 1 h1
      · rw [hr, Res.bind_raised]; exact .malformed 1 h1
    · rw [varintTurns, h, Res.bind_raised]; simpa [hq] using VarintOutcome.truncated (s := s) he
    · rw [varintTurns, h, Res.bind_wait]; simpa [hq] using VarintOutcome.waits (s := s) he
  | succ more ih =>
    rcases inByte_cases s with ⟨b, rest, hq, h⟩ | ⟨hq, he, h⟩ | ⟨hq, he, h⟩
    · have h1 : 1 ≤ s.inq.length := by simp [hq]
      rw [varintTurns, h, Res.bind_ok]
      dsimp only
      split
      · exact .after_byte hq (ih _ _)
      · rcases require_cases (4 - (more + 1) = 0 ∨ b ≠ 0x00) .malformedBlock (consume 1 s) with ⟨-, hr⟩ | ⟨-, hr⟩
        · rw [hr, Res.bind_ok]; exact .value _ 1 h1
        · rw [hr, Res.bind_raised]; exact .malformed 1 h1
    · rw [varintTurns, h, Res.bind_raised]; simpa [hq] using VarintOutcome.truncated (s := s) he
    · rw [varintTurns, h, Res.bind_wait]; simpa [hq] using VarintOutcome.waits (s := s) he

/-- All that `VarintRead` can do. -/
theorem varintRead_outcome (s : State) : VarintOutcome s (varintRead s) := varintTurns_outcome 4 0 s

/-- `OutPut` in two pieces is `OutPut` of the whole (20_memory R79). -/
theorem outPut_outPut (bs cs : List Byte) (s : State) : outPut cs (outPut bs s) = outPut (bs ++ cs) s := by
  simp [outPut, BitVec.ofNat_add, BitVec.add_assoc, List.append_assoc]

end Sys2Proof.Machine
end

