-- ==== Sys2Proof/Laws/Issue.lean ====
section
/-! SUPPORT. The issue of a command: what `exec` does, said once for all fifteen. -/

namespace Sys2Proof.Machine

/-- The statements of each command. -/
def bodyOf : Instr → State → Res Unit
  | .nop => fun s => .ok () s
  | .reset => fun s => .ok () (softReset s)
  | .bufLd => bufLdBody
  | .bufSt => bufStBody
  | .ckBlk => fun s => .ok () (digestBuf s)
  | .ckVfy => ckVfyBody
  | .ckFinit => fun s => .ok () (s.setFrmAcc Config.crcOnes)
  | .ckFabs => fun s => fabsTurns s.regs.xlen.toNat s
  | .ckFbuf => fun s => .ok () (s.setFrmAcc (crcFold s.regs.frmAcc (bufContent s)))
  | .hdrWr => hdrWrBody
  | .recWr => recWrBody
  | .frmEnd t => frmEndBody t
  | .hdrRd => hdrRdBody
  | .recRd => recRdBody
  | .frmVfy => frmVfyBody

/-- Every command is issued the same way (40_control R132). -/
theorem exec_eq_issue (i : Instr) (s : State) : exec i s = issue i (bodyOf i) s := by
  cases i <;> rfl

theorem issue_execute {i : Instr} {s : State} (h : admission i s.regs.phase = .execute)
    (body : State → Res Unit) : issue i body s = .next (settle i s (body (s.setBusy true))) := by
  rw [issue, h]

theorem issue_violation {i : Instr} {s : State} (h : admission i s.regs.phase = .violation)
    (body : State → Res Unit) : issue i body s = .next (raise .protocolViolation s) := by
  rw [issue, h]

theorem issue_ignored {i : Instr} {s : State} (h : admission i s.regs.phase = .ignored)
    (body : State → Res Unit) : issue i body s = .next s := by
  rw [issue, h]

theorem admission_live {i : Instr} {p : Phase} (h : p ≠ .failed) :
    admission i p = if legal i p then .execute else .violation := by
  cases p <;> first | exact absurd rfl h | rfl

theorem admission_execute {i : Instr} {p : Phase} (h : p ≠ .failed) (hl : legal i p = true) :
    admission i p = .execute := by rw [admission_live h, if_pos hl]

/-- All that `exec` can do: nothing, a ProtocolViolation, or the command's statements. -/
theorem exec_cases (i : Instr) (s : State) :
    (admission i s.regs.phase = .ignored ∧ exec i s = .next s) ∨
    (admission i s.regs.phase = .violation ∧ exec i s = .next (raise .protocolViolation s)) ∨
    (admission i s.regs.phase = .execute ∧
      exec i s = .next (settle i s (bodyOf i (s.setBusy true)))) := by
  rw [exec_eq_issue]
  cases h : admission i s.regs.phase with
  | ignored => exact .inl ⟨rfl, issue_ignored h _⟩
  | violation => exact .inr (.inl ⟨rfl, issue_violation h _⟩)
  | execute => exact .inr (.inr ⟨rfl, issue_execute h _⟩)

/-- What is left of a command that ended, raised or waits. -/
theorem settle_ok (i : Instr) (s t : State) (u : Unit) : settle i s (.ok u t) = t.setBusy false := rfl
theorem settle_raised (i : Instr) (s t : State) : settle i s (.raised t) = t := rfl
theorem settle_wait (i : Instr) (s t : State) :
    settle i s (.wait t) = { t with running := some ⟨i, s.regs, s.inq⟩ } := rfl

end Sys2Proof.Machine
end

