-- ==== Sys2Proof/Laws/Bodies.lean ====
section
/-! SUPPORT. The parts of HDR.RD and REC.RD: everything each can do, said once. -/

namespace Sys2Proof.Machine

/-- IN holds what was taken, followed by what is left. -/
theorem consume_append {p rest : List Byte} {s : State} (h : s.inq = p ++ rest) :
    consume p.length s =
      { s with inq := rest, regs.inCnt := s.regs.inCnt + BitVec.ofNat 64 p.length } := by
  unfold consume; rw [h, List.drop_left]

theorem consume_all (s : State) :
    consume s.inq.length s =
      { s with inq := [], regs.inCnt := s.regs.inCnt + BitVec.ofNat 64 s.inq.length } := by
  unfold consume; rw [List.drop_length]

theorem consume_all_inq (s : State) : (consume s.inq.length s).inq = [] := by
  rw [consume_all]

/-! ### A piece that takes bytes and then has its value -/

/-- What a piece that only takes bytes from IN can do: end with `Ok k a` after `k` bytes, raise `e` with
`Bad k e` after `k` bytes, or find IN empty. -/
inductive Takes {α : Type} (s : State) (Ok : Nat → α → Prop) (Bad : Nat → ErrCode → Prop) : Res α → Prop where
  | ends (k : Nat) (a : α) (hk : k ≤ s.inq.length) (h : Ok k a) : Takes s Ok Bad (.ok a (consume k s))
  | raises (k : Nat) (e : ErrCode) (hk : k ≤ s.inq.length) (h : Bad k e) :
    Takes s Ok Bad (.raised (raise e (consume k s)))
  | truncated (he : s.eos = true) :
    Takes s Ok Bad (.raised (raise .truncatedStream (consume s.inq.length s)))
  | waits (he : s.eos = false) : Takes s Ok Bad (.wait (consume s.inq.length s))

/-- `InByte` (20_memory R67). -/
theorem inByte_takes (s : State) :
    Takes s (fun k b => k = 1 ∧ s.inq.head? = some b) (fun _ _ => False) (inByte s) := by
  rcases inByte_cases s with ⟨b, rest, hq, h⟩ | ⟨hq, he, h⟩ | ⟨hq, he, h⟩
  · rw [h]; exact .ends 1 b (by simp [hq]) ⟨rfl, by rw [hq]; rfl⟩
  · rw [h]; simpa [hq] using Takes.truncated (s := s) he
  · rw [h]; simpa [hq] using Takes.waits (s := s) he

/-- `InTake(n)` (20_memory R68). -/
theorem inTake_takes (n : Nat) (s : State) :
    Takes s (fun k bs => k = n ∧ bs = s.inq.take n) (fun _ _ => False) (inTake n s) := by
  rcases Nat.lt_or_ge s.inq.length n with h | h
  · rw [inTake_short h]
    cases he : s.eos with
    | true => exact .truncated he
    | false => exact .waits he
  · rw [inTake_enough h]; exact .ends n _ h ⟨rfl, rfl⟩

/-- The comparison of the magic: all of it was there, or it stopped at a byte that differs
(44_parser R191). -/
theorem readMagic_takes (ms : List Byte) (s : State) :
    Takes s (fun k _ => k = ms.length ∧ ms <+: s.inq) (fun k e => e = .badMagic ∧ 1 ≤ k ∧ k ≤ ms.length)
      (readMagic ms s) := by
  induction ms generalizing s with
  | nil =>
    have := Takes.ends (Ok := fun k (_ : Unit) => k = ([] : List Byte).length ∧ [] <+: s.inq)
      (Bad := fun k e => e = .badMagic ∧ 1 ≤ k ∧ k ≤ ([] : List Byte).length) (s := s) 0 () (Nat.zero_le _)
      ⟨rfl, List.nil_prefix⟩
    rwa [consume_zero] at this
  | cons m ms ih =>
    rcases inByte_cases s with ⟨b, rest, hq, h⟩ | ⟨hq, he, h⟩ | ⟨hq, he, h⟩
    · have h1 : 1 ≤ s.inq.length := by simp [hq]
      have hrest : (consume 1 s).inq = rest := by rw [consume_inq, hq]; rfl
      have hlen : 1 + (consume 1 s).inq.length = s.inq.length := by
        rw [hrest, hq, List.length_cons]; omega
      rw [readMagic, h, Res.bind_ok]
      rcases require_cases (b = m) .badMagic (consume 1 s) with ⟨hb, hr⟩ | ⟨-, hr⟩
      · rw [hr, Res.bind_ok]
        have ih := ih (consume 1 s)
        generalize readMagic ms (consume 1 s) = r at ih
        cases ih with
        | ends k a hk h =>
          rw [consume_consume]
          refine .ends _ _ (by omega) ⟨by rw [h.1, List.length_cons]; omega, ?_⟩
          rw [hq, hb, List.cons_prefix_cons]
          exact ⟨rfl, hrest ▸ h.2⟩
        | raises k e hk h =>
          rw [consume_consume]
          exact .raises _ _ (by omega) ⟨h.1, by omega, by rw [List.length_cons]; omega⟩
        | truncated he => rw [consume_consume, hlen]; exact .truncated (by simpa using he)
        | waits he => rw [consume_consume, hlen]; exact .waits (by simpa using he)
      · rw [hr, Res.bind_raised]
        exact .raises 1 _ h1 ⟨rfl, Nat.le_refl 1, by rw [List.length_cons]; omega⟩
    · rw [readMagic, h, Res.bind_raised]; simpa [hq] using Takes.truncated (s := s) he
    · rw [readMagic, h, Res.bind_wait]; simpa [hq] using Takes.waits (s := s) he

/-- `VarintRead` (30_encoding R116). -/
theorem varintRead_takes (s : State) :
    Takes s (fun _ _ => True) (fun _ e => e = .malformedBlock) (varintRead s) := by
  have h := varintRead_outcome s
  generalize varintRead s = r at h
  cases h with
  | value v k hk => exact .ends k v hk trivial
  | malformed k hk => exact .raises k _ hk rfl
  | truncated he => exact .truncated he
  | waits he => exact .waits he

/-! ### The commands -/

/-- HDR.RD, from the state `b` in which the counters have been cleared (44_parser R191). -/
inductive HdrRdOutcome (b : State) : Res Unit → Prop where
  /-- A byte of the magic differs. -/
  | badMagic (k : Nat) (hk : k ≤ b.inq.length) :
    HdrRdOutcome b (.raised (raise .badMagic (consume k b)))
  /-- The version byte is not accepted. -/
  | badVersion (v : Byte) (hv : versionAccepted v = false) (hk : 5 ≤ b.inq.length) :
    HdrRdOutcome b (.raised (raise .unsupportedVersion ((consume 5 b).setVersion v)))
  /-- A reserved bit of the flags byte is set. -/
  | badFlags (v f : Byte) (hv : versionAccepted v = true) (hf : flagsReserved f ≠ 0) (hk : 6 ≤ b.inq.length) :
    HdrRdOutcome b (.raised (raise .malformedBlock (((consume 6 b).setVersion v).setFlags f)))
  /-- The block size is not in shortest form. -/
  | badSize (v f : Byte) (k : Nat) (hv : versionAccepted v = true) (hf : flagsReserved f = 0)
      (hk : k ≤ b.inq.length) :
    HdrRdOutcome b (.raised (raise .malformedBlock (((consume k b).setVersion v).setFlags f)))
  /-- IN ended or ran out before the version byte. -/
  | truncatedEarly (he : b.eos = true) :
    HdrRdOutcome b (.raised (raise .truncatedStream (consume b.inq.length b)))
  | waitsEarly (he : b.eos = false) : HdrRdOutcome b (.wait (consume b.inq.length b))
  /-- IN ended or ran out at the flags byte. -/
  | truncatedFlags (v : Byte) (hv : versionAccepted v = true) (he : b.eos = true) :
    HdrRdOutcome b (.raised (raise .truncatedStream ((consume b.inq.length b).setVersion v)))
  | waitsFlags (v : Byte) (hv : versionAccepted v = true) (he : b.eos = false) :
    HdrRdOutcome b (.wait ((consume b.inq.length b).setVersion v))
  /-- IN ended or ran out inside the block size. -/
  | truncatedSize (v f : Byte) (hv : versionAccepted v = true) (hf : flagsReserved f = 0) (he : b.eos = true) :
    HdrRdOutcome b (.raised (raise .truncatedStream (((consume b.inq.length b).setVersion v).setFlags f)))
  | waitsSize (v f : Byte) (hv : versionAccepted v = true) (hf : flagsReserved f = 0) (he : b.eos = false) :
    HdrRdOutcome b (.wait (((consume b.inq.length b).setVersion v).setFlags f))
  /-- The header has been read. -/
  | done (v f : Byte) (z : Word) (k : Nat) (hv : versionAccepted v = true) (hf : flagsReserved f = 0)
      (hk : k ≤ b.inq.length) :
    HdrRdOutcome b (.ok () (((((consume k b).setVersion v).setFlags f).setBlksz z).setPhase .pBody))

theorem consume_length {k : Nat} {s : State} (hk : k ≤ s.inq.length) :
    k + (consume k s).inq.length = s.inq.length := by
  rw [consume_inq, List.length_drop]; omega

/-- All that HDR.RD can do. -/
theorem hdrRdBody_outcome (s : State) : HdrRdOutcome (beginFrame s) (hdrRdBody s) := by
  unfold hdrRdBody
  have hp : s.params.magic.bytes.length = 4 := rfl
  generalize s.params.magic.bytes = ms at hp
  generalize beginFrame s = b
  have h := readMagic_takes ms b
  generalize readMagic ms b = r at h
  cases h with
  | raises k e hk h => rw [h.1]; exact .badMagic k hk
  | truncated he => exact .truncatedEarly he
  | waits he => exact .waitsEarly he
  | ends k a hk h =>
    obtain ⟨rfl, -⟩ := h
    rw [hp] at hk ⊢
    rw [Res.bind_ok, readVersion]
    have h := inByte_takes (consume 4 b)
    generalize inByte (consume 4 b) = r at h
    have hl := consume_length hk
    cases h with
    | raises k e hk h => exact h.elim
    | truncated he => simp only [Res.bind_raised, consume_consume, hl]; exact .truncatedEarly he
    | waits he => simp only [Res.bind_wait, consume_consume, hl]; exact .waitsEarly he
    | ends k v hk h =>
      obtain ⟨rfl, -⟩ := h
      simp only [Res.bind_ok, consume_consume]
      rcases require_cases (versionAccepted v = true) .unsupportedVersion ((consume 5 b).setVersion v)
        with ⟨hv, hr⟩ | ⟨hv, hr⟩
      · have h5 : 5 ≤ b.inq.length := by omega
        have hl := consume_length h5
        rw [hr, Res.bind_ok, readFlags]
        have h := inByte_takes ((consume 5 b).setVersion v)
        generalize inByte ((consume 5 b).setVersion v) = r at h
        cases h with
        | raises k e hk h => exact h.elim
        | truncated he =>
          have := HdrRdOutcome.truncatedFlags (b := b) v hv he
          rw [← hl, ← consume_consume] at this; exact this
        | waits he =>
          have := HdrRdOutcome.waitsFlags (b := b) v hv he
          rw [← hl, ← consume_consume] at this; exact this
        | ends k f hk h =>
          obtain ⟨rfl, -⟩ := h
          have hk : 1 ≤ (consume 5 b).inq.length := hk
          have h6 : 6 ≤ b.inq.length := by omega
          have hl := consume_length h6
          have he1 : consume 1 ((consume 5 b).setVersion v) = (consume 6 b).setVersion v := by
            rw [← consume_consume 5 1]; rfl
          simp only [Res.bind_ok, he1]
          rcases require_cases (flagsReserved f = 0) .malformedBlock (((consume 6 b).setVersion v).setFlags f)
            with ⟨hf, hr⟩ | ⟨hf, hr⟩
          · rw [hr, Res.bind_ok]
            have h := varintRead_takes (((consume 6 b).setVersion v).setFlags f)
            generalize varintRead (((consume 6 b).setVersion v).setFlags f) = r at h
            have hc : ∀ k, consume k (((consume 6 b).setVersion v).setFlags f)
                = ((consume (6 + k) b).setVersion v).setFlags f := by
              intro k; rw [← consume_consume]; rfl
            cases h with
            | ends k z hk h =>
              have hk : k ≤ (consume 6 b).inq.length := hk
              rw [hc]; exact .done v f z (6 + k) hv hf (by omega)
            | raises k e hk h =>
              have hk : k ≤ (consume 6 b).inq.length := hk
              subst h; rw [hc]; exact .badSize v f (6 + k) hv hf (by omega)
            | truncated he =>
              have := HdrRdOutcome.truncatedSize (b := b) v f hv hf he
              rw [← hl, ← hc] at this; exact this
            | waits he =>
              have := HdrRdOutcome.waitsSize (b := b) v f hv hf he
              rw [← hl, ← hc] at this; exact this
          · rw [hr, Res.bind_raised]; exact .badFlags v f hv hf h6
      · rw [hr, Res.bind_raised]; exact .badVersion v (by simpa using hv) (by omega)

/-- The registers a record's fields have been loaded into, `k` bytes of IN later; in a frame without checksums
`c` is what REC_CK held. -/
def recFields (k : Nat) (t : Byte) (o e c : Word) (s : State) : State :=
  ((((consume k s).setRecTag t).setOrigLen o).setEncLen e).setRecCk c

/-- Where REC.RD can stand when it asks for a byte, `k` bytes of IN later (44_parser R194). -/
inductive RecRdAt (s : State) (k : Nat) : State → Prop where
  /-- At the tag. -/
  | tag (hk : k = 0) : RecRdAt s k s
  /-- In the trailer of a frame with checksums. -/
  | trailer (hc : ck s = true) : RecRdAt s k ((consume k s).setRecTag 0x06)
  /-- In ORIG_LEN. -/
  | origLen (t : Byte) (ht : t = 0x00 ∨ t = 0x01) : RecRdAt s k ((consume k s).setRecTag t)
  /-- In ENC_LEN. -/
  | encLen (t : Byte) (o : Word) (ht : t = 0x00 ∨ t = 0x01) :
    RecRdAt s k (((consume k s).setRecTag t).setOrigLen o)
  /-- In the checksum field. -/
  | checksum (t : Byte) (o e : Word) (ht : t = 0x00 ∨ t = 0x01) (hc : ck s = true) :
    RecRdAt s k (recFields k t o e s.regs.recCk s)

theorem ck_congr {s t : State} (h : t.regs.flags = s.regs.flags) : ck t = ck s := by unfold ck; rw [h]

/-- A record's payload has been loaded (44_parser R194). -/
def recLoaded (k : Nat) (t : Byte) (o e c : Word) (p : List Byte) (s : State) : State :=
  (memWrite 0 p (recFields k t o e c s)).setBufLen e

/-- REC.RD (44_parser R194). -/
inductive RecRdOutcome (s : State) : Res Unit → Prop where
  /-- IN ended or ran out before the payload. -/
  | truncated (u : State) (h : RecRdAt s s.inq.length u) (he : s.eos = true) :
    RecRdOutcome s (.raised (raise .truncatedStream u))
  | waits (u : State) (h : RecRdAt s s.inq.length u) (he : s.eos = false) : RecRdOutcome s (.wait u)
  /-- The tag is not legal. -/
  | badTag (t : Byte) (hk : 1 ≤ s.inq.length) :
    RecRdOutcome s (.raised (raise .malformedBlock ((consume 1 s).setRecTag t)))
  /-- A length is not in shortest form. -/
  | badLength (k : Nat) (u : State) (hk : k ≤ s.inq.length) (h : RecRdAt s k u) :
    RecRdOutcome s (.raised (raise .malformedBlock u))
  /-- The lengths of a stored record differ. -/
  | storedDiffers (k : Nat) (t : Byte) (o e : Word) (hk : k ≤ s.inq.length) (ht : t = 0x00 ∨ t = 0x01)
      (hs : tagStored t = true) (hd : e ≠ o) :
    RecRdOutcome s (.raised (raise .malformedBlock (recFields k t o e s.regs.recCk s)))
  /-- The payload does not fit BUF. -/
  | tooLong (k : Nat) (t : Byte) (o e c : Word) (hk : k ≤ s.inq.length) (ht : t = 0x00 ∨ t = 0x01)
      (hc : ck s = false → c = s.regs.recCk) (hl : ¬ e ≤ s.params.bufBytes) :
    RecRdOutcome s (.raised (raise .allocationFailure (recFields k t o e c s)))
  /-- IN ended or ran out in the payload. -/
  | truncatedPayload (t : Byte) (o e c : Word) (ht : t = 0x00 ∨ t = 0x01) (hl : e ≤ s.params.bufBytes)
      (hc : ck s = false → c = s.regs.recCk) (he : s.eos = true) :
    RecRdOutcome s (.raised (forgetBuf (raise .truncatedStream
      ((recFields s.inq.length t o e c s).setBufLen 0))))
  | waitsPayload (t : Byte) (o e c : Word) (ht : t = 0x00 ∨ t = 0x01) (hl : e ≤ s.params.bufBytes)
      (hc : ck s = false → c = s.regs.recCk) (he : s.eos = false) :
    RecRdOutcome s (.wait ((recFields s.inq.length t o e c s).setBufLen 0))
  /-- The payload's digest is computed and is not REC_CK. -/
  | mismatch (k : Nat) (t : Byte) (o e c : Word) (p : List Byte) (hk : k ≤ s.inq.length)
      (ht : t = 0x00 ∨ t = 0x01) (hl : e ≤ s.params.bufBytes) (hp : p.length = e.toNat)
      (hv : ck s = true ∧ s.regs.verify = true) (hd : digest p ≠ c) :
    RecRdOutcome s (.raised (raise .checksumMismatch ((recLoaded k t o e c p s).setBlkDigest (digest p))))
  /-- A block record, checked. -/
  | checked (k : Nat) (t : Byte) (o e : Word) (p : List Byte) (hk : k ≤ s.inq.length)
      (ht : t = 0x00 ∨ t = 0x01) (hl : e ≤ s.params.bufBytes) (hp : p.length = e.toNat)
      (hv : ck s = true ∧ s.regs.verify = true) :
    RecRdOutcome s (.ok () (countRecord ((recLoaded k t o e (digest p) p s).setBlkDigest (digest p))))
  /-- A block record, in a frame without checksums or with verification off. -/
  | unchecked (k : Nat) (t : Byte) (o e c : Word) (p : List Byte) (hk : k ≤ s.inq.length)
      (ht : t = 0x00 ∨ t = 0x01) (hl : e ≤ s.params.bufBytes) (hp : p.length = e.toNat)
      (hc : ck s = false → c = s.regs.recCk) (hv : ¬ (ck s = true ∧ s.regs.verify = true)) :
    RecRdOutcome s (.ok () (countRecord (recLoaded k t o e c p s)))
  /-- The end marker without a trailer. -/
  | ended (hk : 1 ≤ s.inq.length) :
    RecRdOutcome s (.ok () (((consume 1 s).setRecTag 0x02).setPhase .done))
  /-- The end marker with the trailer `d`. -/
  | endedTrailer (d : Word) (hk : 5 ≤ s.inq.length) (hc : ck s = true) :
    RecRdOutcome s (.ok () ((((consume 5 s).setRecTag 0x06).setRecCk d).setPhase .pTrailer))

theorem tag_end {t : Byte} (h0 : tagReserved t = 0) (h1 : tagEnd t = true) (h2 : tagStored t = false) :
    t = if tagTrailer t then 0x06 else 0x02 := by
  revert t; decide +kernel

theorem tag_record {t : Byte} (h0 : tagReserved t = 0) (h1 : tagEnd t = false) (h2 : tagTrailer t = false) :
    t = 0x00 ∨ t = 0x01 := by
  revert t; decide +kernel

/-- `REC_CK <- le32_val(InTake(4))` after `k` bytes of IN have been taken, from any state `u` that stands there. -/
theorem readRecCk_cases (u : State) :
    (4 ≤ u.inq.length ∧ ∃ d, readRecCk u = .ok () ((consume 4 u).setRecCk d)) ∨
    (u.eos = true ∧ readRecCk u = .raised (raise .truncatedStream (consume u.inq.length u))) ∨
    (u.eos = false ∧ readRecCk u = .wait (consume u.inq.length u)) := by
  unfold readRecCk
  have h := inTake_takes 4 u
  generalize inTake 4 u = r at h
  cases h with
  | ends k bs hk h => obtain ⟨rfl, -⟩ := h; exact .inl ⟨hk, _, rfl⟩
  | raises k e hk h => exact h.elim
  | truncated he => exact .inr (.inl ⟨he, rfl⟩)
  | waits he => exact .inr (.inr ⟨he, rfl⟩)

/-- The check of a payload (44_parser R194; 42_checksum R159). -/
theorem recRdVerify_cases (u : State) :
    (ck u = true ∧ u.regs.verify = true ∧ digest (bufContent u) = u.regs.recCk ∧
      recRdVerify u = .ok () (u.setBlkDigest (digest (bufContent u)))) ∨
    (ck u = true ∧ u.regs.verify = true ∧ digest (bufContent u) ≠ u.regs.recCk ∧
      recRdVerify u = .raised (raise .checksumMismatch (u.setBlkDigest (digest (bufContent u))))) ∨
    (¬ (ck u = true ∧ u.regs.verify = true) ∧ recRdVerify u = .ok () u) := by
  unfold recRdVerify
  by_cases hv : ck u = true ∧ u.regs.verify = true
  · rw [if_pos (by simpa using hv)]
    dsimp only
    rcases require_cases (digest (bufContent u) = u.regs.recCk) .checksumMismatch
      (u.setBlkDigest (digest (bufContent u))) with ⟨hd, hr⟩ | ⟨hd, hr⟩
    · exact .inl ⟨hv.1, hv.2, hd, hr⟩
    · exact .inr (.inl ⟨hv.1, hv.2, hd, hr⟩)
  · rw [if_neg (by simpa using hv)]; exact .inr (.inr ⟨hv, rfl⟩)

/-- REC.RD once the lengths and the checksum field have been read. -/
theorem recRdPayload_outcome (s : State) (k : Nat) (t : Byte) (o e c : Word) (hk : k ≤ s.inq.length)
    (ht : t = 0x00 ∨ t = 0x01) (hc : ck s = false → c = s.regs.recCk) :
    RecRdOutcome s ((require ((recFields k t o e c s).regs.encLen ≤ (recFields k t o e c s).params.bufBytes)
        .allocationFailure (recFields k t o e c s)).bind fun _ s =>
      (loadBuf s.regs.encLen s).bind fun _ s =>
      (recRdVerify s).bind fun _ s => .ok () (countRecord s)) := by
  have hlen := consume_length hk
  have hcons : ∀ j, consume j (recFields k t o e c s) = recFields (k + j) t o e c s := by
    intro j; simp only [recFields, consume_setRecCk, consume_setEncLen, consume_setOrigLen, consume_setRecTag, consume_consume]
  have hcons0 : ∀ j, consume j ((recFields k t o e c s).setBufLen 0) = (recFields (k + j) t o e c s).setBufLen 0 :=
    by intro j; rw [consume_setBufLen, hcons]
  have hcall : consume (recFields k t o e c s).inq.length ((recFields k t o e c s).setBufLen 0)
      = (recFields s.inq.length t o e c s).setBufLen 0 := by
    rw [hcons0, show (recFields k t o e c s).inq = (consume k s).inq by simp [recFields], hlen]
  rcases require_cases ((recFields k t o e c s).regs.encLen ≤ (recFields k t o e c s).params.bufBytes)
    .allocationFailure (recFields k t o e c s) with ⟨hl, hr⟩ | ⟨hl, hr⟩
  · have hl : e ≤ s.params.bufBytes := by simpa [recFields] using hl
    rw [hr, Res.bind_ok]
    rcases loadBuf_cases (recFields k t o e c s).regs.encLen (recFields k t o e c s) with
      ⟨hn, h⟩ | ⟨-, he, h⟩ | ⟨-, he, h⟩
    · rw [h, Res.bind_ok]
      have hn : e.toNat ≤ (consume k s).inq.length := by simpa [recFields] using hn
      have hp : ((recFields k t o e c s).inq.take e.toNat).length = e.toNat := by
        rw [List.length_take]; exact Nat.min_eq_left hn
      generalize hpp : (recFields k t o e c s).inq.take e.toNat = p at hp
      rw [show (recFields k t o e c s).regs.encLen = e from rfl, hpp, hcons]
      have hk' : k + e.toNat ≤ s.inq.length := by omega
      have hcont : bufContent (recLoaded (k + e.toNat) t o e c p s) = p := by
        have := memRead_memWrite p (recFields (k + e.toNat) t o e c s)
        rw [hp] at this
        exact this
      have hv := recRdVerify_cases (recLoaded (k + e.toNat) t o e c p s)
      rw [hcont] at hv
      rw [show (memWrite 0 p (recFields (k + e.toNat) t o e c s)).setBufLen e
        = recLoaded (k + e.toNat) t o e c p s from rfl]
      rw [ck_congr (s := s) (t := recLoaded (k + e.toNat) t o e c p s) (by simp [recLoaded, recFields]),
        show (recLoaded (k + e.toNat) t o e c p s).regs.verify = s.regs.verify by simp [recLoaded, recFields],
        show (recLoaded (k + e.toNat) t o e c p s).regs.recCk = c by simp [recLoaded, recFields]] at hv
      rcases hv with ⟨hc1, hv, hd, h⟩ | ⟨hc1, hv, hd, h⟩ | ⟨hv, h⟩
      · rw [h, Res.bind_ok]
        have := RecRdOutcome.checked (k + e.toNat) t o e p hk' ht hl hp ⟨hc1, hv⟩
        rw [hd] at this ⊢; exact this
      · rw [h, Res.bind_raised]
        exact .mismatch (k + e.toNat) t o e c p hk' ht hl hp ⟨hc1, hv⟩ hd
      · rw [h, Res.bind_ok]
        exact .unchecked _ t o e c p hk' ht hl hp hc hv
    · have he : s.eos = true := by simpa [recFields] using he
      rw [h, Res.bind_raised, hcall]; exact .truncatedPayload t o e c ht hl hc he
    · have he : s.eos = false := by simpa [recFields] using he
      rw [h, Res.bind_wait, hcall]; exact .waitsPayload t o e c ht hl hc he
  · rw [hr, Res.bind_raised]; exact .tooLong k t o e c hk ht hc hl

theorem Res.bind_bind {α β γ : Type} (r : Res α) (f : α → State → Res β) (g : β → State → Res γ) :
    (r.bind f).bind g = r.bind fun a s => (f a s).bind g := by
  cases r <;> rfl

/-- REC.RD once the tag of a block record has been read. -/
theorem recRdFields_outcome (s : State) (t : Byte) (h1 : 1 ≤ s.inq.length) (ht : t = 0x00 ∨ t = 0x01) :
    RecRdOutcome s ((recRdFields t ((consume 1 s).setRecTag t)).bind fun _ s =>
      (require (s.regs.encLen ≤ s.params.bufBytes) .allocationFailure s).bind fun _ s =>
      (loadBuf s.regs.encLen s).bind fun _ s =>
      (recRdVerify s).bind fun _ s => .ok () (countRecord s)) := by
  unfold recRdFields
  have hlen := consume_length h1
  have h := varintRead_takes ((consume 1 s).setRecTag t)
  generalize varintRead ((consume 1 s).setRecTag t) = r at h
  cases h with
  | raises k e hk h =>
    rw [setRecTag_inq] at hk
    rw [h, Res.bind_raised, Res.bind_raised, consume_setRecTag, consume_consume]
    exact .badLength (1 + k) _ (by omega) (.origLen t ht)
  | truncated he =>
    rw [Res.bind_raised, Res.bind_raised, consume_setRecTag, consume_consume, setRecTag_inq, hlen]
    exact .truncated _ (.origLen t ht) he
  | waits he =>
    rw [Res.bind_wait, Res.bind_wait, consume_setRecTag, consume_consume, setRecTag_inq, hlen]
    exact .waits _ (.origLen t ht) he
  | ends k o hk h =>
    rw [setRecTag_inq] at hk
    have hk1 : 1 + k ≤ s.inq.length := by omega
    have hlen := consume_length hk1
    rw [Res.bind_bind, Res.bind_ok, consume_setRecTag, consume_consume]
    dsimp only
    have h := varintRead_takes (((consume (1 + k) s).setRecTag t).setOrigLen o)
    generalize varintRead (((consume (1 + k) s).setRecTag t).setOrigLen o) = r at h
    cases h with
    | raises j e hk h =>
      rw [setOrigLen_inq, setRecTag_inq] at hk
      rw [h, Res.bind_raised, Res.bind_raised, consume_setOrigLen, consume_setRecTag, consume_consume]
      exact .badLength (1 + k + j) _ (by omega) (.encLen t o ht)
    | truncated he =>
      rw [Res.bind_raised, Res.bind_raised, consume_setOrigLen, consume_setRecTag, consume_consume,
        setOrigLen_inq, setRecTag_inq, hlen]
      exact .truncated _ (.encLen t o ht) (by simpa using he)
    | waits he =>
      rw [Res.bind_wait, Res.bind_wait, consume_setOrigLen, consume_setRecTag, consume_consume,
        setOrigLen_inq, setRecTag_inq, hlen]
      exact .waits _ (.encLen t o ht) (by simpa using he)
    | ends j e hk h =>
      rw [setOrigLen_inq, setRecTag_inq] at hk
      have hk2 : 1 + k + j ≤ s.inq.length := by omega
      have hlen := consume_length hk2
      generalize hn : 1 + k + j = n at hk2 hlen
      have hs : ((((consume (1 + k + j) s).setRecTag t).setOrigLen o).setEncLen e)
          = recFields n t o e s.regs.recCk s := by rw [hn]; rfl
      rw [Res.bind_bind, Res.bind_ok, consume_setOrigLen, consume_setRecTag, consume_consume]
      rw [hs]
      rcases require_cases (tagStored t = false ∨ (recFields n t o e s.regs.recCk s).regs.encLen
          = (recFields n t o e s.regs.recCk s).regs.origLen) .malformedBlock
          (recFields n t o e s.regs.recCk s) with ⟨-, hr⟩ | ⟨hd, hr⟩
      · rw [hr, Res.bind_ok]
        cases hc : ck s with
        | true =>
          rw [if_pos (by rw [ck_congr (s := s) (by simp [recFields]), hc])]
          have hset : ∀ j d, (consume j (recFields n t o e s.regs.recCk s)).setRecCk d
              = recFields (n + j) t o e d s := by
            intro j d
            simp only [recFields, consume_setRecCk, consume_setEncLen, consume_setOrigLen, consume_setRecTag,
              consume_consume]
            rfl
          have hcall : consume (recFields n t o e s.regs.recCk s).inq.length (recFields n t o e s.regs.recCk s)
              = recFields s.inq.length t o e s.regs.recCk s := by
            rw [show (recFields n t o e s.regs.recCk s).inq = (consume n s).inq by simp [recFields]]
            simp only [recFields, consume_setRecCk, consume_setEncLen, consume_setOrigLen, consume_setRecTag,
              consume_consume, hlen]
          rcases readRecCk_cases (recFields n t o e s.regs.recCk s) with ⟨h4, d, h⟩ | ⟨he, h⟩ | ⟨he, h⟩
          · rw [h, Res.bind_ok, hset]
            have h4 : 4 ≤ (consume n s).inq.length := by simpa [recFields] using h4
            exact recRdPayload_outcome s (n + 4) t o e d (by omega) ht (by simp [hc])
          · rw [h, Res.bind_raised, hcall]
            exact .truncated _ (.checksum t o e ht hc) (by simpa [recFields] using he)
          · rw [h, Res.bind_wait, hcall]
            exact .waits _ (.checksum t o e ht hc) (by simpa [recFields] using he)
        | false =>
          rw [if_neg (by rw [ck_congr (s := s) (by simp [recFields]), hc]; decide), Res.bind_ok]
          exact recRdPayload_outcome s n t o e _ hk2 ht (fun _ => rfl)
      · rw [hr, Res.bind_raised, Res.bind_raised]
        have hd : ¬ (tagStored t = false ∨ e = o) := by simpa [recFields] using hd
        exact .storedDiffers n t o e hk2 ht (by simpa using fun h => hd (.inl h)) (fun h => hd (.inr h))

/-- All that REC.RD can do. -/
theorem recRdBody_outcome (s : State) : RecRdOutcome s (recRdBody s) := by
  unfold recRdBody
  rcases inByte_cases s with ⟨t, rest, hq, h⟩ | ⟨hq, he, h⟩ | ⟨hq, he, h⟩
  · have hk : 1 ≤ s.inq.length := by simp [hq]
    rw [h]
    rw [Res.bind_ok]
    dsimp only
    have hlen := consume_length hk
    rcases require_cases (tagReserved t = 0) .malformedBlock ((consume 1 s).setRecTag t) with ⟨h0, hr⟩ | ⟨h0, hr⟩
    · rw [hr, Res.bind_ok]
      cases h1 : tagEnd t with
      | true =>
        rw [if_pos rfl, recRdEnd]
        rcases require_cases (tagStored t = false) .malformedBlock ((consume 1 s).setRecTag t) with ⟨h2, hr⟩ | ⟨-, hr⟩
        · rw [hr, Res.bind_ok]
          have ht := tag_end h0 h1 h2
          cases h3 : tagTrailer t with
          | false => rw [h3] at ht; rw [ht]; exact .ended hk
          | true =>
            rw [h3] at ht
            rw [if_pos rfl]
            rcases require_cases (ck ((consume 1 s).setRecTag t) = true) .malformedBlock ((consume 1 s).setRecTag t)
              with ⟨hc, hr⟩ | ⟨-, hr⟩
            · have hc : ck s = true := hc
              rw [hr, Res.bind_ok]
              have hcons : ∀ j, consume j ((consume 1 s).setRecTag t) = (consume (1 + j) s).setRecTag 0x06 := by
                intro j; rw [ht, ← consume_consume]; rfl
              rcases readRecCk_cases ((consume 1 s).setRecTag t) with ⟨h4, d, h⟩ | ⟨he, h⟩ | ⟨he, h⟩
              · have h4 : 4 ≤ (consume 1 s).inq.length := h4
                rw [h, Res.bind_ok, hcons]; exact .endedTrailer d (by omega) hc
              · rw [h, Res.bind_raised, hcons]
                refine .truncated _ ?_ he
                rw [← hlen]; exact .trailer hc
              · rw [h, Res.bind_wait, hcons]
                refine .waits _ ?_ he
                rw [← hlen]; exact .trailer hc
            · rw [hr, Res.bind_raised]; exact .badTag t hk
        · rw [hr, Res.bind_raised]; exact .badTag t hk
      | false =>
        rw [if_neg (by decide), recRdRecord]
        rcases require_cases (tagTrailer t = false) .malformedBlock ((consume 1 s).setRecTag t) with ⟨h2, hr⟩ | ⟨-, hr⟩
        · rw [hr, Res.bind_ok]
          have ht := tag_record h0 h1 h2
          exact recRdFields_outcome s t hk ht
        · rw [hr, Res.bind_raised]; exact .badTag t hk
    · rw [hr, Res.bind_raised]; exact .badTag t hk
  · rw [h, Res.bind_raised]; exact .truncated s (.tag (by simp [hq])) he
  · rw [h, Res.bind_wait]; exact .waits s (.tag (by simp [hq])) he

end Sys2Proof.Machine
end

