-- ==== Sys2Proof/Laws/PerInstr.lean ====
section
/-! SUPPORT. Facts about every command as syntax, one lemma per constructor. -/

namespace Sys2Proof.Laws.EncodesOneRow

/-- The command's word selects exactly one row of the opcode map, and its T bit is set for FRM.END with T
only (30_encoding R90, R92). -/
def Statement (i : Instr) : Prop :=
  (opcodeTable.filter (rowSelects (encode i))).length = 1 ∧ ((encode i).getLsbD 8 = true ↔ i = .frmEnd true)

theorem nop : Statement .nop := by unfold Statement; decide
theorem reset : Statement .reset := by unfold Statement; decide
theorem bufLd : Statement .bufLd := by unfold Statement; decide
theorem bufSt : Statement .bufSt := by unfold Statement; decide
theorem ckBlk : Statement .ckBlk := by unfold Statement; decide
theorem ckVfy : Statement .ckVfy := by unfold Statement; decide
theorem ckFinit : Statement .ckFinit := by unfold Statement; decide
theorem ckFabs : Statement .ckFabs := by unfold Statement; decide
theorem ckFbuf : Statement .ckFbuf := by unfold Statement; decide
theorem hdrWr : Statement .hdrWr := by unfold Statement; decide
theorem recWr : Statement .recWr := by unfold Statement; decide
theorem frmEnd (t : Bool) : Statement (.frmEnd t) := by cases t <;> (unfold Statement; decide)
theorem hdrRd : Statement .hdrRd := by unfold Statement; decide
theorem recRd : Statement .recRd := by unfold Statement; decide
theorem frmVfy : Statement .frmVfy := by unfold Statement; decide

end Sys2Proof.Laws.EncodesOneRow
end

