-- ==== Sys2Proof/Laws/Steps.lean ====
section
/-! SUPPORT. One step: which operation it handles, and what the bus does with an aligned word. -/

namespace Sys2Proof.Machine

theorem step_of_event {s : State} {e : Event} {rest : List Event} (h : s.events = e :: rest) :
    step s = handle e { s with events := rest } := by
  unfold step; rw [h]

theorem step_of_no_event {s : State} (h : s.events = []) : step s = idle s := by
  unfold step; rw [h]

/-- An aligned word inside the register space is performed (20_memory R61, R73). -/
theorem regOffset_inside {p : Params} (hp : p.wf = true) {off : Nat} (h4 : off % 4 = 0) (hl : off < 0x100) :
    regOffset p .word (p.cfuBase + off) = .ok off := by
  have hb : p.cfuBase % 256 = 0 := by simp [Params.wf] at hp; exact hp.2
  unfold regOffset
  rw [if_neg (by simp; omega), if_neg (by omega)]
  congr 1; omega

/-- Only an aligned word inside the register space is performed (20_memory R61, R73). -/
theorem regOffset_ok {p : Params} {size : AccessSize} {addr off : Nat} (h : regOffset p size addr = .ok off) :
    size = .word ∧ addr = p.cfuBase + off := by
  unfold regOffset at h
  split at h
  · cases h
  · rename_i h1
    split at h
    · cases h
    · cases h
      exact ⟨not_not.mp fun hc => h1 (.inl hc), by omega⟩

/-- Only offset 0 is CMD (10_state R44). -/
theorem regAt_cmd {off : Nat} (h : regAt off = .cmd) : off = 0 := by
  unfold regAt at h; split at h <;> simp_all

/-- Only offset 4 is STATUS (10_state R44). -/
theorem regAt_status {off : Nat} (h : regAt off = .status) : off = 4 := by
  unfold regAt at h; split at h <;> simp_all

/-- The host's write of an aligned word while BUSY is 0 (40_control R130). -/
theorem step_of_write {s : State} {off : Nat} {v : Word} {rest : List Event} (hp : s.params.wf = true)
    (h4 : off % 4 = 0) (hl : off < 0x100) (he : s.events = wrAt s.params off v :: rest)
    (hb : s.regs.busy = false) : step s = wrOffset off v { s with events := rest } := by
  rw [step_of_event he]
  simp only [handle, wrAt, hostWrite]
  rw [regOffset_inside hp h4 hl]
  simp [hb]

/-- The host's read of an aligned word while BUSY is 0 (40_control R131). -/
theorem step_of_read {s : State} {off : Nat} {rest : List Event} (hp : s.params.wf = true)
    (h4 : off % 4 = 0) (hl : off < 0x100) (he : s.events = .rd .word (s.params.cfuBase + off) :: rest)
    (hb : s.regs.busy = false) :
    step s = .next { s with
      events := rest
      hostRead := some (readReg { s with events := rest } (regAt off)) } := by
  rw [step_of_event he]
  simp only [handle, hostRead]
  rw [regOffset_inside hp h4 hl]
  simp [hb]

/-- A command that is legal where it is issued executes (40_control R132). -/
theorem exec_of_legal {i : Instr} {s : State} (h : s.regs.phase ≠ .failed) (hl : legal i s.regs.phase = true) :
    exec i s = .next (settle i s (bodyOf i (s.setBusy true))) := by
  rw [exec_eq_issue, issue_execute (admission_execute h hl)]

end Sys2Proof.Machine
end

