-- ==== Sys2Proof/Tests/Slice0.lean ====
section
/-! SUPPORT. Tests: words and byte sequences written out from the spec, one step each, and for every
obligation with hypotheses a concrete case that meets them. -/

namespace Sys2Proof.Tests

open Sys2Proof Sys2Proof.Machine

set_option Elab.async false

/-! ### Helpers -/

/-- An instance with the spec's magic, 8 bytes of BUF and its registers at 0x100. -/
def small : Params := ⟨⟨0x5A, 0x58, 0x43, 0x00⟩, 8, 0x100⟩

/-- A CFU in a phase, with bytes in IN and EOS set. -/
def cfu (p : Phase) (q : List Byte) : State :=
  { State.reset with params := small, regs.phase := p, inq := q, eos := true }

/-- The same while IN may still grow. -/
def mayGrow (s : State) : State := { s with eos := false }

/-- A buffer that holds bytes. -/
def holding (bs : List Byte) (s : State) : State := (memWrite 0 bs s).setBufLen (BitVec.ofNat 32 bs.length)

/-- The operations that arrive next. -/
def arriving (es : List Event) (s : State) : State := { s with events := es }

/-- The state a fault left: ChecksumMismatch in P_BODY. -/
def failedCfu : State := raise .checksumMismatch (cfu .pBody [])

/-- A BUF.LD that waits for its second byte. -/
def waitingCfu : State :=
  { ((mayGrow (cfu .idle [])).setXlen 2).setBusy true with
    running := some ⟨.bufLd, ((cfu .idle []).setXlen 2).regs, [0x41]⟩, regs.inCnt := 1 }

/-- The next state, if there is one. -/
def nextOf (o : Host.Outcome State Fault Refusal) : Option State :=
  match o with
  | .next t => some t
  | _ => none

/-- What is seen of the next state. -/
def seen {α : Type} (f : State → α) (o : Host.Outcome State Fault Refusal) : Option α := (nextOf o).map f

/-- STATUS as the host reads it. -/
def status (s : State) : Word := readReg s .status

theorem next_of_seen {o : Host.Outcome State Fault Refusal} {p : State → Bool} (h : seen p o = some true) :
    ∃ t, o = .next t ∧ p t = true := by
  cases o with
  | next t => exact ⟨t, rfl, by simpa [seen, nextOf] using h⟩
  | fault f => simp [seen, nextOf] at h
  | refused r => simp [seen, nextOf] at h

theorem next_exists {o : Host.Outcome State Fault Refusal} (h : (nextOf o).isSome = true) : ∃ t, o = .next t := by
  cases o with
  | next t => exact ⟨t, rfl⟩
  | fault f => simp [nextOf] at h
  | refused r => simp [nextOf] at h

theorem inv_of_still {s : State} (hp : s.params.wf = true) (h : RegsInv s.params s.regs)
    (hb : s.regs.busy = false) (hr : s.running = none) : Inv s :=
  ⟨hp, h, by rw [hb, hr]; rfl, by rw [hr]; exact fun _ h => nomatch h⟩

/-! ### Well-formedness: what each check refuses (30_encoding R93; 00_scope R6) -/

theorem test_wf_refuses_high_bits : commandWordWf 0x00000200 = false := by decide
theorem test_wf_refuses_top_bit : commandWordWf 0x80000000 = false := by decide
theorem test_wf_refuses_stray_t : commandWordWf 0x00000133 = false := by decide
theorem test_wf_refuses_unlisted_opcode : commandWordWf 0x0000003B = false := by decide
theorem test_wf_accepts_frm_end_t : commandWordWf 0x00000132 = true := by decide
theorem test_wf_refuses_empty_buffer : Params.wf ⟨⟨0, 0, 0, 0⟩, 0, 0x100⟩ = false := by decide
theorem test_wf_refuses_unaligned_base : Params.wf ⟨⟨0, 0, 0, 0⟩, 8, 0x104⟩ = false := by decide
theorem test_wf_accepts_small : small.wf = true := by decide

/-! ### Decoding: each command's word, bit by bit from 30_encoding R92 -/

theorem test_decode_nop : decode 0b00000000000000000000000000000000 = .command .nop := by decide
theorem test_decode_reset : decode 0b00000000000000000000000000000001 = .command .reset := by decide
theorem test_decode_bufLd : decode 0b00000000000000000000000000010000 = .command .bufLd := by decide
theorem test_decode_bufSt : decode 0b00000000000000000000000000010001 = .command .bufSt := by decide
theorem test_decode_ckBlk : decode 0b00000000000000000000000000100000 = .command .ckBlk := by decide
theorem test_decode_ckVfy : decode 0b00000000000000000000000000100001 = .command .ckVfy := by decide
theorem test_decode_ckFinit : decode 0b00000000000000000000000000100010 = .command .ckFinit := by decide
theorem test_decode_ckFabs : decode 0b00000000000000000000000000100011 = .command .ckFabs := by decide
theorem test_decode_ckFbuf : decode 0b00000000000000000000000000100100 = .command .ckFbuf := by decide
theorem test_decode_hdrWr : decode 0b00000000000000000000000000110000 = .command .hdrWr := by decide
theorem test_decode_recWr : decode 0b00000000000000000000000000110001 = .command .recWr := by decide
theorem test_decode_frmEnd : decode 0b00000000000000000000000000110010 = .command (.frmEnd false) := by decide
theorem test_decode_frmEnd_t : decode 0b00000000000000000000000100110010 = .command (.frmEnd true) := by decide
theorem test_decode_hdrRd : decode 0b00000000000000000000000000111000 = .command .hdrRd := by decide
theorem test_decode_recRd : decode 0b00000000000000000000000000111001 = .command .recRd := by decide
theorem test_decode_frmVfy : decode 0b00000000000000000000000000111010 = .command .frmVfy := by decide

/-- 95_test_vectors 2.1: nine reserved words, each class of R93 among them. -/
theorem test_decode_reserved :
    ([0x00000100, 0x00000002, 0x00000012, 0x0000003B, 0x00000133, 0x00000200, 0x80000000, 0x00010032,
      0xFFFFFFFF] : List Word).map decode =
      [.reserved .strayT, .reserved .unlistedOpcode, .reserved .unlistedOpcode, .reserved .unlistedOpcode,
        .reserved .strayT, .reserved .highBits, .reserved .highBits, .reserved .highBits,
        .reserved .highBits] := by decide

theorem test_table_word_decodes : decodeTableWord 32 0x132 = some (.frmEnd true) := by decide

/-! ### The digest and the field encodings (95_test_vectors 2.3, 2.5) -/

theorem test_digest_abc : digest [0x61, 0x62, 0x63] = 0x352441C2 := by decide +kernel
theorem test_digest_ones : digest [0xFF, 0xFF, 0xFF, 0xFF] = 0xFFFFFFFF := by decide +kernel
theorem test_le32 : le32 0xCBF43926 = [0x26, 0x39, 0xF4, 0xCB] := by decide
theorem test_varint :
    ([0, 127, 128, 300, 65536, 2097152, 0x80000000, 0xFFFFFFFF] : List Word).map varint =
      [[0x00], [0x7F], [0x80, 0x01], [0xAC, 0x02], [0x80, 0x80, 0x04], [0x80, 0x80, 0x80, 0x01],
        [0x80, 0x80, 0x80, 0x80, 0x08], [0xFF, 0xFF, 0xFF, 0xFF, 0x0F]] := by decide

/-- What reading a varint from these bytes gives: the value or the fault, and what is left. -/
def varintSeen (q : List Byte) : (Option Word) × ErrCode × List Byte :=
  match varintRead (cfu .pBody q) with
  | .ok v s => (some v, .none, s.inq)
  | .raised s => (none, s.regs.err, s.inq)
  | .wait s => (none, .none, s.inq)

theorem test_varint_read_accepts : varintSeen [0x80, 0x80, 0x80, 0x80, 0x08] = (some 0x80000000, .none, []) := by
  decide
theorem test_varint_read_leaves_rest : varintSeen [0x00, 0x55] = (some 0, .none, [0x55]) := by decide
theorem test_varint_read_faults :
    [[0xFF, 0x80, 0x00], [0xFF, 0xFF, 0xFF, 0xFF, 0x10], [0x80, 0x80, 0x80, 0x80, 0x80, 0x01],
      [0xFF, 0xFF, 0xFF, 0xFF]].map varintSeen =
      [(none, .malformedBlock, []), (none, .malformedBlock, []), (none, .malformedBlock, [0x01]),
        (none, .truncatedStream, [])] := by decide

/-! ### One step of each command (95_test_vectors, the part in each comment) -/

-- 2.1
theorem test_nop : nextOf (exec .nop (cfu .sBody [])) = some (cfu .sBody []) := by decide
-- 2.10
theorem test_reset : seen status (exec .reset failedCfu) = some 0 ∧ status failedCfu = 0x0000025F := by decide
-- 2.2
theorem test_bufLd : seen (fun t => (bufContent t, t.inq, t.regs.inCnt))
    (exec .bufLd ((cfu .idle [0x41, 0x42, 0x43, 0x44]).setXlen 3)) =
      some ([0x41, 0x42, 0x43], [0x44], 3) := by decide
theorem test_bufLd_truncated : seen (fun t => (status t, t.regs.bufLen, t.regs.inCnt))
    (exec .bufLd ((cfu .idle [0x41, 0x42, 0x43]).setXlen 4)) = some (0x0000003F, 0, 3) := by decide
theorem test_bufSt : seen (fun t => (t.out, t.regs.outCnt, bufContent t))
    (exec .bufSt (holding [0x41, 0x42, 0x43] (cfu .idle []))) =
      some ([0x41, 0x42, 0x43], 3, [0x41, 0x42, 0x43]) := by decide
-- 2.3, 2.4
theorem test_ckBlk : seen (fun t => t.regs.blkDigest)
    (exec .ckBlk (holding [0xAA, 0xBB, 0xCC] (cfu .sBody []))) = some 0xBE4DF84C := by decide +kernel
theorem test_ckVfy : seen status
    (exec .ckVfy ((holding [0x61] (cfu .idle [])).setRecCk 0xE8B7BE43)) = some 0 := by decide +kernel
theorem test_ckVfy_mismatch : seen (fun t => (status t, t.regs.blkDigest))
    (exec .ckVfy ((cfu .idle []).setRecCk 1)) = some (0x0000005F, 0) := by decide +kernel
theorem test_ckFinit : seen frmDigest (exec .ckFinit ((cfu .idle []).setFrmAcc 5)) = some 0 := by decide
theorem test_ckFabs : seen (fun t => (frmDigest t, t.regs.inCnt))
    (exec .ckFabs ((cfu .idle [0x68, 0x65, 0x6C, 0x6C, 0x6F, 0x77]).setXlen 5)) = some (0x3610A686, 5) := by
  decide +kernel
theorem test_ckFabs_truncated : seen (fun t => (status t, frmDigest t, t.regs.inCnt))
    (exec .ckFabs ((cfu .idle [0x68, 0x65, 0x6C]).setXlen 5)) = some (0x0000003F, 0xE50BF11B, 3) := by
  decide +kernel
theorem test_ckFbuf_twice : seen frmDigest
    (exec .ckFbuf ((holding [0x68, 0x65, 0x6C, 0x6C, 0x6F] (cfu .idle [])).setFrmAcc (0x3610A686 ^^^ 0xFFFFFFFF))) =
      some 0xF58C9768 := by decide +kernel
-- 2.6
theorem test_hdrWr : seen (fun t => (t.out, t.regs.outCnt, status t))
    (exec .hdrWr (((cfu .idle []).setFlags 1).setBlksz 128)) =
      some ([0x5A, 0x58, 0x43, 0x00, 0x10, 0x01, 0x80, 0x01], 8, 0x00000001) := by decide
theorem test_hdrWr_no_block_size : seen (fun t => (t.out, status t)) (exec .hdrWr (cfu .idle [])) =
    some ([], 0x0000009F) := by decide
theorem test_recWr : seen (fun t => (t.out, t.regs.recCk, t.regs.seq))
    (exec .recWr ((((holding [0xAA, 0xBB, 0xCC] (cfu .sBody [])).setFlags 1).setBlksz 16).setOrigLen 10)) =
      some ([0x00, 0x0A, 0x03, 0x4C, 0xF8, 0x4D, 0xBE, 0xAA, 0xBB, 0xCC], 0xBE4DF84C, 1) := by decide +kernel
theorem test_recWr_too_long : seen (fun t => (t.out, status t))
    (exec .recWr (((holding [0xAA, 0xBB, 0xCC] (cfu .sBody [])).setBlksz 16).setOrigLen 17)) =
      some ([], 0x0000019F) := by decide
theorem test_frmEnd_t : seen (fun t => (t.out, t.regs.recTag, t.regs.recCk, status t))
    (exec (.frmEnd true) ((cfu .sBody []).setFlags 1)) =
      some ([0x06, 0x00, 0x00, 0x00, 0x00], 0x06, 0, 0x00000004) := by decide
theorem test_frmEnd_t_without_checksums : seen (fun t => (t.out, status t))
    (exec (.frmEnd true) (cfu .sBody [])) = some ([], 0x0000019F) := by decide
-- 2.7
theorem test_hdrRd : seen (fun t => (status t, t.regs.blksz, t.regs.inCnt, t.inq))
    (exec .hdrRd (cfu .idle [0x5A, 0x58, 0x43, 0x00, 0x10, 0x01, 0x80, 0x80, 0x04, 0x06])) =
      some (0x00000002, 65536, 9, [0x06]) := by decide
theorem test_hdrRd_version : seen (fun t => (status t, t.regs.version, t.regs.inCnt, t.inq))
    (exec .hdrRd (cfu .idle [0x5A, 0x58, 0x43, 0x00, 0x11, 0x00, 0x05])) =
      some (0x0000002F, 0x11, 5, [0x00, 0x05]) := by decide
-- 2.8
theorem test_recRd : seen (fun t => (status t, t.regs.blkDigest, bufContent t, t.regs.totOrig))
    (exec .recRd ((cfu .pBody [0x01, 0x05, 0x05, 0x86, 0xA6, 0x10, 0x36, 0x68, 0x65, 0x6C, 0x6C, 0x6F]).setFlags 1)) =
      some (0x00000002, 0x3610A686, [0x68, 0x65, 0x6C, 0x6C, 0x6F], 5) := by decide +kernel
theorem test_recRd_changed_byte : seen (fun t => (status t, t.regs.blkDigest, t.regs.recCk, t.regs.seq))
    (exec .recRd ((cfu .pBody [0x01, 0x05, 0x05, 0x86, 0xA6, 0x10, 0x36, 0x69, 0x65, 0x6C, 0x6C, 0x6F]).setFlags 1)) =
      some (0x0000025F, 0x0B708F36, 0x3610A686, 0) := by decide +kernel
-- 2.9
theorem test_frmVfy_mismatch : seen status (exec .frmVfy ((cfu .pTrailer []).setRecCk 0x3610A686)) =
    some 0x0000035F := by decide
theorem test_frmVfy_off : seen status
    (exec .frmVfy (((cfu .pTrailer []).setRecCk 0x3610A686).setVerify false)) = some 0x00000004 := by decide

/-! ### Host and environment -/

-- 95_test_vectors 2.1
theorem test_host_write_flags : seen (fun t => t.regs.flags)
    (step (arriving [wrAt small 0x0C 0xFF] (cfu .idle []))) = some 0x01 := by decide
theorem test_host_write_flags_gated : seen (fun t => (status t, t.regs.flags))
    (step (arriving [wrAt small 0x0C 1] (cfu .sBody []))) = some (0x0000019F, 0x00) := by decide
theorem test_host_write_ignored_when_failed : seen (fun t => (status t, t.regs.xlen))
    (step (arriving [wrAt small 0x28 7] failedCfu)) = some (0x0000025F, 0) := by decide
theorem test_host_read_bufcap : seen (·.hostRead)
    (step (arriving [.rd .word 0x158] (cfu .idle []))) = some (some 8) := by decide

-- 20_memory R67; 70_reset R260
theorem test_wait_then_input : seen (fun t => (bufContent t, t.regs.inCnt, t.regs.busy))
    (step (arriving [.input [0x42, 0x43]] waitingCfu)) = some ([0x41, 0x42], 2, false) := by decide
theorem test_wait_then_end : seen (fun t => (status t, t.regs.inCnt))
    (step (arriving [.endOfStream] waitingCfu)) = some (0x0000003F, 1) := by decide
theorem test_wait_for_ever : step waitingCfu = .fault .stuckWaiting := rfl

-- withFetchWord runs the word as the first operation after reset.
theorem test_fetch_word : seen status (step (State.reset.withFetchWord 32 0x31)) = some 0x0000009F := by decide

/-! ### Witnesses: a concrete case that meets an obligation's hypotheses, clause by clause -/

/-- A CFU at which the host's write of an aligned word arrives. -/
def hostCfu (p : Phase) (off : Nat) (v : Word) : State := arriving [wrAt small off v] (cfu p [])

theorem witness_DecodeInvertsEncode :
    decode 0x00000132 = .command (.frmEnd true) ∧ (0x00000132 : Word) = encode (.frmEnd true) := by decide

theorem witness_VarintLengthAndContinuation :
    4 < (varint 0xFFFFFFFF).length ∧ 0 < (varint 0).length ∧ 1 < (varint 128).length := by decide

theorem witness_VarintReadAcceptsExactlyVarint :
    (cfu .idle [0xAC, 0x02, 0x07]).inq = varint 300 ++ [0x07] ∧
    (cfu .idle [0xFF, 0xFF, 0xFF, 0xFF, 0x0F]).inq = varint 0xFFFFFFFF ++ [] ∧
    varintRead (cfu .idle [0xFF, 0xFF, 0xFF, 0xFF, 0x0F])
      = .ok 0xFFFFFFFF (consume 5 (cfu .idle [0xFF, 0xFF, 0xFF, 0xFF, 0x0F])) := by decide

/-- The second byte of a varint is not 0, and its first has bit 7 clear when it is the only one. -/
theorem varint_shape (v : Word) :
    (∃ b : Byte, varint v = [b] ∧ b.getLsbD 7 = false) ∨
    (∃ (b : Byte) (t : List Byte), varint v = b :: t ∧ t ≠ [] ∧ t.head? ≠ some 0x00) := by
  unfold varint varintBytes
  dsimp only
  by_cases h : v >>> 7 = 0
  · rw [if_neg (by simpa using h)]
    exact .inl ⟨_, rfl, by simp⟩
  · rw [if_pos h]
    refine .inr ⟨_, _, rfl, ?_, ?_⟩
    · unfold varintBytes; dsimp only; split <;> simp
    · unfold varintBytes
      dsimp only
      split
      · intro hc
        have h8 := congrArg (fun b : Option Byte => (b.getD 0).getLsbD 7) hc
        simp at h8
      · rename_i h2
        intro hc
        apply h
        have hb : (v >>> 7).extractLsb' 0 8 &&& 0x7F = (0x00 : Byte) := by simpa using hc
        have h2 : v >>> 7 >>> 7 = 0 := by simpa using h2
        have hn := congrArg BitVec.toNat h2
        have hm := congrArg BitVec.toNat hb
        simp only [BitVec.toNat_ushiftRight, BitVec.toNat_and, BitVec.extractLsb'_toNat,
          Nat.shiftRight_eq_div_pow] at hn hm
        rw [show BitVec.toNat (127 : Byte) = 2 ^ 7 - 1 from rfl, Nat.and_two_pow_sub_one_eq_mod] at hm
        apply BitVec.eq_of_toNat_eq
        rw [BitVec.toNat_ushiftRight, Nat.shiftRight_eq_div_pow]
        change _ = 0
        change _ = 0 at hn
        change _ = 0 at hm
        omega

/-- The fifth byte of a varint is at most `0x0F`. -/
theorem varint_fifth (v : Word) : ((varint v).getD 4 0).getLsbD 4 = false := by
  unfold varint
  by_cases h : v >>> 7 = 0
  · rw [varintBytes_last _ h]; simp
  by_cases h2 : v >>> 7 >>> 7 = 0
  · rw [varintBytes_more _ h, varintBytes_last _ h2]; simp
  by_cases h3 : v >>> 7 >>> 7 >>> 7 = 0
  · rw [varintBytes_more _ h, varintBytes_more _ h2, varintBytes_last _ h3]; simp
  by_cases h4 : v >>> 7 >>> 7 >>> 7 >>> 7 = 0
  · rw [varintBytes_more _ h, varintBytes_more _ h2, varintBytes_more _ h3, varintBytes_last _ h4]; simp
  · rw [varintBytes_more _ h, varintBytes_more _ h2, varintBytes_more _ h3, varintBytes_more _ h4, varintBytes]; simp

/-- `80 00` is not the shortest form of 0 (95_test_vectors 2.5). -/
theorem illFormed_notShortest : IllFormedVarint [0x80, 0x00] := by
  refine ⟨⟨128, by decide, by decide⟩, fun v h => ?_⟩
  rcases varint_shape v with ⟨b, hv, hb⟩ | ⟨b, t, hv, ht, hh⟩ <;> rw [hv] at h
  · exact absurd h.length_le (by simp)
  · obtain ⟨r, hr⟩ := h
    exact hh (by rw [← (List.cons.inj hr).2]; rfl)

/-- `FF FF FF FF 10` has 33 bits (95_test_vectors 2.5). -/
theorem illFormed_tooLarge : IllFormedVarint [0xFF, 0xFF, 0xFF, 0xFF, 0x10] := by
  refine ⟨⟨0xFFFFFFFF, by decide, by decide⟩, fun v ⟨r, hr⟩ => ?_⟩
  have h := varint_fifth v
  rw [← hr] at h
  simp at h

/-- Four bytes of the longest encoding. -/
theorem unfinished_four : UnfinishedVarint [0xFF, 0xFF, 0xFF, 0xFF] := ⟨0xFFFFFFFF, by decide, by decide⟩

/-- MalformedBlock on `80 00 07`, at the second byte; TruncatedStream on `80`, which begins `varint 128`. -/
theorem witness_VarintReadFaults :
    (∀ v, ¬ varint v <+: (cfu .idle [0x80, 0x00, 0x07]).inq) ∧
    (∀ v, ¬ (cfu .idle [0x80, 0x00, 0x07]).inq <+: varint v) ∧
    IllFormedVarint ((cfu .idle [0x80, 0x00, 0x07]).inq.take 2) ∧
    (cfu .idle [0x80]).inq <+: varint 128 ∧ (cfu .idle [0x80]).inq ≠ varint 128 ∧ (cfu .idle [0x80]).eos = true := by
  refine ⟨fun v h => ?_, fun v h => ?_, illFormed_notShortest, by decide, by decide, rfl⟩
  · rcases varint_shape v with ⟨b, hv, hb⟩ | ⟨b, t, hv, ht, hh⟩ <;> rw [hv] at h
    · obtain ⟨r, hr⟩ := h
      have : b = 0x80 := (List.cons.inj hr).1
      subst this
      exact absurd hb (by decide)
    · obtain ⟨r, hr⟩ := h
      have hr := (List.cons.inj hr).2
      cases t with
      | nil => exact ht rfl
      | cons c t => exact hh (by rw [(List.cons.inj hr).1]; rfl)
  · exact illFormed_notShortest.2 v ((show [0x80, 0x00] <+: (cfu .idle [0x80, 0x00, 0x07]).inq by decide).trans h)

/-- Three original bytes in two records of at most two. -/
theorem witness_FrameSizeBound :
    let recs : List Rec := [⟨true, 2, [1, 2]⟩, ⟨true, 1, [3]⟩]
    1 ≤ 2 ∧ (recs.map fun r => r.origLen.toNat).sum = 3 ∧ recs.length = (3 + 2 - 1) / 2 ∧
      (∀ r ∈ recs, r.payload.length ≤ r.origLen.toNat) := by decide

theorem witness_DigestDetectsOneChangedByte : (0x68 : Byte) ≠ 0x69 := by decide

theorem witness_StepRunsDecodedCommand :
    let s := hostCfu .sBody 0x00 0x00000132
    s.params.wf = true ∧ s.regs.busy = false ∧ s.events = [wrAt s.params 0x00 0x00000132] ∧
      decode 0x00000132 = .command (.frmEnd true) ∧ (Instr.frmEnd true).wf = true := by decide

theorem witness_ReservedWordRaisesProtocolViolation :
    let s := hostCfu .idle 0x00 0x0000003B
    let f := arriving s.events failedCfu
    s.params.wf = true ∧ s.regs.busy = false ∧ s.events = [wrAt s.params 0x00 0x0000003B] ∧
      decode 0x0000003B = .reserved .unlistedOpcode ∧ s.regs.phase ≠ .failed ∧
      f.params.wf = true ∧ f.regs.busy = false ∧ f.events = [wrAt f.params 0x00 0x0000003B] ∧
      f.regs.phase = .failed := by decide

/-- Every offset of the table, FLAGS and BLKSZ on both sides of their gate, and the first and the last of the
offsets that ignore a write. -/
theorem witness_HostWriteTable :
    (∀ c ∈ [(Phase.idle, 0x08), (.sBody, 0x0C), (.pTrailer, 0x14), (.idle, 0x0C), (.done, 0x14), (.pBody, 0x18),
        (.idle, 0x1C), (.idle, 0x24), (.idle, 0x28), (.idle, 0x04), (.idle, 0xFC)],
      let s := hostCfu c.1 c.2 5
      s.params.wf = true ∧ s.regs.busy = false ∧ s.regs.phase ≠ .failed ∧ s.events = [wrAt s.params c.2 5] ∧
        c.2 % 4 = 0 ∧ c.2 < 0x100 ∧ c.2 ≠ 0x00) ∧
    (0x04 ∉ [0x08, 0x0C, 0x14, 0x18, 0x1C, 0x24, 0x28]) ∧ (0xFC ∉ [0x08, 0x0C, 0x14, 0x18, 0x1C, 0x24, 0x28]) := by
  decide

/-- CMD with another word than RESET's, and the last offset with RESET's word. -/
theorem witness_FailedIgnoresHostWrites :
    ∀ c ∈ [(0x00, (0x00000030 : Word)), (0xFC, 0x00000001)],
      let s := arriving [wrAt small c.1 c.2] failedCfu
      s.params.wf = true ∧ s.regs.busy = false ∧ s.regs.phase = .failed ∧ s.events = [wrAt s.params c.1 c.2] ∧
        c.1 % 4 = 0 ∧ c.1 < 0x100 ∧ ¬ (c.1 = 0x00 ∧ c.2 = 0x00000001) := by decide

/-- The first and the last offset of the table and of the reserved range. -/
theorem witness_HostReadTable :
    ∀ off ∈ [0x00, 0x04, 0x34, 0x58, 0x5C, 0xFC],
      let s := arriving [.rd .word (0x100 + off)] failedCfu
      s.params.wf = true ∧ s.regs.busy = false ∧ s.events = [.rd .word (s.params.cfuBase + off)] ∧ off % 4 = 0 ∧
        off < 0x100 := by decide

theorem witness_BusyAdmitsOnlyStatusReads :
    let s (e : Event) := arriving [e] waitingCfu
    (s (.rd .word 0x104)).params.wf = true ∧ (s (.rd .word 0x104)).regs.busy = true ∧
      (s (.rd .word 0x104)).events = [.rd .word (small.cfuBase + 0x04)] ∧
      (s (.rd .word 0x1FC)).events = [.rd .word (small.cfuBase + 0xFC)] ∧
      (s (.wr .word 0x104 1)).events = [wrAt small 0x04 1] := by decide

/-- A narrow access, a misaligned one, and words just below and just above the register space. -/
theorem witness_BadBusAccessIsRefused :
    (AccessSize.half ≠ .word ∧ 0x102 % 4 ≠ 0) ∧
    (∀ addr ∈ [0xFC, 0x200], addr % 4 = 0 ∧ (addr < small.cfuBase ∨ small.cfuBase + 0x100 ≤ addr)) ∧
    (arriving [.wr .half 0x100 1] (cfu .idle [])).events = [.wr .half 0x100 1] ∧
    (arriving [.rd .word 0xFC] waitingCfu).events = [.rd .word 0xFC] := by decide

/-- Each of the four commands that take from IN can wait. -/
theorem witness_WaitingIsNoStateChange :
    ∀ c ∈ [(Instr.bufLd, Phase.idle), (.ckFabs, .sBody), (.hdrRd, .done), (.recRd, .pBody)],
      let s := (mayGrow (cfu c.2 [])).setXlen 1
      s.running = none ∧ s.regs.busy = false ∧ seen (fun t => t.regs.busy) (exec c.1 s) = some true := by decide

theorem witness_OnlyInputCommandsWait :
    ∃ t, exec .recRd (mayGrow (cfu .pBody [0x01])) = .next t ∧ t.regs.busy = true := next_of_seen (by decide)

theorem witness_HardResetRestoresRegisters :
    (arriving [.hardReset, .input [1]] waitingCfu).events = .hardReset :: [.input [1]] := rfl

/-- Each row of the table has a phase in which the command is refused. -/
theorem witness_IllegalPhaseRaisesProtocolViolation :
    (cfu .sBody []).regs.phase = .sBody ∧ (cfu .pBody []).regs.phase = .pBody ∧
    (cfu .pTrailer []).regs.phase = .pTrailer ∧ (cfu .idle []).regs.phase = .idle ∧
    (cfu .done []).regs.phase = .done := by decide

theorem witness_FailedIgnoresCommands : failedCfu.regs.phase = .failed ∧ Instr.recRd ≠ .reset := by decide

theorem witness_FaultRecordsPhaseSeqAndCode :
    (∃ t, exec .recRd (cfu .pBody []) = .next t ∧ (decide (t.regs.phase = .failed)) = true) ∧
    (cfu .pBody []).regs.phase ≠ .failed := ⟨next_of_seen (by decide), by decide⟩

theorem witness_FaultsOfEachCommand :
    (∃ t, exec .hdrRd (cfu .idle [0x50]) = .next t ∧ (decide (t.regs.phase = .failed)) = true) ∧
    (∃ t, exec .hdrRd (cfu .sBody [0x50]) = .next t ∧ (decide (t.regs.phase = .failed)) = true) :=
  ⟨next_of_seen (by decide), next_of_seen (by decide)⟩

theorem regs_failedCfu : RegsInv small failedCfu.regs := by constructor <;> decide

theorem regs_cfu_idle : RegsInv small (cfu .idle []).regs := by constructor <;> decide

theorem inv_failedCfu (es : List Event) : Inv (arriving es failedCfu) :=
  inv_of_still test_wf_accepts_small regs_failedCfu rfl rfl

theorem inv_cfu_idle (q : List Byte) (es : List Event) : Inv (arriving es (cfu .idle q)) :=
  inv_of_still test_wf_accepts_small regs_cfu_idle rfl rfl

theorem witness_FirstFaultStays :
    let s := arriving [wrAt small 0x00 0x00000000] failedCfu
    Inv s ∧ s.regs.phase = .failed ∧ (∃ t, step s = .next t) ∧ commandOf s ≠ some .reset ∧
      s.events.head? ≠ some .hardReset :=
  ⟨inv_failedCfu _, rfl, next_exists (by decide), by decide, by decide⟩

/-- A command that changes PHASE, a write that raises, and a hard reset. -/
theorem witness_PhaseMachine :
    (∀ es, Inv (arriving es (cfu .idle [0x5A, 0x58, 0x43, 0x00, 0x10, 0x00, 0x05]))) ∧
    (∃ t, step (arriving [wrAt small 0x00 0x00000038] (cfu .idle [0x5A, 0x58, 0x43, 0x00, 0x10, 0x00, 0x05]))
      = .next t ∧ (decide (t.regs.phase = .pBody)) = true) ∧
    (∃ t, step (arriving [wrAt small 0x00 0x00000039] (cfu .idle [])) = .next t ∧
      (decide (t.regs.phase = .failed)) = true) ∧
    (∃ t, step (arriving [.hardReset] failedCfu) = .next t ∧ (decide (t.regs.phase = .idle)) = true) :=
  ⟨fun es => inv_cfu_idle _ es, next_of_seen (by decide), next_of_seen (by decide), next_of_seen (by decide)⟩

/-- A waiting CFU satisfies the invariant, and its next byte ends the wait. -/
theorem witness_StepKeepsInvariant :
    Inv (arriving [.input [0x42]] waitingCfu) ∧
    (∃ t, step (arriving [.input [0x42]] waitingCfu) = .next t ∧ (decide (t.regs.busy = false)) = true) := by
  refine ⟨⟨by decide, by constructor <;> decide, rfl, fun r hr => ?_⟩, next_of_seen (by decide)⟩
  cases hr
  exact ⟨by decide, rfl, rfl, by decide, rfl, by constructor <;> decide, rfl⟩

theorem witness_CommandFrames : ∃ t, exec .ckFinit (cfu .idle []) = .next t := next_exists (by decide)

theorem witness_NopDoesNothing : (cfu .done []).regs.phase ≠ .failed ∧ failedCfu.regs.phase = .failed := by decide

/-- XLEN 0, and XLEN equal to BUF_BYTES. -/
theorem witness_BufLdLoadsXlenBytes :
    ∀ p ∈ [([] : List Byte), [1, 2, 3, 4, 5, 6, 7, 8]],
      let s := (cfu .sBody (p ++ [9])).setXlen (BitVec.ofNat 32 p.length)
      s.regs.phase ≠ .failed ∧ s.regs.xlen ≤ s.params.bufBytes ∧ s.inq = p ++ [9] ∧
        p.length = s.regs.xlen.toNat := by decide

/-- XLEN one above BUF_BYTES, and one byte missing. -/
theorem witness_BufLdFaults :
    (cfu .sBody []).regs.phase ≠ .failed ∧ ¬ ((cfu .sBody []).setXlen 9).regs.xlen ≤ small.bufBytes ∧
    (let s := (cfu .sBody [1]).setXlen 2
     s.regs.phase ≠ .failed ∧ s.regs.xlen ≤ s.params.bufBytes ∧ s.inq.length < s.regs.xlen.toNat ∧
       s.eos = true) := by decide

theorem witness_BufStEmitsContent : (holding [1] (cfu .pBody [])).regs.phase ≠ .failed ∧
    failedCfu.regs.phase = .failed := by decide

theorem witness_CkBlkStoresDigest : (holding [1] (cfu .pBody [])).regs.phase ≠ .failed ∧
    failedCfu.regs.phase = .failed := by decide

theorem witness_CkVfyComparesWithRecCk :
    (cfu .idle []).regs.phase ≠ .failed ∧ digest (bufContent (cfu .idle [])) = (cfu .idle []).regs.recCk ∧
    digest (bufContent (cfu .idle [])) ≠ ((cfu .idle []).setRecCk 1).regs.recCk := by decide

theorem witness_CkFinitRestartsAccumulator : (cfu .pTrailer []).regs.phase ≠ .failed ∧
    failedCfu.regs.phase = .failed := by decide

theorem witness_CkFabsFoldsInput :
    (let s := (cfu .pBody [1, 2, 3]).setXlen 2
     s.regs.phase ≠ .failed ∧ s.inq = [1, 2] ++ [3] ∧ ([1, 2] : List Byte).length = s.regs.xlen.toNat) ∧
    (let s := (cfu .pBody [1, 2, 3]).setXlen 4
     s.inq.length < s.regs.xlen.toNat ∧ s.eos = true) := by decide

theorem witness_CkFbufFoldsContent : (holding [1] (cfu .done [])).regs.phase ≠ .failed ∧
    failedCfu.regs.phase = .failed := by decide

theorem witness_HdrWrBeginsFrame :
    ((cfu .done []).setBlksz 1).regs.phase = .done ∧ ((cfu .done []).setBlksz 1).regs.blksz ≠ 0 ∧
    (cfu .idle []).regs.phase = .idle ∧ (cfu .idle []).regs.blksz = 0 ∧ (cfu .pTrailer []).regs.phase = .pTrailer ∧
    failedCfu.regs.phase = .failed := by decide

/-- A stored record with ORIG_LEN equal to BLKSZ. -/
theorem witness_RecWrWritesRecord :
    let s := (((holding [1, 2] (cfu .sBody [])).setOrigLen 2).setBlksz 2).setRecTag 1
    s.regs.phase = .sBody ∧ s.regs.origLen ≤ s.regs.blksz ∧ s.regs.recTag.getLsbD 0 = true ∧
      s.regs.bufLen = s.regs.origLen := by decide

/-- ORIG_LEN one above BLKSZ, and a stored record with another length. -/
theorem witness_RecWrRefusesBadLengths :
    let s := ((cfu .sBody []).setOrigLen 3).setBlksz 2
    let t := (((holding [1, 2] (cfu .sBody [])).setOrigLen 1).setBlksz 2).setRecTag 1
    s.regs.phase = .sBody ∧ ¬ s.regs.origLen ≤ s.regs.blksz ∧
      t.regs.phase = .sBody ∧ t.regs.recTag.getLsbD 0 = true ∧ t.regs.bufLen ≠ t.regs.origLen := by decide

theorem witness_FrmEndEndsFrame :
    (cfu .sBody []).regs.phase = .sBody ∧ ((cfu .sBody []).setFlags 1).regs.flags.getLsbD 0 = true ∧
    (cfu .sBody []).regs.flags.getLsbD 0 = false ∧ (cfu .done []).regs.phase = .done ∧
    failedCfu.regs.phase = .failed := by decide

theorem witness_HdrRdReadsHeader :
    let s := cfu .done [0x5A, 0x58, 0x43, 0x00, 0x10, 0x01, 0xFF, 0xFF, 0xFF, 0xFF, 0x0F, 0x02]
    s.regs.phase = .done ∧ s.inq = s.params.magic.bytes ++ [0x10, 0x01] ++ varint 0xFFFFFFFF ++ [0x02] := by decide

/-- The first and the last byte of the magic, another minor version, a reserved flag bit, and a block size of 33
bits with one byte behind it. -/
theorem witness_HdrRdHeaderFaults :
    (cfu .idle [0x50]).inq = small.magic.bytes.take 0 ++ 0x50 :: [] ∧ (0x50 : Byte) ≠ small.magic.bytes.getD 0 0 ∧
    (cfu .idle [0x5A, 0x58, 0x43, 0x01, 9]).inq = small.magic.bytes.take 3 ++ 0x01 :: [9] ∧
    (0x01 : Byte) ≠ small.magic.bytes.getD 3 0 ∧
    (cfu .idle [0x5A, 0x58, 0x43, 0x00, 0x11]).inq = small.magic.bytes ++ 0x11 :: [] ∧ (0x11 : Byte) ≠ 0x10 ∧
    (cfu .done [0x5A, 0x58, 0x43, 0x00, 0x10, 0x02]).inq = small.magic.bytes ++ 0x10 :: 0x02 :: [] ∧
    (0x02 : Byte) ≠ 0x00 ∧ (0x02 : Byte) ≠ 0x01 ∧
    (cfu .done [0x5A, 0x58, 0x43, 0x00, 0x10, 0x01, 0xFF, 0xFF, 0xFF, 0xFF, 0x10, 9]).inq
      = small.magic.bytes ++ 0x10 :: 0x01 :: ([0xFF, 0xFF, 0xFF, 0xFF, 0x10] ++ [9]) ∧
    IllFormedVarint [0xFF, 0xFF, 0xFF, 0xFF, 0x10] :=
  ⟨by decide, by decide, by decide, by decide, by decide, by decide, by decide, by decide, by decide, by decide,
    illFormed_tooLarge⟩

/-- IN ends before the magic, behind it, behind the version, behind the flags byte, and before the fifth byte of the
block size. -/
theorem witness_HdrRdHeaderFaults_truncated :
    (cfu .idle []).eos = true ∧ (cfu .idle []).inq = small.magic.bytes.take 0 ∧
    (cfu .idle [0x5A, 0x58, 0x43, 0x00]).inq = small.magic.bytes.take 4 ∧
    (cfu .idle [0x5A, 0x58, 0x43, 0x00, 0x10]).inq = small.magic.bytes ++ [0x10] ∧
    (cfu .done [0x5A, 0x58, 0x43, 0x00, 0x10, 0x00]).inq = small.magic.bytes ++ 0x10 :: 0x00 :: [] ∧
    UnfinishedVarint [] ∧
    (cfu .done [0x5A, 0x58, 0x43, 0x00, 0x10, 0x01, 0xFF, 0xFF, 0xFF, 0xFF]).inq
      = small.magic.bytes ++ 0x10 :: 0x01 :: [0xFF, 0xFF, 0xFF, 0xFF] ∧
    UnfinishedVarint [0xFF, 0xFF, 0xFF, 0xFF] :=
  ⟨rfl, by decide, by decide, by decide, by decide, unfinishedVarint_nil, by decide, unfinished_four⟩

/-- A record whose payload fills BUF. -/
def fullRec : Rec := ⟨true, 8, [1, 2, 3, 4, 5, 6, 7, 8]⟩

theorem witness_RecRdReadsRecord :
    let s := (cfu .pBody (recordHead 1 8 8 ++ le32 (digest fullRec.payload) ++ fullRec.payload ++ [9])).setFlags 1
    s.regs.phase = .pBody ∧ recOk s.params.bufBytes fullRec ∧ s.regs.flags.getLsbD 0 = true ∧
      s.inq = recordHead (zextBit fullRec.stored) fullRec.origLen (BitVec.ofNat 32 fullRec.payload.length)
        ++ (if s.regs.flags.getLsbD 0 then le32 (digest fullRec.payload) else []) ++ fullRec.payload ++ [9] := by
  unfold recOk; decide +kernel

theorem witness_RecRdRejectsWrongDigest :
    let s := (cfu .pBody (recordHead 1 8 8 ++ le32 1 ++ fullRec.payload)).setFlags 1
    s.regs.phase = .pBody ∧ s.regs.flags.getLsbD 0 = true ∧ s.regs.verify = true ∧
      recOk s.params.bufBytes fullRec ∧ (1 : Word) ≠ digest fullRec.payload ∧
      s.inq = recordHead (zextBit fullRec.stored) fullRec.origLen (BitVec.ofNat 32 fullRec.payload.length)
        ++ le32 1 ++ fullRec.payload ++ [] := by
  unfold recOk; decide +kernel

theorem witness_CorruptPayloadIsCaught :
    let good : Rec := ⟨true, 2, [0x68] ++ 0x65 :: []⟩
    let s := (cfu .pBody (recordHead 1 2 2 ++ le32 (digest [0x68, 0x65]) ++ [0x68, 0x66])).setFlags 1
    s.regs.phase = .pBody ∧ s.regs.flags.getLsbD 0 = true ∧ s.regs.verify = true ∧
      recOk s.params.bufBytes good ∧ (0x65 : Byte) ≠ 0x66 ∧
      s.inq = recordHead (zextBit true) 2 (BitVec.ofNat 32 good.payload.length)
        ++ le32 (digest good.payload) ++ ([0x68] ++ 0x66 :: []) ++ [] := by
  unfold recOk; decide +kernel

theorem witness_RecRdReadsEndMarker :
    (cfu .pBody [0x02, 0x07]).inq = 0x02 :: [0x07] ∧
    (let s := (cfu .pBody [0x06, 1, 2, 3, 4, 9]).setFlags 1
     s.regs.phase = .pBody ∧ s.inq = 0x06 :: (le32 0x04030201 ++ [9]) ∧ s.regs.flags.getLsbD 0 = true) := by decide

theorem witness_RecRdRejectsIllegalTag :
    (cfu .pBody [0x03]).inq = 0x03 :: [] ∧ (0x03 : Byte) ∉ ([0x00, 0x01, 0x02, 0x06] : List Byte) ∧
    (cfu .pBody [0x06, 1]).inq = 0x06 :: [1] ∧ (cfu .pBody [0x06, 1]).regs.flags.getLsbD 0 = false := by decide

/-- An ill-formed ORIG_LEN and an ill-formed ENC_LEN; stored lengths that differ; one byte more than BUF holds; one
payload byte missing. -/
theorem witness_RecRdLengthFaults :
    (IllFormedVarint [0x80, 0x00] ∧ (cfu .pBody [0x01, 0x80, 0x00]).inq = zextBit true :: [0x80, 0x00] ++ []) ∧
    (IllFormedVarint [0xFF, 0xFF, 0xFF, 0xFF, 0x10] ∧ (cfu .pBody [0x00, 0xAC, 0x02, 0xFF, 0xFF, 0xFF, 0xFF, 0x10, 7]).inq
      = zextBit false :: varint 300 ++ [0xFF, 0xFF, 0xFF, 0xFF, 0x10] ++ [7]) ∧
    ((2 : Word) ≠ 3 ∧ (cfu .pBody [0x01, 0x03, 0x02, 7]).inq = recordHead (zextBit true) 3 2 ++ [7]) ∧
    (¬ (9 : Word) ≤ small.bufBytes ∧ (cfu .pBody [0x00, 0x03, 0x09]).inq = recordHead (zextBit false) 3 9 ++ [] ++ []) ∧
    ((8 : Word) ≤ small.bufBytes ∧ (cfu .pBody [0x01, 0x08, 0x08, 1, 2, 3, 4, 5, 6, 7]).inq
        = recordHead (zextBit true) 8 8 ++ [] ++ [1, 2, 3, 4, 5, 6, 7] ∧
      ([1, 2, 3, 4, 5, 6, 7] : List Byte).length < (8 : Word).toNat ∧ (cfu .pBody []).eos = true) :=
  ⟨⟨illFormed_notShortest, by decide⟩, ⟨illFormed_tooLarge, by decide⟩, by decide, by decide, by decide⟩

/-- IN ends at the tag, before and inside the lengths, and before the last byte of the checksum and of the trailer. -/
theorem witness_RecRdTruncatedBeforePayload :
    ((cfu .pBody []).regs.phase = .pBody ∧ (cfu .pBody []).eos = true ∧ (cfu .pBody []).inq = []) ∧
    (UnfinishedVarint [] ∧ (cfu .pBody [0x01]).inq = zextBit true :: []) ∧
    (UnfinishedVarint [0xFF, 0xFF, 0xFF, 0xFF] ∧
      (cfu .pBody [0x00, 0x05, 0xFF, 0xFF, 0xFF, 0xFF]).inq = zextBit false :: varint 5 ++ [0xFF, 0xFF, 0xFF, 0xFF]) ∧
    (((cfu .pBody []).setFlags 1).regs.flags.getLsbD 0 = true ∧
      ((cfu .pBody [0x01, 0x05, 0x05, 1, 2, 3]).setFlags 1).inq = recordHead (zextBit true) 5 5 ++ [1, 2, 3] ∧
      ((cfu .pBody [0x06, 1, 2, 3]).setFlags 1).inq = 0x06 :: [1, 2, 3] ∧ ([1, 2, 3] : List Byte).length < 4) :=
  ⟨by decide, ⟨unfinishedVarint_nil, by decide⟩, ⟨unfinished_four, by decide⟩, by decide⟩

theorem witness_FrmVfyChecksTrailer :
    (cfu .pTrailer []).regs.phase = .pTrailer ∧
    (cfu .pTrailer []).regs.frmAcc ^^^ 0xFFFFFFFF = (cfu .pTrailer []).regs.recCk ∧
    ((cfu .pTrailer []).setVerify false).regs.verify = false ∧
    (cfu .pTrailer []).regs.verify = true ∧
    ((cfu .pTrailer []).setRecCk 1).regs.frmAcc ^^^ 0xFFFFFFFF ≠ ((cfu .pTrailer []).setRecCk 1).regs.recCk ∧
    (cfu .pBody []).regs.phase = .pBody ∧ failedCfu.regs.phase = .failed := by
  decide

theorem witness_ParserIgnoresBlksz :
    ∃ t, exec .recRd (cfu .pBody [0x01, 0x01, 0x01, 0x41]) = .next t ∧ (decide (t.regs.busy = false)) = true :=
  next_of_seen (by decide)

theorem witness_RecordsAreCheckedBeforeTheyCount :
    let s := (cfu .pBody [0x01, 0x00, 0x00, 0x00, 0x00, 0x00, 0x00]).setFlags 1
    Inv s ∧ s.regs.busy = false ∧ s.regs.flags.getLsbD 0 = true ∧ s.regs.verify = true ∧
      (∃ t, exec .recRd s = .next t ∧ (decide (t.regs.seq ≠ s.regs.seq)) = true) ∧
      s.regs.err ≠ .checksumMismatch ∧ Inv (s.setVerify false) ∧ (s.setVerify false).regs.verify = false ∧
      (∃ t, exec .recRd (s.setVerify false) = .next t) :=
  ⟨inv_of_still (by decide) (by constructor <;> decide) rfl rfl, rfl, by decide, rfl, next_of_seen (by decide),
    by decide, inv_of_still (by decide) (by constructor <;> decide) rfl rfl, rfl, next_exists (by decide)⟩

/-- Two records, one stored and as long as BUF, one coded, with a trailer; and the empty frame. -/
def twoRecs : List Rec := [fullRec, ⟨false, 3, [0xAA, 0xBB]⟩]

theorem witness_SerializerWritesFrame :
    let s := arriving (writeFrameEvents small true 8 twoRecs true ++ [.hardReset]) (cfu .idle (payloads twoRecs ++ [7]))
    Inv s ∧ s.regs.busy = false ∧ s.regs.phase = .idle ∧ (8 : Word) ≠ 0 ∧
      (∀ r ∈ twoRecs, recOk s.params.bufBytes r ∧ r.origLen ≤ 8) ∧
      s.inq = payloads twoRecs ++ [7] ∧ s.events = writeFrameEvents s.params true 8 twoRecs true ++ [.hardReset] :=
  ⟨inv_cfu_idle _ _, rfl, rfl, by decide, by unfold recOk; decide, rfl, rfl⟩

theorem witness_ParserReadsFrame :
    let s := mayGrow (cfu .done (frameBytes small.magic true 0 twoRecs (payloadTrailer true twoRecs) ++ [7]))
    s.regs.phase = .done ∧ s.regs.busy = false ∧ (∀ r ∈ twoRecs, recOk s.params.bufBytes r) ∧ 1 < twoRecs.length ∧
      s.inq = frameBytes s.params.magic true 0 twoRecs (payloadTrailer true twoRecs) ++ [7] :=
  ⟨rfl, rfl, by unfold recOk; decide, by decide, rfl⟩

/-- Cut before the first byte, and cut before the last. -/
theorem witness_TruncatedFrameIsCaught :
    let f := frameBytes small.magic true 8 twoRecs (payloadTrailer true twoRecs)
    let s (k : Nat) := cfu .idle (f.take k)
    0 < f.length ∧ f.length = 36 ∧ (s 35).regs.phase = .idle ∧ (s 35).regs.busy = false ∧ (s 35).eos = true ∧
      (∀ r ∈ twoRecs, recOk (s 35).params.bufBytes r) ∧ (s 0).inq = f.take 0 ∧ (s 35).inq = f.take 35 := by
  unfold recOk; decide +kernel

end Sys2Proof.Tests
end

section
/-! SUPPORT. How the invariant of the registers fares under each named update: one rule per update, so that the
proofs about commands never open it. -/

namespace Sys2Proof.Machine

/-! ### What the loaded values have to be -/

/-- The codes the CFU raises (60_exceptions R228 to R230), as the invariant names them. -/
theorem raised_code_iff (e : ErrCode) :
    e.code ∈ [1, 2, 3, 4, 5, 7, 9] ↔ e ≠ .none ∧ e ≠ .destinationTooSmall ∧ e ≠ .ioFailure := by
  cases e <;> decide

/-- The parser accepts no version but its own, since VER_MINOR is 0 (30_encoding R102). -/
theorem versionAccepted_iff (v : Byte) : versionAccepted v = true ↔ v = Config.versionByte := by
  revert v; decide +kernel

theorem zextBit_mem_legalTags (b : Bool) : zextBit b ∈ legalTags := by cases b <;> decide

theorem endTag_mem_legalTags (t : Bool) : endTag t ∈ legalTags := by cases t <;> decide

theorem recordTag_mem_legalTags {t : Byte} (ht : t = 0x00 ∨ t = 0x01) : t ∈ legalTags := by
  rcases ht with rfl | rfl <;> decide

theorem flagsReserved_zextBit (b : Bool) : flagsReserved (zextBit b) = 0 := by cases b <;> decide

/-- The reset table satisfies the invariant, whatever the parameters (10_state R48). -/
theorem regsInv_reset (p : Params) : RegsInv p Regs.reset where
  bufFits := Nat.zero_le _
  bufCanonical := Memory.nil_wf
  bufInside := fun _ hc => nomatch hc
  bufKnown := fun i hi => absurd hi (Nat.not_lt_zero i)
  errFailed := by decide
  errRaised := by decide
  noFault := fun _ => ⟨rfl, rfl⟩
  ephaseLive := by decide
  flagsLegal := fun _ => rfl
  tagLegal := fun _ => by decide
  versionOwn := fun _ => rfl
  blkszSet := by decide
  trailerCk := by decide
  busyLive := by decide

/-! ### Updates -/

namespace RegsInv

variable {p : Params} {s : State} (h : RegsInv p s.regs)

/-- Both resets restore the table (70_reset R250, R251). -/
theorem resetRegs (p : Params) (r : Regs) : RegsInv p (resetRegs r) := { regsInv_reset p with }

section unconstrained
/-! The invariant says nothing of these registers, nor of IN and OUT. -/

include h

theorem setVerify (v : Bool) : RegsInv p (s.setVerify v).regs := { h with }
theorem setOrigLen (v : Word) : RegsInv p (s.setOrigLen v).regs := { h with }
theorem setEncLen (v : Word) : RegsInv p (s.setEncLen v).regs := { h with }
theorem setRecCk (v : Word) : RegsInv p (s.setRecCk v).regs := { h with }
theorem setXlen (v : Word) : RegsInv p (s.setXlen v).regs := { h with }
theorem setBlkDigest (v : Word) : RegsInv p (s.setBlkDigest v).regs := { h with }
theorem setFrmAcc (v : Word) : RegsInv p (s.setFrmAcc v).regs := { h with }
theorem consume (k : Nat) : RegsInv p (consume k s).regs := { h with }
theorem outPut (bs : List Byte) : RegsInv p (outPut bs s).regs := { h with }
theorem beginFrame : RegsInv p (beginFrame s).regs := { h with }
theorem countRecord : RegsInv p (countRecord s).regs := { h with }
theorem digestBuf : RegsInv p (digestBuf s).regs := { h with }

end unconstrained

section constrained

include h

/-- BUSY can rise outside FAILED only (60_exceptions R234). -/
theorem setBusy {v : Bool} (hv : v = true → s.regs.phase ≠ .failed) : RegsInv p (s.setBusy v).regs :=
  { h with busyLive := hv }

theorem setVersion {v : Byte} (hv : v = Config.versionByte) : RegsInv p (s.setVersion v).regs :=
  { h with versionOwn := fun _ => hv }

theorem setRecTag {v : Byte} (hv : v ∈ legalTags) : RegsInv p (s.setRecTag v).regs :=
  { h with tagLegal := fun _ => hv }

/-- FLAGS changes where no trailer is expected (10_state R46; 44_parser R191). -/
theorem setFlags {v : Byte} (hv : flagsReserved v = 0) (hph : s.regs.phase ≠ .pTrailer) :
    RegsInv p (s.setFlags v).regs :=
  { h with
    flagsLegal := fun _ => hv
    trailerCk := fun ht => absurd ht hph }

/-- BLKSZ changes where no frame is being written (10_state R46; 44_parser R191). -/
theorem setBlksz (v : Word) (hph : s.regs.phase ≠ .sBody) : RegsInv p (s.setBlksz v).regs :=
  { h with blkszSet := fun hs => absurd hs hph }

/-- A change of PHASE from outside FAILED to outside FAILED (60_exceptions R240). -/
theorem setPhase {v : Phase} (hl : s.regs.phase ≠ .failed) (hv : v ≠ .failed)
    (hz : v = .sBody → s.regs.blksz ≠ 0) (hc : v = .pTrailer → ck s = true) :
    RegsInv p (s.setPhase v).regs :=
  { h with
    errFailed := ⟨fun he => absurd (h.errFailed.1 he) hl, fun hf => absurd hf hv⟩
    flagsLegal := fun _ => h.flagsLegal hl
    tagLegal := fun _ => h.tagLegal hl
    versionOwn := fun _ => h.versionOwn hl
    blkszSet := hz
    trailerCk := hc
    busyLive := fun _ => hv }

/-- A change to a phase that asks nothing of BLKSZ or FLAGS (60_exceptions R240). -/
theorem setPhase_unguarded {v : Phase} (hl : s.regs.phase ≠ .failed)
    (hv : v ≠ .failed ∧ v ≠ .sBody ∧ v ≠ .pTrailer) : RegsInv p (s.setPhase v).regs :=
  h.setPhase hl hv.1 (fun hs => absurd hs hv.2.1) (fun ht => absurd ht hv.2.2)

/-- Fault entry from outside FAILED (60_exceptions R234). What the statements before it have loaded into other
registers than PHASE and those of BUF does not matter: in FAILED they may show anything. -/
theorem raise {e : ErrCode} {u : State} (hl : s.regs.phase ≠ .failed) (he : e.code ∈ [1, 2, 3, 4, 5, 7, 9])
    (hph : u.regs.phase = s.regs.phase) (hbuf : u.regs.buf = s.regs.buf)
    (hlen : u.regs.bufLen = s.regs.bufLen) : RegsInv p (raise e u).regs where
  bufFits := by rw [raise_bufLen, hlen]; exact h.bufFits
  bufCanonical := by rw [raise_buf, hbuf]; exact h.bufCanonical
  bufInside := by rw [raise_buf, hbuf]; exact h.bufInside
  bufKnown := by rw [raise_bufLen, raise_buf, hlen, hbuf]; exact h.bufKnown
  errFailed := ⟨fun _ => rfl, fun _ => ((raised_code_iff e).1 he).1⟩
  errRaised := ((raised_code_iff e).1 he).2
  noFault := fun hn => absurd hn ((raised_code_iff e).1 he).1
  ephaseLive := by rw [raise_ephase, hph]; exact hl
  flagsLegal := fun hf => absurd rfl hf
  tagLegal := fun hf => absurd rfl hf
  versionOwn := fun hf => absurd rfl hf
  blkszSet := fun hs => nomatch hs
  trailerCk := fun ht => nomatch ht
  busyLive := fun hb => nomatch hb

theorem raise_self {e : ErrCode} (hl : s.regs.phase ≠ .failed) (he : e.code ∈ [1, 2, 3, 4, 5, 7, 9]) :
    RegsInv p (Machine.raise e s).regs := h.raise hl he rfl rfl rfl

/-- While BUF_LEN is 0 no byte of BUF can be read (10_state R32). -/
theorem emptyBuf : RegsInv p (s.setBufLen 0).regs :=
  { h with
    bufFits := Nat.zero_le _
    bufKnown := fun i hi => absurd hi (Nat.not_lt_zero i) }

/-- BUF's content is forgotten while none of it can be read (41_buffer R140). -/
theorem forgetBuf (h0 : s.regs.bufLen = 0) : RegsInv p (forgetBuf s).regs :=
  { h with
    bufCanonical := Memory.nil_wf
    bufInside := fun _ hc => nomatch hc
    bufKnown := fun i hi => by rw [forgetBuf_bufLen, h0] at hi; exact absurd hi (Nat.not_lt_zero i) }

/-- `n` bytes are loaded into BUF and become its content: they fit, and all of them are then known
(41_buffer R140; 20_memory R64). -/
theorem load {bs : List Byte} {n : Word} (hbs : bs.length = n.toNat) (hn : n ≤ p.bufBytes) :
    RegsInv p ((memWrite 0 bs s).setBufLen n).regs :=
  { h with
    bufFits := hn
    bufCanonical := Memory.write_wf h.bufCanonical 0 bs
    bufInside := fun c hc => by
      rcases Memory.mem_write hc with hold | ⟨-, hnew⟩
      · exact h.bufInside c hold
      · have := BitVec.le_def.1 hn; omega
    bufKnown := fun i hi => by
      have hlt : i < bs.length := by rw [hbs]; exact hi
      rw [setBufLen_buf, memWrite_buf, Memory.read_write, if_pos ⟨Nat.zero_le i, by omega⟩]
      simp [hlt] }

end constrained

end RegsInv

/-! ### The whole invariant -/

/-- With no command in progress the invariant is that of the parameters and the registers, and BUSY 0. -/
theorem inv_of_no_command {s : State} (hrun : s.running = none) (hp : s.params.wf = true)
    (h : RegsInv s.params s.regs) (hb : s.regs.busy = false) : Inv s :=
  ⟨hp, h, by rw [hb, hrun]; rfl, by rw [hrun]; exact fun _ hw => nomatch hw⟩

theorem Inv.busy_eq_false {s : State} (h : Inv s) (hrun : s.running = none) : s.regs.busy = false := by
  rw [h.busyRunning, hrun]; rfl

theorem Inv.no_command {s : State} (h : Inv s) (hb : s.regs.busy = false) : s.running = none := by
  have := h.busyRunning
  rw [hb] at this
  exact Option.isNone_iff_eq_none.1 (by simpa using this.symm)

/-- The invariant looks at the parameters, the registers, IN, EOS and the command in progress alone. -/
theorem Inv.congr {s t : State} (h : Inv s) (hp : t.params = s.params) (hr : t.regs = s.regs)
    (hc : t.running = s.running) (hq : t.inq = s.inq) (he : t.eos = s.eos) : Inv t := by
  obtain ⟨params, regs, inq, eos, out, running, events, hostRead, busyReads⟩ := t
  subst hp hr hc hq he
  exact ⟨h.paramsWf, h.regs, h.busyRunning, fun r hrun =>
    { h.waiting r hrun with }⟩

end Sys2Proof.Machine
end

section
/-! SUPPORT. The statements of every command keep the invariant of the registers, however they end. -/

namespace Sys2Proof.Machine

/-- How the statements of the command `i` end when they began in `b`, as far as the invariant goes: with the
parameters and the command in progress as they were and the registers sound; after a raise BUSY is 0; a wait has
IN empty and EOS 0, and PHASE is that of the issue (20_memory R67; 60_exceptions R240). -/
inductive BodyKeeps (i : Instr) (b : State) : Res Unit → Prop where
  | ends {t : State} (hp : t.params = b.params) (hr : t.running = b.running) (h : RegsInv b.params t.regs) :
    BodyKeeps i b (.ok () t)
  | raises {t : State} (hp : t.params = b.params) (hr : t.running = b.running) (hb : t.regs.busy = false)
      (h : RegsInv b.params t.regs) : BodyKeeps i b (.raised t)
  | waits {t : State} (hp : t.params = b.params) (hb : t.regs.busy = true) (hq : t.inq = []) (he : t.eos = false)
      (hph : t.regs.phase = b.regs.phase) (hi : i = .bufLd ∨ i = .ckFabs ∨ i = .hdrRd ∨ i = .recRd)
      (h : RegsInv b.params t.regs) : BodyKeeps i b (.wait t)

/-- What the statements of a command have left alone where one of them raises, but for a raise after the load of a
payload has begun: they have moved counters and loaded fields. -/
structure SameButLoaded (b u : State) : Prop where
  params : u.params = b.params
  running : u.running = b.running
  phase : u.regs.phase = b.regs.phase
  buf : u.regs.buf = b.regs.buf
  bufLen : u.regs.bufLen = b.regs.bufLen

section recordFields
/-! What loading a record's fields and its payload leaves as it was. -/

variable (k : Nat) (t : Byte) (o e c : Word) (bs : List Byte) (b : State)

@[simp] theorem recFields_params : (recFields k t o e c b).params = b.params := by simp [recFields]
@[simp] theorem recFields_running : (recFields k t o e c b).running = b.running := by simp [recFields]
@[simp] theorem recFields_inq : (recFields k t o e c b).inq = b.inq.drop k := by simp [recFields]
@[simp] theorem recFields_eos : (recFields k t o e c b).eos = b.eos := by simp [recFields]
@[simp] theorem recFields_phase : (recFields k t o e c b).regs.phase = b.regs.phase := by simp [recFields]
@[simp] theorem recFields_busy : (recFields k t o e c b).regs.busy = b.regs.busy := by simp [recFields]
@[simp] theorem recFields_buf : (recFields k t o e c b).regs.buf = b.regs.buf := by simp [recFields]
@[simp] theorem recFields_bufLen : (recFields k t o e c b).regs.bufLen = b.regs.bufLen := by simp [recFields]
@[simp] theorem recLoaded_params : (recLoaded k t o e c bs b).params = b.params := by simp [recLoaded]
@[simp] theorem recLoaded_running : (recLoaded k t o e c bs b).running = b.running := by simp [recLoaded]
@[simp] theorem recLoaded_phase : (recLoaded k t o e c bs b).regs.phase = b.regs.phase := by simp [recLoaded]

end recordFields

theorem RegsInv.recFields {b : State} (h : RegsInv b.params b.regs) (k : Nat) {t : Byte}
    (ht : t = 0x00 ∨ t = 0x01) (o e c : Word) : RegsInv b.params (recFields k t o e c b).regs :=
  ((((h.consume k).setRecTag (recordTag_mem_legalTags ht)).setOrigLen o).setEncLen e).setRecCk c

theorem RegsInv.recLoaded {b : State} (h : RegsInv b.params b.regs) (k : Nat) {t : Byte}
    (ht : t = 0x00 ∨ t = 0x01) (o c : Word) {e : Word} {p : List Byte} (hp : p.length = e.toNat)
    (he : e ≤ b.params.bufBytes) :
    RegsInv b.params (recLoaded k t o e c p b).regs :=
  (h.recFields k ht o e c).load hp he

/-- Where REC.RD can stand when it asks for a byte, only fields of a record have been loaded (44_parser R194). -/
theorem RegsInv.recRdAt {b : State} (h : RegsInv b.params b.regs) {k : Nat} {u : State}
    (hu : RecRdAt b k u) : RegsInv b.params u.regs := by
  cases hu with
  | tag => exact h
  | trailer => exact (h.consume k).setRecTag (by decide)
  | origLen t ht => exact (h.consume k).setRecTag (recordTag_mem_legalTags ht)
  | encLen t o ht => exact ((h.consume k).setRecTag (recordTag_mem_legalTags ht)).setOrigLen o
  | checksum t o e ht => exact h.recFields k ht o e _

/-- What a wait or a fault of REC.RD before the payload asks about, it has left alone. -/
theorem RecRdAt.sameButLoaded {b u : State} {k : Nat} (hu : RecRdAt b k u) : SameButLoaded b u := by
  cases hu <;> constructor <;> simp

theorem RecRdAt.busy_eos {b u : State} {k : Nat} (hu : RecRdAt b k u) :
    u.regs.busy = b.regs.busy ∧ u.eos = b.eos := by
  cases hu <;> simp

theorem RecRdAt.inq {b u : State} {k : Nat} (hu : RecRdAt b k u) : u.inq = b.inq.drop k := by
  cases hu with
  | tag hk => rw [hk, List.drop_zero]
  | trailer | origLen | encLen | checksum => simp

/-- RESET runs in FAILED too, so it needs nothing of the registers it finds (40_control R134). -/
theorem resetBody_keeps (b : State) : BodyKeeps .reset b (bodyOf .reset b) :=
  .ends rfl rfl (RegsInv.resetRegs _ _)

section bodies

variable {b : State} (h : RegsInv b.params b.regs) (hb : b.regs.busy = true)

include h hb

/-- A raise keeps the invariant, whatever has been loaded before it. -/
theorem body_raise_keeps {i : Instr} {e : ErrCode} {u : State} (hu : SameButLoaded b u)
    (he : e.code ∈ [1, 2, 3, 4, 5, 7, 9]) : BodyKeeps i b (.raised (raise e u)) :=
  .raises hu.params hu.running rfl (h.raise (h.busyLive hb) he hu.phase hu.buf hu.bufLen)

/-- A check and what follows it. -/
theorem body_require_keeps {i : Instr} {c : Prop} [Decidable c] {e : ErrCode} {u : State}
    {f : Unit → State → Res Unit} (hu : SameButLoaded b u) (he : e.code ∈ [1, 2, 3, 4, 5, 7, 9])
    (hf : c → BodyKeeps i b (f () u)) :
    BodyKeeps i b ((require c e u).bind f) := by
  rcases require_cases c e u with ⟨hc, hr⟩ | ⟨-, hr⟩
  · rw [hr, Res.bind_ok]; exact hf hc
  · rw [hr, Res.bind_raised]; exact body_raise_keeps h hb hu he

theorem bufLdBody_keeps : BodyKeeps .bufLd b (bufLdBody b) := by
  refine body_require_keeps h hb ⟨rfl, rfl, rfl, rfl, rfl⟩ (by decide) fun hfit => ?_
  rcases loadBuf_cases b.regs.xlen b with ⟨hn, hload⟩ | ⟨-, -, hload⟩ | ⟨-, he, hload⟩
  · rw [hload]
    exact .ends (by simp) (by simp) ((h.consume _).load (by simpa using hn) hfit)
  · rw [hload]
    have hraised := (h.emptyBuf.consume b.inq.length).raise_self (e := .truncatedStream)
      (by simpa using h.busyLive hb) (by decide)
    exact .raises (by simp) (by simp) (by simp) (hraised.forgetBuf (by simp))
  · rw [hload]
    exact .waits (by simp) (by simpa using hb) (by simp) (by simpa using he) (by simp) (.inl rfl)
      (h.emptyBuf.consume _)

theorem ckVfyBody_keeps : BodyKeeps .ckVfy b (ckVfyBody b) := by
  unfold ckVfyBody
  rcases require_cases ((digestBuf b).regs.blkDigest = (digestBuf b).regs.recCk) .checksumMismatch (digestBuf b)
    with ⟨-, hr⟩ | ⟨-, hr⟩
  · rw [hr]; exact .ends rfl rfl h.digestBuf
  · rw [hr]; exact body_raise_keeps h hb ⟨rfl, rfl, rfl, rfl, rfl⟩ (by decide)

theorem ckFabsBody_keeps : BodyKeeps .ckFabs b (fabsTurns b.regs.xlen.toNat b) := by
  rcases Nat.lt_or_ge b.inq.length b.regs.xlen.toNat with hn | hn
  · rw [fabsTurns_short hn]
    cases he : b.eos with
    | true => exact body_raise_keeps h hb (by constructor <;> simp) (by decide)
    | false =>
      exact .waits (by simp) (by simpa using hb) (by simp) (by simpa using he) (by simp) (.inr (.inl rfl))
        ((h.consume _).setFrmAcc _)
  · rw [fabsTurns_enough hn]
    exact .ends (by simp) (by simp) ((h.consume _).setFrmAcc _)

/-- Only the check of BLKSZ can fail, and S_BODY is entered with BLKSZ not 0 (43_serializer R171). -/
theorem hdrWrBody_keeps : BodyKeeps .hdrWr b (hdrWrBody b) := by
  refine body_require_keeps h hb ⟨rfl, rfl, rfl, rfl, rfl⟩ (by decide) fun hz => ?_
  exact .ends (by simp) (by simp) (((h.beginFrame.setVersion rfl).outPut _).setPhase
    (by simpa using h.busyLive hb) (by decide) (fun _ => by simpa using hz) (fun hc => nomatch hc))

theorem recWrBody_keeps : BodyKeeps .recWr b (recWrBody b) := by
  refine body_require_keeps h hb ⟨rfl, rfl, rfl, rfl, rfl⟩ (by decide) fun _ => ?_
  refine body_require_keeps h hb ⟨rfl, rfl, rfl, rfl, rfl⟩ (by decide) fun _ => ?_
  have htag := (h.setEncLen b.regs.bufLen).setRecTag (zextBit_mem_legalTags (stored b))
  simp only [recWrChecksum]
  split
  · exact .ends (by simp) (by simp) (((htag.setBlkDigest _).setRecCk _).outPut _).countRecord
  · exact .ends (by simp) (by simp) (htag.outPut _).countRecord

theorem frmEndBody_keeps (t : Bool) : BodyKeeps (.frmEnd t) b (frmEndBody t b) := by
  refine body_require_keeps h hb ⟨rfl, rfl, rfl, rfl, rfl⟩ (by decide) fun _ => ?_
  have htag := h.setRecTag (endTag_mem_legalTags t)
  cases t with
  | true =>
    exact .ends (by simp) (by simp)
      (((htag.setRecCk _).outPut _).setPhase_unguarded (by simpa using h.busyLive hb) (by decide))
  | false =>
    exact .ends (by simp) (by simp)
      ((htag.outPut _).setPhase_unguarded (by simpa using h.busyLive hb) (by decide))

theorem frmVfyBody_keeps : BodyKeeps .frmVfy b (frmVfyBody b) := by
  refine body_require_keeps h hb ⟨rfl, rfl, rfl, rfl, rfl⟩ (by decide) fun _ => ?_
  exact .ends (by simp) (by simp) (h.setPhase_unguarded (h.busyLive hb) (by decide))

/-- HDR.RD is issued in IDLE or DONE, where no frame is being written and no trailer is expected; the bytes it
loads are checked before it asks for another (44_parser R191). -/
theorem hdrRdBody_keeps (hph : b.regs.phase = .idle ∨ b.regs.phase = .done) :
    BodyKeeps .hdrRd b (hdrRdBody b) := by
  have hs : b.regs.phase ≠ .sBody := by rcases hph with hph | hph <;> simp [hph]
  have ht : b.regs.phase ≠ .pTrailer := by rcases hph with hph | hph <;> simp [hph]
  have hversion (k : Nat) {v : Byte} (hv : versionAccepted v = true) :=
    (h.beginFrame.consume k).setVersion ((versionAccepted_iff v).1 hv)
  have hflags (k : Nat) {v f : Byte} (hv : versionAccepted v = true) (hf : flagsReserved f = 0) :=
    (hversion k hv).setFlags hf (by simpa using ht)
  have hout := hdrRdBody_outcome b
  generalize hdrRdBody b = r at hout
  cases hout with
  | badMagic | badVersion | badFlags | badSize | truncatedEarly | truncatedFlags | truncatedSize =>
    exact body_raise_keeps h hb (by constructor <;> simp) (by decide)
  | waitsEarly he =>
    exact .waits (by simp) (by simpa using hb) (by simp) (by simpa using he) (by simp) (by decide)
      (h.beginFrame.consume _)
  | waitsFlags v hv he =>
    exact .waits (by simp) (by simpa using hb) (by simp) (by simpa using he) (by simp) (by decide) (hversion _ hv)
  | waitsSize v f hv hf he =>
    exact .waits (by simp) (by simpa using hb) (by simp) (by simpa using he) (by simp) (by decide) (hflags _ hv hf)
  | done v f z k hv hf hk =>
    exact .ends (by simp) (by simp) (((hflags k hv hf).setBlksz z (by simpa using hs)).setPhase_unguarded
      (by simpa using h.busyLive hb) (by decide))

theorem recRdBody_keeps : BodyKeeps .recRd b (recRdBody b) := by
  have hl := h.busyLive hb
  have hout := recRdBody_outcome b
  generalize recRdBody b = r at hout
  cases hout with
  | truncated u hu he => exact body_raise_keeps h hb hu.sameButLoaded (by decide)
  | badLength k u hk hu => exact body_raise_keeps h hb hu.sameButLoaded (by decide)
  | badTag | storedDiffers | tooLong => exact body_raise_keeps h hb (by constructor <;> simp) (by decide)
  | waits u hu he =>
    obtain ⟨hbusy, heos⟩ := hu.busy_eos
    exact .waits hu.sameButLoaded.params (hbusy.trans hb) (by rw [hu.inq, List.drop_length]) (heos.trans he)
      hu.sameButLoaded.phase (by decide) (h.recRdAt hu)
  | truncatedPayload t o e c ht hfit hc he =>
    have hload := (h.recFields b.inq.length ht o e c).emptyBuf
    exact .raises (by simp) (by simp) (by simp)
      ((hload.raise_self (by simpa using hl) (by decide)).forgetBuf (by simp))
  | waitsPayload t o e c ht hfit hc he =>
    exact .waits (by simp) (by simpa using hb) (by simp) (by simpa using he) (by simp) (by decide)
      (h.recFields _ ht o e c).emptyBuf
  | mismatch k t o e c p hk ht hfit hp =>
    have hload := (h.recLoaded k ht o c hp hfit).setBlkDigest (digest p)
    exact .raises (by simp) (by simp) (by simp) (hload.raise_self (by simpa using hl) (by decide))
  | checked k t o e p hk ht hfit hp =>
    exact .ends (by simp) (by simp) ((h.recLoaded k ht o _ hp hfit).setBlkDigest _).countRecord
  | unchecked k t o e c p hk ht hfit hp =>
    exact .ends (by simp) (by simp) (h.recLoaded k ht o c hp hfit).countRecord
  | ended hk =>
    exact .ends (by simp) (by simp) (((h.consume 1).setRecTag (by decide)).setPhase_unguarded
      (by simpa using hl) (by decide))
  | endedTrailer d hk hck =>
    exact .ends (by simp) (by simp) ((((h.consume 5).setRecTag (by decide)).setRecCk d).setPhase
      (by simpa using hl) (by decide) (fun hc => nomatch hc) (fun _ => (ck_congr (by simp)).trans hck))

/-- Every command's statements, where the command is legal (40_control R136). -/
theorem bodyOf_keeps (i : Instr) (hl : legal i b.regs.phase = true) : BodyKeeps i b (bodyOf i b) := by
  cases i with
  | nop => exact .ends rfl rfl h
  | reset => exact resetBody_keeps b
  | bufLd => exact bufLdBody_keeps h hb
  | bufSt => exact .ends rfl rfl (h.outPut _)
  | ckBlk => exact .ends rfl rfl h.digestBuf
  | ckVfy => exact ckVfyBody_keeps h hb
  | ckFinit => exact .ends rfl rfl (h.setFrmAcc _)
  | ckFabs => exact ckFabsBody_keeps h hb
  | ckFbuf => exact .ends rfl rfl (h.setFrmAcc _)
  | hdrWr => exact hdrWrBody_keeps h hb
  | recWr => exact recWrBody_keeps h hb
  | frmEnd t => exact frmEndBody_keeps h hb t
  | hdrRd => exact hdrRdBody_keeps h hb (by simpa [legal] using hl)
  | recRd => exact recRdBody_keeps h hb
  | frmVfy => exact frmVfyBody_keeps h hb

end bodies

end Sys2Proof.Machine
end

section
/-! SUPPORT. The invariant at reset and under every operation of the host and of the environment, and the three
statements about it. -/

namespace Sys2Proof.Machine

/-! ### Commands -/

/-- Outside RESET a command executes only where its phase is listed (40_control R136). -/
theorem legal_of_execute {i : Instr} {p : Phase} (h : admission i p = .execute) (hi : i ≠ .reset) :
    p ≠ .failed ∧ legal i p = true := by
  have hp : p ≠ .failed := by
    rintro rfl
    simp [admission, hi] at h
  refine ⟨hp, ?_⟩
  by_contra hl
  rw [admission_live hp, if_neg hl] at h
  cases h

theorem live_of_violation {i : Instr} {p : Phase} (h : admission i p = .violation) : p ≠ .failed := by
  rintro rfl
  by_cases hi : i = .reset <;> simp [admission, hi] at h

/-- Fault entry from outside FAILED, with no command in progress. -/
theorem raise_keeps_inv {e : ErrCode} {s : State} (h : Inv s) (hrun : s.running = none)
    (hl : s.regs.phase ≠ .failed) (he : e.code ∈ [1, 2, 3, 4, 5, 7, 9]) : Inv (raise e s) :=
  inv_of_no_command hrun h.paramsWf (h.regs.raise_self hl he) rfl

/-- What an executed command leaves satisfies the invariant, and where it waits so does the record of it. -/
theorem settle_inv {i : Instr} {s : State} {r : Res Unit} (h : Inv s) (hrun : s.running = none)
    (hadm : admission i s.regs.phase = .execute) (hr : BodyKeeps i (s.setBusy true) r) : Inv (settle i s r) := by
  cases hr with
  | @ends t hp hr ht =>
    exact inv_of_no_command (s := t.setBusy false) (hr.trans hrun) (hp ▸ h.paramsWf)
      (RegsInv.setBusy (hp ▸ ht) fun hc => nomatch hc) rfl
  | @raises t hp hr hb ht =>
    exact inv_of_no_command (s := t) (hr.trans hrun) (hp ▸ h.paramsWf) (hp ▸ ht) hb
  | @waits t hp hb hq he hph hi ht =>
    rw [settle_wait]
    refine ⟨hp ▸ h.paramsWf, hp ▸ ht, hb, fun w hw => ?_⟩
    cases hw
    exact ⟨hi, hq, he, hadm, h.busy_eq_false hrun, hp ▸ h.regs, hph⟩

/-- Every command keeps the invariant, in every phase. -/
theorem exec_keeps_inv {i : Instr} {s t : State} (h : Inv s) (hrun : s.running = none) (ht : exec i s = .next t) :
    Inv t := by
  rcases exec_cases i s with ⟨-, he⟩ | ⟨hadm, he⟩ | ⟨hadm, he⟩
  · cases he.symm.trans ht; exact h
  · cases he.symm.trans ht
    exact raise_keeps_inv h hrun (live_of_violation hadm) (by decide)
  · cases he.symm.trans ht
    refine settle_inv h hrun hadm ?_
    by_cases hi : i = .reset
    · subst hi; exact resetBody_keeps _
    · obtain ⟨hlive, hlegal⟩ := legal_of_execute hadm hi
      exact bodyOf_keeps (b := s.setBusy true) (h.regs.setBusy fun _ => hlive) rfl i hlegal

/-! ### The host -/

/-- FLAGS and BLKSZ can be written in two phases only (10_state R46). -/
theorem gateOpen_phase {p : Phase} (h : gateOpen p = true) : p ≠ .sBody ∧ p ≠ .pTrailer := by
  constructor <;> (rintro rfl; simp [gateOpen] at h)

/-- A write to a register other than CMD (40_control R130). -/
theorem writeReg_keeps_inv {s : State} (h : Inv s) (hrun : s.running = none) (hl : s.regs.phase ≠ .failed)
    (r : Reg) (v : Word) : Inv (writeReg r v s) := by
  have hb := h.busy_eq_false hrun
  have hraise : Inv (raise .protocolViolation s) := raise_keeps_inv h hrun hl (by decide)
  cases r with
  | ctrl => exact inv_of_no_command (s := s.setVerify _) hrun h.paramsWf (h.regs.setVerify _) hb
  | recTag =>
    exact inv_of_no_command (s := s.setRecTag _) hrun h.paramsWf (h.regs.setRecTag (zextBit_mem_legalTags _)) hb
  | origLen => exact inv_of_no_command (s := s.setOrigLen v) hrun h.paramsWf (h.regs.setOrigLen v) hb
  | recCk => exact inv_of_no_command (s := s.setRecCk v) hrun h.paramsWf (h.regs.setRecCk v) hb
  | xlen => exact inv_of_no_command (s := s.setXlen v) hrun h.paramsWf (h.regs.setXlen v) hb
  | flags =>
    rw [writeReg, writeFlags]
    split
    next hgate =>
      exact inv_of_no_command (s := s.setFlags _) hrun h.paramsWf
        (h.regs.setFlags (flagsReserved_zextBit _) (gateOpen_phase hgate).2) hb
    next => exact hraise
  | blksz =>
    rw [writeReg, writeBlksz]
    split
    next hgate =>
      exact inv_of_no_command (s := s.setBlksz v) hrun h.paramsWf (h.regs.setBlksz v (gateOpen_phase hgate).1) hb
    next => exact hraise
  | _ => exact h

theorem issueReserved_keeps_inv {s t : State} (h : Inv s) (hrun : s.running = none)
    (ht : issueReserved s = .next t) : Inv t := by
  unfold issueReserved at ht
  split at ht
  next => cases ht; exact h
  next hl => cases ht; exact raise_keeps_inv h hrun hl (by decide)

theorem writeCmd_keeps_inv {w : Word} {s t : State} (h : Inv s) (hrun : s.running = none)
    (ht : writeCmd w s = .next t) : Inv t := by
  unfold writeCmd at ht
  split at ht
  next => exact exec_keeps_inv h hrun ht
  next => exact issueReserved_keeps_inv h hrun ht

/-- A write in FAILED is looked at only where it is RESET's word to CMD (10_state R47). -/
theorem wrOffset_keeps_inv {off : Nat} {v : Word} {s t : State} (h : Inv s) (hrun : s.running = none)
    (ht : wrOffset off v s = .next t) : Inv t := by
  unfold wrOffset at ht
  split at ht
  next => cases ht; exact h
  next hlooked =>
    split at ht
    next => exact writeCmd_keeps_inv h hrun ht
    next hcmd =>
      cases ht
      have hl : s.regs.phase ≠ .failed := fun hf =>
        hlooked ⟨hf, fun ⟨hoff, _⟩ => hcmd (by rw [hoff]; rfl)⟩
      exact writeReg_keeps_inv h hrun hl _ v

/-- The host writes only while BUSY is 0 (70_reset R254). -/
theorem hostWrite_keeps_inv {size : AccessSize} {addr : Nat} {v : Word} {s t : State} (h : Inv s)
    (ht : hostWrite size addr v s = .next t) : Inv t := by
  unfold hostWrite at ht
  split at ht
  next => cases ht
  next =>
    split at ht
    next => cases ht
    next hb => exact wrOffset_keeps_inv h (h.no_command (by simpa using hb)) ht

/-- A read changes nothing of the architectural state. -/
theorem hostRead_keeps_inv {size : AccessSize} {addr : Nat} {s t : State} (h : Inv s)
    (ht : hostRead size addr s = .next t) : Inv t := by
  unfold hostRead at ht
  split at ht
  next => cases ht
  next =>
    split at ht
    next =>
      split at ht
      next => cases ht; exact h.congr rfl rfl rfl rfl rfl
      next => cases ht
    next => cases ht; exact h.congr rfl rfl rfl rfl rfl

/-! ### The environment -/

/-- A waiting command goes on from the registers of its issue, which satisfied the invariant (20_memory R67). -/
theorem resume_keeps_inv {s t : State} (h : Inv s) (q : List Byte) (e : Bool)
    (ht : resume { s with inq := q, eos := e } = .next t) : Inv t := by
  unfold resume at ht
  split at ht
  next hrun =>
    cases ht
    exact inv_of_no_command hrun h.paramsWf h.regs (h.busy_eq_false hrun)
  next w hrun =>
    have hw := h.waiting w hrun
    have hrew : Inv (rewind w { s with inq := q, eos := e }) :=
      inv_of_no_command rfl h.paramsWf hw.regsBefore hw.idleBefore
    exact exec_keeps_inv hrew rfl ht

theorem envInput_keeps_inv {bs : List Byte} {s t : State} (h : Inv s) (ht : envInput bs s = .next t) : Inv t := by
  unfold envInput at ht
  split at ht
  next => cases ht
  next => exact resume_keeps_inv h _ s.eos ht

theorem envEndOfStream_keeps_inv {s t : State} (h : Inv s) (ht : envEndOfStream s = .next t) : Inv t := by
  unfold envEndOfStream at ht
  split at ht
  next => cases ht
  next => exact resume_keeps_inv h s.inq true ht

theorem envTakeOutput_keeps_inv {n : Nat} {s t : State} (h : Inv s) (ht : envTakeOutput n s = .next t) : Inv t := by
  cases ht
  exact h.congr rfl rfl rfl rfl rfl

/-- A hard reset abandons the waiting command (70_reset R250). -/
theorem hardReset_keeps_inv {s t : State} (h : Inv s) (ht : hardReset s = .next t) : Inv t := by
  cases ht
  exact inv_of_no_command rfl h.paramsWf (RegsInv.resetRegs _ _) rfl

/-! ### Steps -/

theorem handle_keeps_inv {e : Event} {s t : State} (h : Inv s) (ht : handle e s = .next t) : Inv t := by
  cases e with
  | wr size addr v => exact hostWrite_keeps_inv h ht
  | rd size addr => exact hostRead_keeps_inv h ht
  | input bs => exact envInput_keeps_inv h ht
  | endOfStream => exact envEndOfStream_keeps_inv h ht
  | takeOutput n => exact envTakeOutput_keeps_inv h ht
  | hardReset => exact hardReset_keeps_inv h ht

theorem idle_keeps_inv {s t : State} (h : Inv s) (ht : idle s = .next t) : Inv t := by
  unfold idle at ht
  split at ht
  next => cases ht; exact h
  next => cases ht

/-- Settles O31: the step handles one operation, and each keeps the invariant. -/
theorem stepKeepsInvariant : Obligations.StepKeepsInvariant := by
  intro s t h ht
  cases hev : s.events with
  | nil =>
    rw [step_of_no_event hev] at ht
    exact idle_keeps_inv h ht
  | cons e rest =>
    rw [step_of_event hev] at ht
    have hrest : Inv { s with events := rest } := h.congr rfl rfl rfl rfl rfl
    exact handle_keeps_inv hrest ht

/-- Settles O30: no command is in progress, and the registers are those of the reset table. -/
theorem invariantHoldsAtReset : Obligations.InvariantHoldsAtReset :=
  inv_of_no_command (s := State.reset) rfl (by decide) (regsInv_reset _) rfl

/-- Settles O21, register by register. -/
theorem resetStateShowsTheTable : Obligations.ResetStateShowsTheTable := by
  have htable : ResetTable State.reset.regs := by constructor <;> intros <;> rfl
  exact ⟨htable, by decide, by decide, by decide, by decide⟩

end Sys2Proof.Machine
end

section
/-! SUPPORT. The bus: which accesses are performed, and that a refused one has no next state (20_memory R62). -/

namespace Sys2Proof.Machine

/-- Only words at a multiple of 4 are performed (20_memory R62; 93 U7). -/
theorem regOffset_notAlignedWord (p : Params) {size : AccessSize} {addr : Nat} (h : size ≠ .word ∨ addr % 4 ≠ 0) :
    regOffset p size addr = .error .notAlignedWord := by
  rw [regOffset, if_pos h]

/-- An aligned word outside the 256 bytes from CFU_BASE is not the CFU's (93 U8). -/
theorem regOffset_outside {p : Params} {addr : Nat} (h4 : addr % 4 = 0)
    (h : addr < p.cfuBase ∨ p.cfuBase + 0x100 ≤ addr) :
    regOffset p .word addr = .error .outsideRegisterSpace := by
  rw [regOffset, if_neg (by simp [h4]), if_pos h]

/-- Reads and writes look at the place of the access before anything else, BUSY and PHASE included. -/
theorem step_of_bad_access {s : State} {size : AccessSize} {addr : Nat} {v : Word} {rest : List Event} {r : Refusal}
    (he : s.events = .wr size addr v :: rest ∨ s.events = .rd size addr :: rest)
    (hr : regOffset s.params size addr = .error r) : step s = .refused r := by
  rcases he with he | he
  · rw [step_of_event he, handle, hostWrite, hr]
  · rw [step_of_event he, handle, hostRead, hr]

/-- Settles O18: the two checks of the place of an access. -/
theorem badBusAccessIsRefused : Obligations.BadBusAccessIsRefused := by
  intro s size addr v rest he
  refine ⟨fun hbad => step_of_bad_access he (regOffset_notAlignedWord s.params hbad), ?_⟩
  rintro rfl h4 hout
  exact step_of_bad_access he (regOffset_outside h4 hout)

end Sys2Proof.Machine
end

section
/-! SUPPORT. The wait for IN (20_memory R67): which commands can wait, and what one that waits has left as it was.
Nothing here asks for the invariant. -/

namespace Sys2Proof.Machine

/-- From `b` to `u` a command has taken `k` bytes of IN and loaded registers, but not PHASE, ERR or BUF; of the
rest, only the queue of operations and the command in progress, which a wait sets anew, are left open. -/
structure TookOnly (k : Nat) (b u : State) : Prop where
  params : u.params = b.params
  inq : u.inq = b.inq.drop k
  eos : u.eos = b.eos
  out : u.out = b.out
  hostRead : u.hostRead = b.hostRead
  busyReads : u.busyReads = b.busyReads
  phase : u.regs.phase = b.regs.phase
  err : u.regs.err = b.regs.err
  buf : u.regs.buf = b.regs.buf
  bufEpoch : u.regs.bufEpoch = b.regs.bufEpoch

theorem TookOnly.inq_nil {b u : State} (h : TookOnly b.inq.length b u) : u.inq = [] := by
  rw [h.inq, List.drop_length]

theorem TookOnly.bufByte {k : Nat} {b u : State} (h : TookOnly k b u) (a : Nat) : bufByte u a = bufByte b a := by
  simp only [Machine.bufByte, h.buf, h.bufEpoch]

/-- Where REC.RD asks for a byte before the payload it has loaded fields only (44_parser R194). -/
theorem RecRdAt.tookOnly {k : Nat} {b u : State} (h : RecRdAt b k u) : TookOnly k b u := by
  cases h with
  | tag hk => subst hk; constructor <;> simp
  | trailer | origLen | encLen | checksum => constructor <;> simp [recFields]

/-- How the statements of the command `i` end when they began in `b`: normally; by a fault, with BUSY 0; or, for
the four commands that take from IN, at a wait with all of IN taken and EOS 0 (20_memory R67, R69). -/
inductive BodyEnd (i : Instr) (b : State) : Res Unit → Prop where
  | normal (u : State) : BodyEnd i b (.ok () u)
  | fault {u : State} (hb : u.regs.busy = false) : BodyEnd i b (.raised u)
  | waits {u : State} (hi : i ∈ [.bufLd, .ckFabs, .hdrRd, .recRd]) (he : b.eos = false)
      (h : TookOnly b.inq.length b u) : BodyEnd i b (.wait u)

theorem require_bodyEnd (i : Instr) (b : State) (c : Prop) [Decidable c] (e : ErrCode) (u : State) :
    BodyEnd i b (require c e u) := by
  rcases require_cases c e u with ⟨-, h⟩ | ⟨-, h⟩
  · rw [h]; exact .normal u
  · rw [h]; exact .fault rfl

/-- A `require` ends the statements or lets them go on (00_scope R12). -/
theorem require_bind_bodyEnd {i : Instr} {b u : State} {c : Prop} [Decidable c] {e : ErrCode}
    {f : Unit → State → Res Unit} (hf : BodyEnd i b (f () u)) : BodyEnd i b ((require c e u).bind f) := by
  rcases require_cases c e u with ⟨-, h⟩ | ⟨-, h⟩
  · rw [h]; exact hf
  · rw [h]; exact .fault rfl

/-! ### The four commands that take from IN -/

theorem bufLdBody_bodyEnd (b : State) : BodyEnd .bufLd b (bufLdBody b) := by
  refine require_bind_bodyEnd ?_
  rcases loadBuf_cases b.regs.xlen b with ⟨-, h⟩ | ⟨-, -, h⟩ | ⟨-, he, h⟩
  · rw [h]; exact .normal _
  · rw [h]; exact .fault rfl
  · rw [h]; exact .waits (by decide) he (by constructor <;> simp)

theorem fabsTurns_bodyEnd (n : Nat) (b : State) : BodyEnd .ckFabs b (fabsTurns n b) := by
  rcases Nat.lt_or_ge b.inq.length n with h | h
  · rw [fabsTurns_short h]
    cases he : b.eos with
    | true => exact .fault rfl
    | false => exact .waits (by decide) he (by constructor <;> simp)
  · rw [fabsTurns_enough h]; exact .normal _

theorem hdrRdBody_bodyEnd (b : State) : BodyEnd .hdrRd b (hdrRdBody b) := by
  have hout := hdrRdBody_outcome b
  generalize hdrRdBody b = r at hout
  cases hout with
  | badMagic | badVersion | badFlags | badSize | truncatedEarly | truncatedFlags | truncatedSize => exact .fault rfl
  | waitsEarly he | waitsFlags _ _ he | waitsSize _ _ _ _ he =>
    exact .waits (by decide) he (by constructor <;> simp)
  | done => exact .normal _

theorem recRdBody_bodyEnd (b : State) : BodyEnd .recRd b (recRdBody b) := by
  have hout := recRdBody_outcome b
  generalize recRdBody b = r at hout
  cases hout with
  | truncated | badTag | badLength | storedDiffers | tooLong | truncatedPayload | mismatch => exact .fault rfl
  | waits u hu he => exact .waits (by decide) he hu.tookOnly
  | waitsPayload t o e c ht hl hc he => exact .waits (by decide) he (by constructor <;> simp [recFields])
  | checked | unchecked | ended | endedTrailer => exact .normal _

/-! ### Every command -/

/-- The other commands never ask for a byte: their statements are checks and assignments. -/
theorem bodyOf_bodyEnd (i : Instr) (b : State) : BodyEnd i b (bodyOf i b) := by
  cases i with
  | bufLd => exact bufLdBody_bodyEnd b
  | ckFabs => exact fabsTurns_bodyEnd _ b
  | hdrRd => exact hdrRdBody_bodyEnd b
  | recRd => exact recRdBody_bodyEnd b
  | nop | reset | bufSt | ckBlk | ckFinit | ckFbuf => exact .normal _
  | ckVfy => exact require_bodyEnd _ _ _ _ _
  | hdrWr | frmEnd | frmVfy => exact require_bind_bodyEnd (.normal _)
  | recWr => exact require_bind_bodyEnd (require_bind_bodyEnd (.normal _))

/-- A command that is left with BUSY 1 waits: it is one of the four, EOS is 0, and it has taken all of IN and is
recorded with the registers and the bytes of its issue (20_memory R67, R69; log 4). -/
theorem exec_waits {i : Instr} {s t : State} (hb : s.regs.busy = false) (ht : exec i s = .next t)
    (hbusy : t.regs.busy = true) :
    i ∈ [.bufLd, .ckFabs, .hdrRd, .recRd] ∧ s.eos = false ∧
      TookOnly s.inq.length s t ∧ t.running = some ⟨i, s.regs, s.inq⟩ := by
  rcases exec_cases i s with ⟨-, he⟩ | ⟨-, he⟩ | ⟨-, he⟩
  · cases he.symm.trans ht; simp [hb] at hbusy
  · cases he.symm.trans ht; simp at hbusy
  · have hend := bodyOf_bodyEnd i (s.setBusy true)
    generalize bodyOf i (s.setBusy true) = r at he hend
    cases he.symm.trans ht
    cases hend with
    | normal u => simp [settle_ok] at hbusy
    | fault hu => simp [settle_raised, hu] at hbusy
    | waits hi heos hu => exact ⟨hi, heos, { hu with }, rfl⟩

/-- Settles O20. -/
theorem onlyInputCommandsWait : Obligations.OnlyInputCommandsWait := by
  intro i s t hb ht hbusy
  obtain ⟨hi, heos, htook, hrec⟩ := exec_waits hb ht hbusy
  exact ⟨hi, heos, htook.inq_nil, htook.out, htook.phase, htook.err, htook.bufByte, hrec⟩

/-! ### Going on -/

/-- A command that has taken all of IN and waits goes on, when `bs` has arrived and EOS is `e`, as if issued there:
what it took is put back, and the registers it loaded are again those of its issue (20_memory R67; log 4). -/
theorem resume_tookAll {i : Instr} {s t : State} (hrun : s.running = none) (htook : TookOnly s.inq.length s t)
    (hrec : t.running = some ⟨i, s.regs, s.inq⟩) (bs : List Byte) (e : Bool) (rest : List Event) :
    resume { t with inq := bs, eos := e, events := rest } =
      exec i { s with inq := s.inq ++ bs, eos := e, events := rest } := by
  simp only [resume, hrec, rewind, htook.params, htook.out, htook.hostRead, htook.busyReads, hrun]

/-- Bytes that arrive while EOS is 0 join IN, and a command that waits goes on (20_memory R66, R67). -/
theorem step_of_input {t : State} (he : t.eos = false) (bs : List Byte) (rest : List Event) :
    step { t with events := .input bs :: rest } = resume { t with inq := t.inq ++ bs, events := rest } := by
  rw [step_of_event rfl, handle, envInput, if_neg (by simp [he])]

/-- EOS is set once, and a command that waits goes on (20_memory R66, R67). -/
theorem step_of_endOfStream {t : State} (he : t.eos = false) (rest : List Event) :
    step { t with events := .endOfStream :: rest } = resume { t with eos := true, events := rest } := by
  rw [step_of_event rfl, handle, envEndOfStream, if_neg (by simp [he])]

/-- Settles O19: EOS being 0, the environment may do either, and both resume the command. -/
theorem waitingIsNoStateChange : Obligations.WaitingIsNoStateChange := by
  intro i s t rest hrun hb ht hbusy
  obtain ⟨-, heos, htook, hrec⟩ := exec_waits hb ht hbusy
  have hte : t.eos = false := htook.eos.trans heos
  constructor
  · intro bs
    rw [step_of_input hte]
    simpa [htook.inq_nil, hte, heos] using resume_tookAll hrun htook hrec bs false rest
  · rw [step_of_endOfStream hte]
    simpa [htook.inq_nil] using resume_tookAll hrun htook hrec [] true rest

end Sys2Proof.Machine
end

section
/-! SUPPORT. The opcode map: the fields of a command word decide it, and the decoder undoes the encoder and nothing
else (30_encoding R90 to R93). -/

namespace Sys2Proof

/-! ### Words by their fields -/

/-- A command word is bits 31:9, T and OPC (30_encoding R90). -/
theorem word_eq_of_fields {w v : Word} (hhigh : w.extractLsb' 9 23 = v.extractLsb' 9 23)
    (ht : w.getLsbD 8 = v.getLsbD 8) (hopc : w.extractLsb' 0 8 = v.extractLsb' 0 8) : w = v := by
  refine BitVec.eq_of_getLsbD_eq fun i hi => ?_
  rcases Nat.lt_trichotomy i 8 with h | rfl | h
  · simpa [h] using congrArg (·.getLsbD i) hopc
  · exact ht
  · simpa [show i - 9 < 23 by omega, show 9 + (i - 9) = i by omega] using congrArg (·.getLsbD (i - 9)) hhigh

/-- FRM.END's mask leaves out T and nothing else (30_encoding R92). -/
theorem word_eq_of_masked {w v : Word} (hm : w &&& 0xFFFFFEFF = v &&& 0xFFFFFEFF)
    (ht : w.getLsbD 8 = v.getLsbD 8) : w = v := by
  have hmask : ∀ i < 32, i ≠ 8 → (0xFFFFFEFF : Word).getLsbD i = true := by decide
  refine BitVec.eq_of_getLsbD_eq fun i hi => ?_
  by_cases h8 : i = 8
  · rw [h8, ht]
  · have hbit := congrArg (·.getLsbD i) hm
    simpa only [BitVec.getLsbD_and, hmask i hi h8, Bool.and_true] using hbit

/-! ### The rows of the opcode map -/

/-- FRM.END's row, the only one with an operand (30_encoding R91, R92). -/
def frmEndRow : OpcodeRow := ⟨.frmEnd false, 0x00000032, 0xFFFFFEFF⟩

/-- Every other row compares the whole word, and T is no part of its command. -/
theorem opcodeTable_rows : ∀ r ∈ opcodeTable,
    (r.mask = 0xFFFFFFFF ∧ ∀ t, encode (withT t r.instr) = r.bits) ∨ r = frmEndRow := by decide

theorem encode_frmEnd_masked (t : Bool) : encode (.frmEnd t) &&& 0xFFFFFEFF = 0x00000032 := by cases t <;> decide

theorem encode_frmEnd_t (t : Bool) : (encode (.frmEnd t)).getLsbD 8 = t := by cases t <;> decide

/-- A word that selects a row is the word of the row's command with that word's T (30_encoding R92). -/
theorem eq_encode_of_rowSelects {w : Word} {r : OpcodeRow} (hr : r ∈ opcodeTable) (h : rowSelects w r = true) :
    w = encode (withT (w.getLsbD 8) r.instr) := by
  have hbits : w &&& r.mask = r.bits := by simpa [rowSelects] using h
  rcases opcodeTable_rows r hr with ⟨hmask, henc⟩ | rfl
  · have hall : w &&& 0xFFFFFFFF = w := BitVec.and_allOnes
    rw [henc, ← hbits, hmask, hall]
  · exact word_eq_of_masked (hbits.trans (encode_frmEnd_masked _).symm) (encode_frmEnd_t _).symm

/-! ### The decoder -/

theorem decode_encode (i : Instr) : decode (encode i) = .command i := by
  cases i with
  | frmEnd t => cases t <;> decide
  | nop | reset | bufLd | bufSt | ckBlk | ckVfy | ckFinit | ckFabs | ckFbuf | hdrWr | recWr | hdrRd | recRd
  | frmVfy => decide

/-- A command is read from its own word only (30_encoding R92). -/
theorem eq_encode_of_decode {w : Word} {i : Instr} (h : decode w = .command i) : w = encode i := by
  unfold decode at h
  split at h
  next r hfind =>
    cases h
    exact eq_encode_of_rowSelects (List.mem_of_find?_eq_some hfind) (List.find?_some hfind)
  next => cases h

/-- Settles O1: the two directions are `eq_encode_of_decode` and `decode_encode`. -/
theorem decodeInvertsEncode : Obligations.DecodeInvertsEncode :=
  fun _ i => ⟨eq_encode_of_decode, fun h => h ▸ decode_encode i⟩

/-! ### Well-formed words (30_encoding R93) -/

theorem commandWordWf_iff (w : Word) : commandWordWf w = true ↔
    w.extractLsb' 9 23 = 0 ∧ (w.getLsbD 8 = true → w.extractLsb' 0 8 = (0x32 : Byte)) ∧
      w.extractLsb' 0 8 ∈ listedOpcodes := by
  simp only [commandWordWf, Bool.and_eq_true, Bool.or_eq_true, beq_iff_eq, List.contains_iff_mem, and_assoc]
  cases w.getLsbD 8 <;> simp

theorem commandWordWf_encode (i : Instr) : commandWordWf (encode i) = true := by
  cases i with
  | frmEnd t => cases t <;> decide
  | nop | reset | bufLd | bufSt | ckBlk | ckVfy | ckFinit | ckFabs | ckFbuf | hdrWr | recWr | hdrRd | recRd
  | frmVfy => decide

/-- Each listed OPC, under zeros, is the word of a row's command (30_encoding R92). -/
theorem exists_row_of_listedOpcode : ∀ opc ∈ listedOpcodes, ∃ r ∈ opcodeTable,
    (encode r.instr).extractLsb' 9 23 = 0 ∧ (encode r.instr).getLsbD 8 = false ∧
      (encode r.instr).extractLsb' 0 8 = opc := by decide

/-- With T set the word is FRM.END's, otherwise OPC finds the row (30_encoding R93). -/
theorem exists_eq_encode_of_wf {w : Word} (h : commandWordWf w = true) : ∃ i, w = encode i := by
  obtain ⟨hhigh, ht, hopc⟩ := (commandWordWf_iff w).mp h
  cases h8 : w.getLsbD 8 with
  | true => exact ⟨.frmEnd true, word_eq_of_fields hhigh h8 (ht h8)⟩
  | false =>
    obtain ⟨r, -, hr9, hr8, hr0⟩ := exists_row_of_listedOpcode _ hopc
    exact ⟨r.instr, word_eq_of_fields (hhigh.trans hr9.symm) (h8.trans hr8.symm) hr0.symm⟩

/-- Settles O2: a word is well formed exactly when some command encodes to it. -/
theorem wordIsCommandIffWellFormed : Obligations.WordIsCommandIffWellFormed := by
  intro w
  constructor
  · rintro ⟨i, h⟩
    rw [eq_encode_of_decode h]
    exact commandWordWf_encode i
  · intro h
    obtain ⟨i, rfl⟩ := exists_eq_encode_of_wf h
    exact ⟨i, decode_encode i⟩

/-- Settles O3: six commands' own words, and one word the decoder is run on. -/
theorem sampleWordsDecode : Obligations.SampleWordsDecode :=
  ⟨decode_encode .reset, decode_encode .bufSt, decode_encode .ckFabs, decode_encode .recWr,
    decode_encode (.frmEnd true), decode_encode .recRd, by decide⟩

end Sys2Proof

namespace Sys2Proof.Machine

/-! ### A reserved word at CMD -/

/-- A reserved word written to CMD is issued as such in every phase: what FAILED does not look at and what it ignores
when issued come to the same (40_control R130, R132, R135). -/
theorem wrOffset_reserved {w : Word} {why : ReservedWord} (hw : decode w = .reserved why) (s : State) :
    wrOffset 0x00 w s = issueReserved s := by
  unfold wrOffset
  split
  next hf => rw [issueReserved, if_pos hf.1]
  next =>
    have hcmd : regAt 0x00 = .cmd := rfl
    rw [if_pos hcmd, writeCmd, hw]

/-- Settles O13. -/
theorem reservedWordRaisesProtocolViolation : Obligations.ReservedWordRaisesProtocolViolation := by
  intro s w why rest hp hb he hw
  rw [step_of_write hp (by decide) (by decide) he hb, wrOffset_reserved hw]
  exact ⟨fun hlive => if_neg hlive, fun hfailed => if_pos hfailed⟩

end Sys2Proof.Machine
end

section
/-! SUPPORT. The field encodings of the wire format: le32, the bytes of a varint, and the size of a frame
(30_encoding R115, R117, R118). -/

namespace Sys2Proof.Machine

/-! ### le32 (30_encoding R117) -/

/-- The four bytes, joined with the first one lowest, are the word again. -/
theorem le32Val_le32 (v : Word) : le32Val (le32 v) = v := by
  have h3 : v.extractLsb' 24 8 ++ v.extractLsb' 16 8 = v.extractLsb' 16 16 :=
    BitVec.extractLsb'_append_extractLsb'_eq_extractLsb' rfl
  have h2 : v.extractLsb' 16 16 ++ v.extractLsb' 8 8 = v.extractLsb' 8 24 :=
    BitVec.extractLsb'_append_extractLsb'_eq_extractLsb' rfl
  have h1 : v.extractLsb' 8 24 ++ v.extractLsb' 0 8 = v.extractLsb' 0 32 :=
    BitVec.extractLsb'_append_extractLsb'_eq_extractLsb' rfl
  calc le32Val (le32 v)
      = v.extractLsb' 24 8 ++ v.extractLsb' 16 8 ++ v.extractLsb' 8 8 ++ v.extractLsb' 0 8 := rfl
    _ = v := by rw [h3, h2, h1, BitVec.extractLsb'_eq_self]

theorem le32_getD (v : Word) {j : Nat} (hj : j < 4) : (le32 v).getD j 0 = v.extractLsb' (8 * j) 8 := by
  match j, hj with
  | 0, _ | 1, _ | 2, _ | 3, _ => rfl

/-- Settles O4. -/
theorem le32RoundTrip : Obligations.Le32RoundTrip := by
  intro v
  refine ⟨le32Val_le32 v, rfl, fun j hj => ?_⟩
  rw [le32_getD v hj, BitVec.extractLsb'_toNat, Nat.shiftRight_eq_div_pow, Nat.pow_mul]

/-! ### The groups of a value (30_encoding R115) -/

/-- The seven value bits of the next byte. -/
def lowGroup (v : Word) : Byte := v.extractLsb' 0 8 &&& 0x7F

theorem byte_and_7F_toNat (b : Byte) : (b &&& 0x7F).toNat = b.toNat % 128 := by
  rw [BitVec.toNat_and]
  exact Nat.and_two_pow_sub_one_eq_mod b.toNat 7

theorem lowGroup_toNat (v : Word) : (lowGroup v).toNat = v.toNat % 128 := by
  rw [lowGroup, byte_and_7F_toNat, BitVec.extractLsb'_toNat, Nat.shiftRight_zero]
  omega

theorem shiftRight_seven_toNat (v : Word) : (v >>> 7).toNat = v.toNat / 128 := by
  rw [BitVec.toNat_ushiftRight, Nat.shiftRight_eq_div_pow]

theorem shiftRight_seven_eq_zero_iff (v : Word) : v >>> 7 = 0 ↔ v.toNat < 128 := by
  rw [← BitVec.toNat_inj, shiftRight_seven_toNat]
  simp

theorem lowGroup_bit7 (v : Word) : (lowGroup v).getLsbD 7 = false := by simp [lowGroup]

theorem continued_bit7 (g : Byte) : (0x80 ||| g).getLsbD 7 = true := by simp

/-- Bit 7 is no part of the group it stands over. -/
theorem continued_toNat_mod (g : Byte) : (0x80 ||| g).toNat % 128 = g.toNat % 128 := by
  have hg : (0x80 ||| g) &&& 0x7F = g &&& 0x7F := by revert g; decide +kernel
  rw [← byte_and_7F_toNat, ← byte_and_7F_toNat, hg]

/-! ### The bytes of a varint (30_encoding R115) -/

/-- A value of one group is that group, wherever it stands. -/
theorem varintBytes_of_lt (more : Nat) {v : Word} (h : v.toNat < 128) : varintBytes more v = [lowGroup v] := by
  cases more with
  | zero => rfl
  | succ more => exact varintBytes_last more ((shiftRight_seven_eq_zero_iff v).mpr h)

/-- A value of more groups is its low group under bit 7, and the rest. -/
theorem varintBytes_of_le (more : Nat) {v : Word} (h : 128 ≤ v.toNat) :
    varintBytes (more + 1) v = (0x80 ||| lowGroup v) :: varintBytes more (v >>> 7) :=
  varintBytes_more more fun h0 => Nat.not_lt.mpr h ((shiftRight_seven_eq_zero_iff v).mp h0)

theorem varintBytes_length_zero (v : Word) : (varintBytes 0 v).length = 1 := rfl

theorem varintBytes_length_succ (more : Nat) (v : Word) : (varintBytes (more + 1) v).length =
    if v.toNat < 128 then 1 else (varintBytes more (v >>> 7)).length + 1 := by
  split
  next h => rw [varintBytes_of_lt _ h, List.length_singleton]
  next h => rw [varintBytes_of_le _ (Nat.le_of_not_lt h), List.length_cons]

/-- `vlen` (30_encoding R115). -/
theorem varint_length (v : Word) : (varint v).length = if v.toNat < 2 ^ 7 then 1 else if v.toNat < 2 ^ 14 then 2
    else if v.toNat < 2 ^ 21 then 3 else if v.toNat < 2 ^ 28 then 4 else 5 := by
  simp only [varint, varintBytes_length_succ, varintBytes_length_zero, shiftRight_seven_toNat,
    Nat.div_div_eq_div_mul, Nat.div_lt_iff_lt_mul (Nat.zero_lt_succ _)]
  split_ifs <;> omega

theorem varint_length_le (v : Word) : (varint v).length ≤ 5 := by
  rw [varint_length]
  split_ifs <;> omega

/-- What R115 says of byte `j` of an encoding: bit 7 is set if and only if another byte follows, and the other bits are
the `j`-th digit of the value in base 128. -/
def IsVarintByte (bs : List Byte) (v j : Nat) : Prop :=
  ((bs.getD j 0).getLsbD 7 = true ↔ j + 1 < bs.length) ∧ (bs.getD j 0).toNat % 128 = v / 128 ^ j % 128

theorem isVarintByte_last (v : Word) : IsVarintByte [lowGroup v] v.toNat 0 := by
  refine ⟨iff_of_false (Bool.eq_false_iff.mp (lowGroup_bit7 v)) (Nat.lt_irrefl 1), ?_⟩
  rw [List.getD_cons_zero, lowGroup_toNat, Nat.pow_zero, Nat.div_one, Nat.mod_mod]

theorem isVarintByte_first {bs : List Byte} (v : Word) (h : bs ≠ []) :
    IsVarintByte ((0x80 ||| lowGroup v) :: bs) v.toNat 0 := by
  have hlen : 0 < bs.length := List.length_pos_iff.mpr h
  refine ⟨iff_of_true (continued_bit7 _) (Nat.succ_lt_succ hlen), ?_⟩
  rw [List.getD_cons_zero, continued_toNat_mod, lowGroup_toNat, Nat.pow_zero, Nat.div_one, Nat.mod_mod]

theorem isVarintByte_rest {bs : List Byte} {v j : Nat} (b : Byte) (h : IsVarintByte bs (v / 128) j) :
    IsVarintByte (b :: bs) v (j + 1) := by
  obtain ⟨hbit, hdigit⟩ := h
  refine ⟨by simpa using hbit, ?_⟩
  rw [List.getD_cons_succ, hdigit, Nat.div_div_eq_div_mul, Nat.pow_succ']

/-- Every byte is as R115 says, whatever number of bytes may still follow. -/
theorem varintBytes_isVarintByte (more : Nat) (v : Word) (j : Nat) (hj : j < (varintBytes more v).length) :
    IsVarintByte (varintBytes more v) v.toNat j := by
  induction more generalizing v j with
  | zero =>
    obtain rfl : j = 0 := Nat.lt_one_iff.mp hj
    exact isVarintByte_last v
  | succ more ih =>
    rcases Nat.lt_or_ge v.toNat 128 with h | h
    · rw [varintBytes_of_lt _ h] at hj ⊢
      obtain rfl : j = 0 := Nat.lt_one_iff.mp hj
      exact isVarintByte_last v
    · rw [varintBytes_of_le _ h] at hj ⊢
      cases j with
      | zero => exact isVarintByte_first v (varintBytes_ne_nil _ _)
      | succ j =>
        refine isVarintByte_rest _ ?_
        rw [← shiftRight_seven_toNat]
        exact ih _ j (Nat.lt_of_succ_lt_succ hj)

/-- Settles O5. -/
theorem varintLengthAndContinuation : Obligations.VarintLengthAndContinuation :=
  fun v => ⟨varint_length v, varintBytes_isVarintByte 4 v⟩

/-! ### The size of a frame (30_encoding R118) -/

theorem headerBytes_length_le (m : Magic) (version flags : Byte) (blksz : Word) :
    (headerBytes m version flags blksz).length ≤ 11 := by
  have hv := varint_length_le blksz
  simp only [headerBytes, Magic.bytes, List.length_append, List.length_cons, List.length_nil]
  omega

/-- A record without its payload: tag, two varints, checksum field. -/
theorem recBytes_length_le (ckOn : Bool) (r : Rec) : (recBytes ckOn r).length ≤ 15 + r.payload.length := by
  have ho := varint_length_le r.origLen
  have he := varint_length_le (BitVec.ofNat 32 r.payload.length)
  have hck : (if ckOn then le32 (digest r.payload) else []).length ≤ 4 := by cases ckOn <;> simp [le32]
  simp only [recBytes, recordHead, List.length_append, List.length_cons, List.length_nil]
  omega

theorem endBytes_length_le (trailer : Option Word) : (endBytes trailer).length ≤ 5 := by
  cases trailer <;> simp [endBytes, le32]

theorem records_length_le (ckOn : Bool) (recs : List Rec) (hfit : ∀ r ∈ recs, r.payload.length ≤ r.origLen.toNat) :
    (recs.flatMap (recBytes ckOn)).length ≤ 15 * recs.length + (recs.map fun r => r.origLen.toNat).sum := by
  induction recs with
  | nil => simp
  | cons r recs ih =>
    have hr := recBytes_length_le ckOn r
    have hp := hfit r List.mem_cons_self
    have ih := ih fun q hq => hfit q (List.mem_cons_of_mem r hq)
    simp only [List.flatMap_cons, List.length_append, List.length_cons, List.map_cons, List.sum_cons]
    omega

/-- Settles O8: the bounds of the three parts, added up. -/
theorem frameSizeBound : Obligations.FrameSizeBound := by
  intro m ckOn blksz recs trailer n B _ hsum hcount hfit
  have hhead := headerBytes_length_le m Config.versionByte (zextBit ckOn) blksz
  have hrecs := records_length_le ckOn recs hfit
  have hend := endBytes_length_le trailer
  rw [hsum, hcount] at hrecs
  simp only [frameBytes, List.length_append]
  omega

end Sys2Proof.Machine
end

section
/-! SUPPORT. VarintRead (30_encoding R116): each turn and those after it accept exactly the rests of encodings, so that
all of them together accept exactly the encodings. -/

namespace Sys2Proof.Machine

/-! ### Values by their groups -/

/-- The value whose low group is that of the byte `b`, and whose other groups are those of `u`. -/
def joinGroup (b : Byte) (u : Word) : Word := (b &&& 0x7F).setWidth 32 ||| u <<< 7

theorem joinGroup_toNat (b : Byte) {u : Word} (hu : u.toNat < 2 ^ 25) :
    (joinGroup b u).toNat = b.toNat % 128 + 128 * u.toNat := by
  have hb : b.toNat % 128 < 2 ^ 7 := Nat.mod_lt _ (by decide)
  have hlow : ((b &&& 0x7F).setWidth 32 : Word).toNat = b.toNat % 128 := by
    rw [BitVec.toNat_setWidth, byte_and_7F_toNat, Nat.mod_eq_of_lt (by omega)]
  have hrest : (u <<< 7).toNat = 2 ^ 7 * u.toNat := by
    rw [BitVec.toNat_shiftLeft, Nat.shiftLeft_eq, Nat.mod_eq_of_lt (by omega), Nat.mul_comm]
  rw [joinGroup, BitVec.toNat_or, hlow, hrest, Nat.or_comm, ← Nat.two_pow_add_eq_or_of_lt hb, Nat.add_comm]

theorem joinGroup_shiftRight (b : Byte) {u : Word} (hu : u.toNat < 2 ^ 25) : joinGroup b u >>> 7 = u := by
  apply BitVec.eq_of_toNat_eq
  rw [shiftRight_seven_toNat, joinGroup_toNat b hu]
  omega

theorem lowGroup_joinGroup (b : Byte) {u : Word} (hu : u.toNat < 2 ^ 25) : lowGroup (joinGroup b u) = b &&& 0x7F := by
  apply BitVec.eq_of_toNat_eq
  rw [lowGroup_toNat, joinGroup_toNat b hu, byte_and_7F_toNat]
  omega

/-- A value is known by its low group and the rest. -/
theorem eq_of_groups {u v : Word} (hlow : lowGroup u = lowGroup v) (hrest : u >>> 7 = v >>> 7) : u = v := by
  have hl := congrArg BitVec.toNat hlow
  have hr := congrArg BitVec.toNat hrest
  rw [lowGroup_toNat, lowGroup_toNat] at hl
  rw [shiftRight_seven_toNat, shiftRight_seven_toNat] at hr
  exact BitVec.eq_of_toNat_eq (by omega)

/-- A turn of `VarintRead` adds its group under the groups still to come (30_encoding R116). -/
theorem varintGroup_or_shiftLeft (i : Nat) (acc u : Word) (b : Byte) :
    varintGroup i acc b ||| u <<< (7 * (i + 1)) = acc ||| joinGroup b u <<< (7 * i) := by
  rw [varintGroup, joinGroup, BitVec.shiftLeft_or_distrib, ← BitVec.shiftLeft_add, BitVec.or_assoc, Nat.mul_succ,
    Nat.add_comm 7]

/-! ### Bytes -/

theorem byte_of_bit7_set {b : Byte} (h : b.getLsbD 7 = true) : 0x80 ||| (b &&& 0x7F) = b := by
  revert b; decide +kernel

theorem byte_of_bit7_clear {b : Byte} (h : b.getLsbD 7 = false) : b.toNat < 128 := by
  revert b; decide +kernel

theorem bit7_clear_of_four_bits {b : Byte} (h : b.extractLsb' 4 4 = (0 : BitVec 4)) : b.getLsbD 7 = false := by
  revert b; decide +kernel

theorem lowGroup_setWidth {b : Byte} (h : b.getLsbD 7 = false) : lowGroup (b.setWidth 32) = b := by
  have hb := byte_of_bit7_clear h
  apply BitVec.eq_of_toNat_eq
  rw [lowGroup_toNat, BitVec.toNat_setWidth]
  omega

theorem setWidth_lowGroup {u : Word} (h : u.toNat < 128) : (lowGroup u).setWidth 32 = u := by
  apply BitVec.eq_of_toNat_eq
  rw [BitVec.toNat_setWidth, lowGroup_toNat]
  omega

/-- A turn that ends a varint has added its byte's value. -/
theorem varintGroup_of_bit7_clear (i : Nat) (acc : Word) {b : Byte} (h : b.getLsbD 7 = false) :
    varintGroup i acc b = acc ||| b.setWidth 32 <<< (7 * i) := by
  have hb : b &&& 0x7F = b := by revert b; decide +kernel
  rw [varintGroup, hb]

/-! ### The rest of an encoding -/

/-- `u` can be the rest of a varint's value where at most `more` bytes follow the next one: it has no more bits than are
left of 32, and after the first byte it is not zero, since the form is the shortest (30_encoding R115, R116). -/
def RestOfValue (more : Nat) (u : Word) : Prop := u.toNat < 2 ^ (4 + 7 * more) ∧ (more = 4 ∨ u ≠ 0)

theorem restOfValue_first (v : Word) : RestOfValue 4 v := ⟨v.isLt, .inl rfl⟩

theorem RestOfValue.lt {more : Nat} {u : Word} (hm : more < 4) (h : RestOfValue more u) : u.toNat < 2 ^ 25 :=
  Nat.lt_of_lt_of_le h.1 (Nat.pow_le_pow_right (by decide) (by omega))

theorem RestOfValue.ne_zero {more : Nat} {u : Word} (hm : more < 4) (h : RestOfValue more u) : u ≠ 0 :=
  h.2.resolve_left (by omega)

theorem two_pow_next_group (more : Nat) : 2 ^ (4 + 7 * (more + 1)) = 128 * 2 ^ (4 + 7 * more) := by
  rw [Nat.mul_succ, ← Nat.add_assoc, Nat.pow_add, Nat.mul_comm]

theorem RestOfValue.join {more : Nat} {u : Word} (hm : more < 4) (b : Byte) (h : RestOfValue more u) :
    RestOfValue (more + 1) (joinGroup b u) := by
  have hpow := two_pow_next_group more
  have hlt := h.1
  have hnat := joinGroup_toNat b (h.lt hm)
  refine ⟨by omega, .inr fun h0 => h.ne_zero hm ?_⟩
  rw [← joinGroup_shiftRight b (h.lt hm), h0]
  rfl

theorem RestOfValue.rest {more : Nat} {u : Word} (h : RestOfValue (more + 1) u) (h128 : 128 ≤ u.toNat) :
    RestOfValue more (u >>> 7) := by
  have hpow := two_pow_next_group more
  have hlt := h.1
  refine ⟨by rw [shiftRight_seven_toNat]; omega, .inr fun h0 => ?_⟩
  exact Nat.not_lt.mpr h128 ((shiftRight_seven_eq_zero_iff u).mp h0)

theorem setWidth_eq_zero_iff (b : Byte) : (b.setWidth 32 : Word) = 0 ↔ b = 0x00 := by
  rw [← BitVec.toNat_inj, ← BitVec.toNat_inj, BitVec.toNat_setWidth, Nat.mod_eq_of_lt (by omega)]
  rfl

/-- A last byte before the fifth: any but zero, and zero too where it is the first. -/
theorem restOfValue_byte_iff {more : Nat} (hm : more < 4) {b : Byte} (h7 : b.getLsbD 7 = false) :
    RestOfValue (more + 1) (b.setWidth 32) ↔ 4 - (more + 1) = 0 ∨ b ≠ 0x00 := by
  have hb := byte_of_bit7_clear h7
  have hpow := two_pow_next_group more
  have hpos : 0 < 2 ^ (4 + 7 * more) := Nat.two_pow_pos _
  have hfits : (b.setWidth 32 : Word).toNat < 2 ^ (4 + 7 * (more + 1)) := by rw [BitVec.toNat_setWidth]; omega
  have hfirst : more + 1 = 4 ↔ 4 - (more + 1) = 0 := by omega
  rw [RestOfValue, and_iff_right hfits, hfirst, ne_eq, setWidth_eq_zero_iff]

/-- A fifth byte: four bits, and not zero. -/
theorem restOfValue_fifth_iff (b : Byte) :
    RestOfValue 0 (b.setWidth 32) ↔ b.extractLsb' 4 4 = (0 : BitVec 4) ∧ b ≠ 0x00 := by
  have hfits : (b.setWidth 32 : Word).toNat < 2 ^ (4 + 7 * 0) ↔ b.extractLsb' 4 4 = (0 : BitVec 4) := by
    revert b; decide +kernel
  rw [RestOfValue, hfits, or_iff_right (by decide), ne_eq, setWidth_eq_zero_iff]

/-! ### The bytes of the rest -/

/-- The value of a last byte is that byte. -/
theorem varintBytes_setWidth (more : Nat) {b : Byte} (h7 : b.getLsbD 7 = false) :
    varintBytes more (b.setWidth 32) = [b] := by
  have hb := byte_of_bit7_clear h7
  rw [varintBytes_of_lt more (by rw [BitVec.toNat_setWidth]; omega), lowGroup_setWidth h7]

/-- A byte with bit 7 set goes in front of any rest. -/
theorem varintBytes_joinGroup {more : Nat} (hm : more < 4) {b : Byte} {u : Word} (h7 : b.getLsbD 7 = true)
    (hu : RestOfValue more u) : varintBytes (more + 1) (joinGroup b u) = b :: varintBytes more u := by
  have hrest := joinGroup_shiftRight b (hu.lt hm)
  have hlow := lowGroup_joinGroup b (hu.lt hm)
  rw [varintBytes_more _ (by rw [hrest]; exact hu.ne_zero hm), hrest]
  rw [lowGroup] at hlow
  rw [hlow, byte_of_bit7_set h7]

/-- A byte without bit 7, and any fifth byte, begins the encoding of no other value than its own. -/
theorem eq_setWidth_of_prefix {more : Nat} {b : Byte} {p : List Byte} {u : Word} (hb : more = 0 ∨ b.getLsbD 7 = false)
    (hu : RestOfValue more u) (hp : b :: p <+: varintBytes more u) : u = b.setWidth 32 := by
  rcases Nat.lt_or_ge u.toNat 128 with h | h
  · rw [varintBytes_of_lt more h, List.cons_prefix_cons] at hp
    rw [hp.1, setWidth_lowGroup h]
  · cases more with
    | zero => have := hu.1; omega
    | succ more =>
      rw [varintBytes_of_le more h, List.cons_prefix_cons] at hp
      have h7 := hb.resolve_left (Nat.succ_ne_zero more)
      rw [hp.1, continued_bit7] at h7
      cases h7

/-- A byte with bit 7 begins only values of more groups, and the other bytes begin their rest. -/
theorem rest_of_prefix {more : Nat} {b : Byte} {p : List Byte} {u : Word} (h7 : b.getLsbD 7 = true)
    (hp : b :: p <+: varintBytes (more + 1) u) :
    128 ≤ u.toNat ∧ b = 0x80 ||| lowGroup u ∧ p <+: varintBytes more (u >>> 7) := by
  rcases Nat.lt_or_ge u.toNat 128 with h | h
  · rw [varintBytes_of_lt _ h, List.cons_prefix_cons] at hp
    rw [hp.1, lowGroup_bit7] at h7
    cases h7
  · rw [varintBytes_of_le more h, List.cons_prefix_cons] at hp
    exact ⟨h, hp⟩

/-- No encoding begins another. -/
theorem eq_of_varintBytes_prefix {more : Nat} {u v : Word} (hu : RestOfValue more u) (hv : RestOfValue more v)
    (h : varintBytes more u <+: varintBytes more v) : u = v := by
  induction more generalizing u v with
  | zero =>
    have hu128 : u.toNat < 128 := Nat.lt_trans hu.1 (by decide)
    rw [varintBytes_of_lt 0 hu128] at h
    rw [eq_setWidth_of_prefix (.inl rfl) hv h, setWidth_lowGroup hu128]
  | succ more ih =>
    rcases Nat.lt_or_ge u.toNat 128 with hu128 | hu128
    · rw [varintBytes_of_lt _ hu128] at h
      rw [eq_setWidth_of_prefix (.inr (lowGroup_bit7 u)) hv h, setWidth_lowGroup hu128]
    · rw [varintBytes_of_le _ hu128] at h
      obtain ⟨hv128, hlow, hrest⟩ := rest_of_prefix (continued_bit7 _) h
      have hmod := congrArg (BitVec.toNat · % 128) hlow
      refine eq_of_groups ?_ (ih (hu.rest hu128) (hv.rest hv128) hrest)
      simp only [continued_toNat_mod, lowGroup_toNat, Nat.mod_mod] at hmod
      rw [← BitVec.toNat_inj, lowGroup_toNat, lowGroup_toNat, hmod]

theorem eq_of_varint_prefix {u v : Word} (h : varint u <+: varint v) : u = v :=
  eq_of_varintBytes_prefix (restOfValue_first u) (restOfValue_first v) h

/-! ### The turns of VarintRead (30_encoding R116) -/

/-- The bytes begin the rest of an encoding, and at least one more byte of it must follow. -/
def UnfinishedRest (more : Nat) (bs : List Byte) : Prop :=
  ∃ u, RestOfValue more u ∧ bs <+: varintBytes more u ∧ bs ≠ varintBytes more u

/-- The bytes begin the rest of no encoding. -/
def BeginsNoRest (more : Nat) (bs : List Byte) : Prop := ∀ u, RestOfValue more u → ¬ bs <+: varintBytes more u

theorem unfinishedRest_nil (more : Nat) : UnfinishedRest more [] := by
  refine ⟨1, ⟨?_, .inr (by decide)⟩, List.nil_prefix, (varintBytes_ne_nil more 1).symm⟩
  exact Nat.one_lt_two_pow (by omega)

theorem UnfinishedRest.cons {more : Nat} (hm : more < 4) {b : Byte} {p : List Byte} (h7 : b.getLsbD 7 = true)
    (h : UnfinishedRest more p) : UnfinishedRest (more + 1) (b :: p) := by
  obtain ⟨u, hu, hp, hne⟩ := h
  refine ⟨joinGroup b u, hu.join hm b, ?_, ?_⟩ <;> rw [varintBytes_joinGroup hm h7 hu]
  · exact List.cons_prefix_cons.mpr ⟨rfl, hp⟩
  · exact fun h => hne (List.cons.inj h).2

theorem BeginsNoRest.cons {more : Nat} {b : Byte} {p : List Byte} (h7 : b.getLsbD 7 = true)
    (h : BeginsNoRest more p) : BeginsNoRest (more + 1) (b :: p) := by
  intro u hu hp
  obtain ⟨h128, -, hrest⟩ := rest_of_prefix h7 hp
  exact h _ (hu.rest h128) hrest

/-- What a turn and those after it can do where at most `more` bytes follow the next and `acc` is the value so far:
each end says what IN begins with. -/
inductive TurnsOutcome (more : Nat) (acc : Word) (s : State) : Res Word → Prop where
  /-- The rest of an encoding. -/
  | value (u : Word) (rest : List Byte) (hu : RestOfValue more u) (hq : s.inq = varintBytes more u ++ rest) :
    TurnsOutcome more acc s (.ok (acc ||| u <<< (7 * (4 - more))) (consume (varintBytes more u).length s))
  /-- Bytes that begin one, up to an offending byte `b`. -/
  | malformed (p : List Byte) (b : Byte) (rest : List Byte) (hq : s.inq = p ++ b :: rest)
      (hp : UnfinishedRest more p) (hb : BeginsNoRest more (p ++ [b])) :
    TurnsOutcome more acc s (.raised (raise .malformedBlock (consume (p.length + 1) s)))
  /-- Less than one, and no more can come. -/
  | truncated (hq : UnfinishedRest more s.inq) (he : s.eos = true) :
    TurnsOutcome more acc s (.raised (raise .truncatedStream (consume s.inq.length s)))
  /-- Less than one so far. -/
  | waits (hq : UnfinishedRest more s.inq) (he : s.eos = false) :
    TurnsOutcome more acc s (.wait (consume s.inq.length s))

namespace TurnsOutcome

variable {more : Nat} {acc : Word} {s : State} {b : Byte} {rest : List Byte}

/-- A turn that accepts its byte as the last one. -/
theorem last_byte (hq : s.inq = b :: rest) (h7 : b.getLsbD 7 = false) (hv : RestOfValue more (b.setWidth 32)) :
    TurnsOutcome more acc s (.ok (varintGroup (4 - more) acc b) (consume 1 s)) := by
  have hbytes := varintBytes_setWidth more h7
  have h := value (acc := acc) (s := s) (b.setWidth 32) rest hv (by rw [hbytes, hq]; rfl)
  rwa [hbytes, ← varintGroup_of_bit7_clear _ _ h7] at h

/-- A turn that refuses its byte. -/
theorem bad_byte (hq : s.inq = b :: rest) (hb : more = 0 ∨ b.getLsbD 7 = false)
    (hv : ¬ RestOfValue more (b.setWidth 32)) :
    TurnsOutcome more acc s (.raised (raise .malformedBlock (consume 1 s))) :=
  malformed [] b rest hq (unfinishedRest_nil more) fun _ hu hp => hv (eq_setWidth_of_prefix hb hu hp ▸ hu)

/-- A turn that finds no byte. -/
theorem no_byte (hq : s.inq = []) :
    (s.eos = true → TurnsOutcome more acc s (.raised (raise .truncatedStream s))) ∧
    (s.eos = false → TurnsOutcome more acc s (.wait s)) := by
  have hun : UnfinishedRest more s.inq := hq ▸ unfinishedRest_nil more
  have hs : consume s.inq.length s = s := by rw [hq]; exact consume_zero s
  have ht := truncated (acc := acc) hun
  have hw := waits (acc := acc) hun
  rw [hs] at ht hw
  exact ⟨ht, hw⟩

/-- A turn that takes a byte with bit 7 and leaves the end to the next. -/
theorem after_byte (hm : more < 4) (hq : s.inq = b :: rest) (h7 : b.getLsbD 7 = true) {r : Res Word}
    (h : TurnsOutcome more (varintGroup (4 - (more + 1)) acc b) (consume 1 s) r) : TurnsOutcome (more + 1) acc s r := by
  have hrest : (consume 1 s).inq = rest := by rw [consume_inq, hq]; rfl
  have hall : (consume 1 s).inq.length + 1 = s.inq.length := by rw [hrest, hq, List.length_cons]
  have hunfinished (hun : UnfinishedRest more (consume 1 s).inq) : UnfinishedRest (more + 1) s.inq := by
    rw [hq, ← hrest]; exact hun.cons hm h7
  cases h with
  | value u rest' hu hq' =>
    have hi : 4 - more = 4 - (more + 1) + 1 := by omega
    have hbytes := varintBytes_joinGroup hm h7 hu
    have h := value (acc := acc) (s := s) (joinGroup b u) rest' (hu.join hm b)
      (by rw [hbytes, hq, ← hrest, hq', List.cons_append])
    rw [hbytes, List.length_cons] at h
    rwa [consume_consume, Nat.add_comm 1, hi, varintGroup_or_shiftLeft]
  | malformed p c rest' hq' hp hb =>
    rw [consume_consume, Nat.add_comm 1]
    exact malformed (b :: p) c rest' (by rw [hq, ← hrest, hq', List.cons_append]) (hp.cons hm h7) (hb.cons h7)
  | truncated hun he =>
    rw [consume_consume, Nat.add_comm 1, hall]
    exact truncated (hunfinished hun) he
  | waits hun he =>
    rw [consume_consume, Nat.add_comm 1, hall]
    exact waits (hunfinished hun) he

end TurnsOutcome

/-- The turns accept the rests of encodings and nothing else. -/
theorem varintTurns_turnsOutcome {more : Nat} (hm : more ≤ 4) (acc : Word) (s : State) :
    TurnsOutcome more acc s (varintTurns more acc s) := by
  induction more generalizing acc s with
  | zero =>
    rcases inByte_cases s with ⟨b, rest, hq, h⟩ | ⟨hq, he, h⟩ | ⟨hq, he, h⟩
    · rw [varintTurns, h, Res.bind_ok]
      rcases require_cases (b.extractLsb' 4 4 = (0 : BitVec 4)) .malformedBlock (consume 1 s) with
        ⟨h4, hr⟩ | ⟨h4, hr⟩
      · rw [hr, Res.bind_ok]
        rcases require_cases (b ≠ 0x00) .malformedBlock (consume 1 s) with ⟨h0, hr⟩ | ⟨h0, hr⟩
        · rw [hr, Res.bind_ok]
          exact .last_byte hq (bit7_clear_of_four_bits h4) ((restOfValue_fifth_iff b).mpr ⟨h4, h0⟩)
        · rw [hr, Res.bind_raised]
          exact .bad_byte hq (.inl rfl) fun hv => h0 ((restOfValue_fifth_iff b).mp hv).2
      · rw [hr, Res.bind_raised]
        exact .bad_byte hq (.inl rfl) fun hv => h4 ((restOfValue_fifth_iff b).mp hv).1
    · rw [varintTurns, h, Res.bind_raised]; exact (TurnsOutcome.no_byte hq).1 he
    · rw [varintTurns, h, Res.bind_wait]; exact (TurnsOutcome.no_byte hq).2 he
  | succ more ih =>
    rcases inByte_cases s with ⟨b, rest, hq, h⟩ | ⟨hq, he, h⟩ | ⟨hq, he, h⟩
    · rw [varintTurns, h, Res.bind_ok]
      cases h7 : b.getLsbD 7 with
      | true => exact .after_byte hm hq h7 (ih (Nat.le_of_lt hm) _ _)
      | false =>
        have hv := restOfValue_byte_iff hm h7
        rcases require_cases (4 - (more + 1) = 0 ∨ b ≠ 0x00) .malformedBlock (consume 1 s) with
          ⟨hb, hr⟩ | ⟨hb, hr⟩
        · simp only [hr, Res.bind_ok, Bool.false_eq_true, if_false]
          exact .last_byte hq h7 (hv.mpr hb)
        · simp only [hr, Res.bind_raised, Bool.false_eq_true, if_false]
          exact .bad_byte hq (.inr h7) fun h => hb (hv.mp h)
    · rw [varintTurns, h, Res.bind_raised]; exact (TurnsOutcome.no_byte hq).1 he
    · rw [varintTurns, h, Res.bind_wait]; exact (TurnsOutcome.no_byte hq).2 he

/-! ### VarintRead as a whole -/

/-- What VarintRead can do, each end by what IN begins with (30_encoding R116). -/
inductive VarintReadEnd (s : State) : Res Word → Prop where
  | value (v : Word) (rest : List Byte) (hq : s.inq = varint v ++ rest) :
    VarintReadEnd s (.ok v (consume (varint v).length s))
  | malformed (k : Nat) (hk : k ≤ s.inq.length) (hill : IllFormedVarint (s.inq.take k)) :
    VarintReadEnd s (.raised (raise .malformedBlock (consume k s)))
  | truncated (hq : UnfinishedVarint s.inq) (he : s.eos = true) :
    VarintReadEnd s (.raised (raise .truncatedStream (consume s.inq.length s)))
  | waits (hq : UnfinishedVarint s.inq) (he : s.eos = false) :
    VarintReadEnd s (.wait (consume s.inq.length s))

theorem UnfinishedRest.unfinishedVarint {bs : List Byte} (h : UnfinishedRest 4 bs) : UnfinishedVarint bs :=
  let ⟨u, _, hp, hne⟩ := h
  ⟨u, hp, hne⟩

/-- The turns begin with four bytes to follow the first and the value 0. -/
theorem varintRead_end (s : State) : VarintReadEnd s (varintRead s) := by
  have h := varintTurns_turnsOutcome (Nat.le_refl 4) 0 s
  rw [← varintRead] at h
  generalize varintRead s = r at h
  cases h with
  | value u rest hu hq =>
    have hv : (0 : Word) ||| u <<< (7 * (4 - 4)) = u := by simp
    rw [hv]
    exact .value u rest hq
  | malformed p b rest hq hp hb =>
    have htake : s.inq.take (p.length + 1) = p ++ [b] := by
      rw [hq, List.append_cons]
      exact List.take_left' List.length_append
    refine .malformed (p.length + 1) (by rw [hq, List.length_append, List.length_cons]; omega) ?_
    rw [htake, IllFormedVarint, List.dropLast_concat]
    exact ⟨hp.unfinishedVarint, fun v => hb v (restOfValue_first v)⟩
  | truncated hun he => exact .truncated hun.unfinishedVarint he
  | waits hun he => exact .waits hun.unfinishedVarint he

/-- What begins with an encoding is no unfinished one. -/
theorem not_unfinishedVarint {bs : List Byte} {v : Word} (h : varint v <+: bs) : ¬ UnfinishedVarint bs := by
  rintro ⟨w, hp, hne⟩
  obtain rfl := eq_of_varint_prefix (h.trans hp)
  exact hne (hp.eq_of_length_le h.length_le)

/-- Nor does it begin with an ill-formed one. -/
theorem not_illFormedVarint_take {bs : List Byte} {v : Word} (h : varint v <+: bs) (k : Nat) :
    ¬ IllFormedVarint (bs.take k) := by
  intro hill
  rcases List.prefix_or_prefix_of_prefix h (List.take_prefix k bs) with hv | hv
  · rw [← List.dropLast_append_getLast hill.ne_nil, List.prefix_concat_iff,
      List.dropLast_append_getLast hill.ne_nil] at hv
    rcases hv with hv | hv
    · exact hill.2 v (hv ▸ List.prefix_rfl)
    · exact not_unfinishedVarint hv hill.1
  · exact hill.2 v hv

/-- Settles O6: of VarintRead's ends only a value is left where IN begins with an encoding. -/
theorem varintReadAcceptsExactlyVarint : Obligations.VarintReadAcceptsExactlyVarint := by
  intro s
  constructor
  · intro v rest hq
    have hv : varint v <+: s.inq := hq ▸ List.prefix_append _ _
    have h := varintRead_end s
    generalize varintRead s = r at h
    cases h with
    | value u rest' hq' =>
      have hu : varint u <+: s.inq := hq' ▸ List.prefix_append _ _
      have huv : u = v := (List.prefix_or_prefix_of_prefix hu hv).elim eq_of_varint_prefix
        fun h => (eq_of_varint_prefix h).symm
      rw [huv]
    | malformed k hk hill => exact absurd hill (not_illFormedVarint_take hv k)
    | truncated hun he => exact absurd hun (not_unfinishedVarint hv)
    | waits hun he => exact absurd hun (not_unfinishedVarint hv)
  · intro v t ht
    have h := varintRead_end s
    rw [ht] at h
    cases h with
    | value v rest hq => rw [consume_inq, hq, List.drop_left]

/-- Settles O7: of VarintRead's ends only the fault is left. -/
theorem varintReadFaults : Obligations.VarintReadFaults := by
  intro s
  have h := varintRead_end s
  generalize varintRead s = r at h
  constructor
  · intro hno hnotyet
    cases h with
    | value v rest hq => exact absurd (hq ▸ List.prefix_append _ _) (hno v)
    | malformed k hk hill => exact ⟨k, hk, hill, rfl⟩
    | truncated hun he | waits hun he =>
      obtain ⟨v, hp, -⟩ := hun
      exact absurd hp (hnotyet v)
  · intro v hp hne he
    cases h with
    | value u rest hq =>
      exact absurd ⟨v, hp, hne⟩ (not_unfinishedVarint (hq ▸ List.prefix_append _ _))
    | malformed k hk hill => exact absurd ((List.take_prefix k s.inq).trans hp) (hill.2 v)
    | truncated hun he => rfl
    | waits hun hw => exact absurd (he.symm.trans hw) (by decide)

end Sys2Proof.Machine
end

section
/-! SUPPORT. The tag of REC.RD (30_encoding R107; 44_parser R194). -/

namespace Sys2Proof.Machine

/-- A tag that is refused as such: not one of the four, or the trailer's in a frame without checksums (30_encoding
R107). -/
def TagRefused (ckOn : Bool) (t : Byte) : Prop := t ∉ legalTags ∨ (t = 0x06 ∧ ckOn = false)

/-- A record's tag and the end marker's are never refused. -/
theorem not_tagRefused {ckOn : Bool} {t : Byte} (h : t = 0x00 ∨ t = 0x01 ∨ t = 0x02) : ¬ TagRefused ckOn t := by
  rintro (hmem | ⟨h6, -⟩)
  · exact hmem (by rcases h with rfl | rfl | rfl <;> decide)
  · exact absurd (h6 ▸ h) (by decide)

/-- The trailer's tag is refused only where there are no checksums. -/
theorem ck_of_tagRefused {ckOn : Bool} (h : TagRefused ckOn 0x06) : ckOn = false :=
  h.elim (fun hmem => absurd (by decide) hmem) And.right

/-- Each of REC.RD's checks of the tag raises MalformedBlock, and no refused tag passes them all. -/
theorem recRdBody_of_tagRefused {s : State} {t : Byte} {rest : List Byte} (hq : s.inq = t :: rest)
    (ht : TagRefused (ck s) t) :
    recRdBody s = .raised (raise .malformedBlock ((consume 1 s).setRecTag t)) := by
  rw [recRdBody, inByte_cons hq, Res.bind_ok]
  dsimp only
  generalize hu : (consume 1 s).setRecTag t = u
  have hcku : ck u = ck s := by rw [← hu]; rfl
  rcases require_cases (tagReserved t = 0) .malformedBlock u with ⟨h0, hr⟩ | ⟨-, hr⟩
  · rw [hr, Res.bind_ok]
    cases hend : tagEnd t with
    | true =>
      rw [if_pos rfl, recRdEnd]
      rcases require_cases (tagStored t = false) .malformedBlock u with ⟨hst, hr⟩ | ⟨-, hr⟩
      · have htag := tag_end h0 hend hst
        cases htr : tagTrailer t with
        | true =>
          have h6 : t = 0x06 := by simpa [htr] using htag
          have hck : ck u = false := hcku.trans (ck_of_tagRefused (h6 ▸ ht))
          rw [hr, Res.bind_ok, if_pos rfl, require_false (by simp [hck]), Res.bind_raised]
        | false =>
          have h2 : t = 0x02 := by simpa [htr] using htag
          exact absurd ht (not_tagRefused (.inr (.inr h2)))
      · rw [hr, Res.bind_raised]
    | false =>
      rw [if_neg Bool.false_ne_true, recRdRecord]
      rcases require_cases (tagTrailer t = false) .malformedBlock u with ⟨htr, -⟩ | ⟨-, hr⟩
      · exact absurd ht (not_tagRefused ((tag_record h0 hend htr).imp_right .inl))
      · rw [hr, Res.bind_raised]
  · rw [hr, Res.bind_raised]

/-- Settles O52. -/
theorem recRdRejectsIllegalTag : Obligations.RecRdRejectsIllegalTag := by
  intro s t rest hph hq ht
  have hbody : bodyOf .recRd (s.setBusy true) = _ := recRdBody_of_tagRefused (s := s.setBusy true) hq ht
  rw [exec_of_legal (by simp [hph]) (by rw [hph]; rfl), hbody, settle_raised]
  simp [consume, hq, raise, State.setRecTag, State.setBusy]

end Sys2Proof.Machine
end

section
/-! SUPPORT. The dispatch of a command by PHASE, NOP and RESET, and the host's operations at each register offset
(40_control R130 to R136). -/

namespace Sys2Proof.Machine

/-! ### Dispatch (40_control R132, R135, R136) -/

/-- In FAILED a command other than RESET has no effect (40_control R135). -/
theorem exec_of_failed {i : Instr} {s : State} (h : s.regs.phase = .failed) (hi : i ≠ .reset) :
    exec i s = .next s := by
  have hadm : admission i s.regs.phase = .ignored := by rw [h]; exact if_neg hi
  rw [exec_eq_issue, issue_ignored hadm]

/-- Outside FAILED a command whose phase is not listed is a fault and nothing else (40_control R136). -/
theorem exec_of_illegal {i : Instr} {s : State} (h : s.regs.phase ≠ .failed) (hl : legal i s.regs.phase = false) :
    exec i s = .next (raise .protocolViolation s) := by
  have hadm : admission i s.regs.phase = .violation := by rw [admission_live h, hl]; rfl
  rw [exec_eq_issue, issue_violation hadm]

/-- RESET executes in every phase (40_control R134). -/
theorem exec_reset (s : State) : exec .reset s = .next ((softReset (s.setBusy true)).setBusy false) := by
  have hadm : admission .reset s.regs.phase = .execute := by cases s.regs.phase <;> rfl
  rw [exec_eq_issue, issue_execute hadm, bodyOf, settle_ok]

/-- Settles O25. -/
theorem failedIgnoresCommands : Obligations.FailedIgnoresCommands :=
  fun _ _ => exec_of_failed

/-- Settles O24: no phase of the four lists is FAILED, and none is listed for the commands beside it. -/
theorem illegalPhaseRaisesProtocolViolation : Obligations.IllegalPhaseRaisesProtocolViolation := by
  intro s
  have hfault (i : Instr) (p : Phase) (hp : s.regs.phase = p) (hlive : p ≠ .failed) (hl : legal i p = false) :
      exec i s = .next (raise .protocolViolation s) :=
    exec_of_illegal (hp ▸ hlive) (hp ▸ hl)
  refine ⟨?_, ?_, ?_, ?_⟩
  · rintro (hp | hp | hp) <;> exact ⟨hfault _ _ hp nofun rfl, hfault _ _ hp nofun rfl⟩
  · rintro (hp | hp | hp | hp) <;> exact ⟨hfault _ _ hp nofun rfl, fun b => hfault _ _ hp nofun rfl⟩
  · rintro (hp | hp | hp | hp) <;> exact hfault _ _ hp nofun rfl
  · rintro (hp | hp | hp | hp) <;> exact hfault _ _ hp nofun rfl

/-- Settles O33. -/
theorem nopDoesNothing : Obligations.NopDoesNothing := by
  refine ⟨decode_encode .nop, fun s => ⟨fun hlive => ?_, fun hfailed => exec_of_failed hfailed nofun⟩⟩
  rw [exec_of_legal hlive rfl, bodyOf, settle_ok]
  rfl

/-- Both resets restore the table of 10_state R48 (70_reset R250, R251). -/
theorem resetTable_resetRegs (r : Regs) : ResetTable (resetRegs r) := by
  constructor <;> intros <;> rfl

/-- Settles O22: BUSY, which the end of the command clears, has that reset value already. -/
theorem resetCommandRestoresRegisters : Obligations.ResetCommandRestoresRegisters :=
  fun s => ⟨_, exec_reset s, resetTable_resetRegs _, rfl, rfl, rfl, rfl, rfl, rfl⟩

/-! ### Writes (40_control R130) -/

/-- In FAILED every write but that of RESET's word to CMD is ignored (10_state R47). -/
theorem wrOffset_of_failed {off : Nat} {v : Word} {s : State} (h : s.regs.phase = .failed)
    (hw : ¬ (off = 0x00 ∧ v = 0x00000001)) : wrOffset off v s = .next s := by
  rw [wrOffset, if_pos ⟨h, hw⟩]

/-- Outside FAILED a write of any word to CMD issues it (40_control R132). -/
theorem wrOffset_cmd {s : State} (h : s.regs.phase ≠ .failed) (w : Word) : wrOffset 0x00 w s = writeCmd w s := by
  have hcmd : regAt 0x00 = .cmd := rfl
  rw [wrOffset, if_neg (fun hf => h hf.1), if_pos hcmd]

/-- Outside FAILED a write to any other offset is that of the register there (40_control R130). -/
theorem wrOffset_reg {off : Nat} {s : State} (h : s.regs.phase ≠ .failed) (hoff : off ≠ 0x00) (v : Word) :
    wrOffset off v s = .next (writeReg (regAt off) v s) := by
  rw [wrOffset, if_neg (fun hf => h hf.1), if_neg (fun hcmd => hoff (regAt_cmd hcmd))]

/-- A command's word written to CMD executes it in every phase: RESET's word passes the gate of FAILED, and what that
gate stops is ignored by `exec` too (40_control R130, R132, R135). -/
theorem wrOffset_command {w : Word} {i : Instr} (hw : decode w = .command i) (s : State) :
    wrOffset 0x00 w s = exec i s := by
  have hwrite : writeCmd w s = exec i s := by rw [writeCmd, hw]
  by_cases hfailed : s.regs.phase = .failed
  · by_cases hi : i = .reset
    · have hreset : w = 0x00000001 := by rw [eq_encode_of_decode hw, hi]; rfl
      have hcmd : regAt 0x00 = .cmd := rfl
      rw [wrOffset, if_neg (by simp [hreset]), if_pos hcmd, hwrite]
    · have hother : w ≠ 0x00000001 := by
        rintro rfl
        exact hi (Decoded.command.inj (hw.symm.trans (decode_encode .reset)))
      rw [wrOffset_of_failed hfailed (fun h => hother h.2), exec_of_failed hfailed hi]
  · rw [wrOffset_cmd hfailed, hwrite]

/-- Settles O12. -/
theorem stepRunsDecodedCommand : Obligations.StepRunsDecodedCommand := by
  intro s w i rest hp hb he hw _
  rw [step_of_write hp (by decide) (by decide) he hb, wrOffset_command hw]

/-- Settles O15. -/
theorem failedIgnoresHostWrites : Obligations.FailedIgnoresHostWrites := by
  intro s off v rest hp hb hfailed he h4 hl hw
  exact (step_of_write hp h4 hl he hb).trans (wrOffset_of_failed hfailed hw)

/-- Bit 0 of a word, widened with zeros, as the mask of its lowest bit (40_control R130). -/
theorem zextBit_getLsbD_zero (v : Word) : zextBit (v.getLsbD 0) = (v &&& 1).setWidth 8 := by
  have hbit : (BitVec.ofBool (v.getLsbD 0)).setWidth 32 = v &&& 1 := (BitVec.and_one_eq_setWidth_ofBool_getLsbD).symm
  rw [zextBit, ← hbit]
  exact (BitVec.setWidth_setWidth_of_le _ (by decide)).symm

/-- The gate on FLAGS and BLKSZ is open in IDLE and DONE (10_state R46). -/
theorem gateOpen_iff (p : Phase) : gateOpen p = true ↔ p = .idle ∨ p = .done := by simp [gateOpen]

theorem not_gateOpen {p : Phase} (h : p = .sBody ∨ p = .pBody ∨ p = .pTrailer) : ¬ gateOpen p = true := by
  rw [gateOpen_iff]
  rcases h with rfl | rfl | rfl <;> decide

/-- The offsets of the registers a host can write besides CMD (10_state R44). -/
theorem mem_writable_of_regAt {off : Nat}
    (h : regAt off ∈ [.ctrl, .flags, .blksz, .recTag, .origLen, .recCk, .xlen]) :
    off ∈ [0x08, 0x0C, 0x14, 0x18, 0x1C, 0x24, 0x28] := by
  unfold regAt at h; split at h <;> simp_all

/-- Every other register ignores a write (40_control R130). -/
theorem writeReg_of_not_writable {r : Reg} (h : r ∉ [.ctrl, .flags, .blksz, .recTag, .origLen, .recCk, .xlen])
    (v : Word) (s : State) : writeReg r v s = s := by
  cases r with
  | ctrl | flags | blksz | recTag | origLen | recCk | xlen => exact absurd (by decide) h
  | _ => rfl

/-- Settles O14: outside FAILED the step is the write to the register at the offset. -/
theorem hostWriteTable : Obligations.HostWriteTable := by
  intro s off v rest hp hb hlive he h4 hl hoff q
  have hstep : step s = .next (writeReg (regAt off) v q) :=
    (step_of_write hp h4 hl he hb).trans (wrOffset_reg (s := q) hlive hoff v)
  rw [hstep]
  refine ⟨?ctrl, ?shut, ?flags, ?blksz, ?recTag, ?origLen, ?recCk, ?xlen, ?other⟩
  case shut =>
    intro hgated hph
    have hshut : ¬ gateOpen q.regs.phase = true := not_gateOpen hph
    rcases hgated with rfl | rfl <;> exact congrArg _ (if_neg hshut)
  case flags =>
    rintro rfl hph
    rw [← zextBit_getLsbD_zero]
    exact congrArg _ (if_pos ((gateOpen_iff q.regs.phase).mpr hph))
  case blksz =>
    rintro rfl hph
    exact congrArg _ (if_pos ((gateOpen_iff q.regs.phase).mpr hph))
  case recTag =>
    rintro rfl
    rw [← zextBit_getLsbD_zero]
    rfl
  case ctrl | origLen | recCk | xlen =>
    rintro rfl
    rfl
  case other =>
    intro hother
    rw [writeReg_of_not_writable (mt mem_writable_of_regAt hother)]

/-! ### Reads (40_control R131) -/

/-- Offsets above BUF_CAP's hold nothing (10_state R45). -/
theorem regAt_above {off : Nat} (h : 0x5C ≤ off) : regAt off = .reserved := by
  unfold regAt; split <;> simp_all

/-- `++` puts its second argument into the low bits. -/
theorem append_toNat {m n : Nat} (x : BitVec m) (y : BitVec n) : (x ++ y).toNat = x.toNat * 2 ^ n + y.toNat := by
  rw [BitVec.toNat_append, ← Nat.shiftLeft_add_eq_or_of_lt y.isLt, Nat.shiftLeft_eq]

/-- STATUS while BUSY is 0: PHASE, ERR and EPHASE in four bits each (10_state R22). -/
theorem statusWord_toNat (r : Regs) : (statusWord false (statusFields r)).toNat =
    r.phase.code.toNat + 16 * r.err.code.toNat + 256 * r.ephase.code.toNat := by
  rw [statusWord, statusFields]
  simp only [append_toNat, BitVec.ofNat_eq_ofNat, BitVec.toNat_ofNat, BitVec.toNat_ofBool, Bool.toNat_false]
  omega

/-- A register of one byte reads as its value. -/
theorem byte_setWidth_toNat (b : Byte) : (b.setWidth 32).toNat = b.toNat :=
  BitVec.toNat_setWidth_of_le (by decide)

/-- The low word of a counter (40_control R131). -/
theorem low_half_toNat (c : Count) : (c.extractLsb' 0 32).toNat = c.toNat % 2 ^ 32 := by
  rw [BitVec.extractLsb'_toNat, Nat.shiftRight_zero]

/-- The high word of a counter (40_control R131). -/
theorem high_half_toNat (c : Count) : (c.extractLsb' 32 32).toNat = c.toNat / 2 ^ 32 := by
  have hlt : c.toNat / 2 ^ 32 < 2 ^ 32 := Nat.div_lt_of_lt_mul c.isLt
  rw [BitVec.extractLsb'_toNat, Nat.shiftRight_eq_div_pow, Nat.mod_eq_of_lt hlt]

/-- Settles O16: the step answers the register at the offset; a word is as it stands, and narrower and wider
registers are read by their values. -/
theorem hostReadTable : Obligations.HostReadTable := by
  intro s off rest hp hb he h4 hl
  refine ⟨_, step_of_read hp h4 hl he hb, ?cmd, ?status, ?ctrl, ?flags, ?version, ?blksz, ?recTag, ?origLen, ?encLen,
    ?recCk, ?xlen, ?bufLen, ?blkDigest, ?frmDigest, ?seq, ?errSeq, ?totOrigLo, ?totOrigHi, ?inCntLo, ?inCntHi,
    ?outCntLo, ?outCntHi, ?bufCap, ?reserved⟩
  case cmd | blksz | origLen | encLen | recCk | xlen | bufLen | blkDigest | frmDigest | seq | errSeq | bufCap =>
    rintro rfl; rfl
  case status =>
    rintro rfl
    rw [← statusWord_toNat, ← hb]; rfl
  case ctrl =>
    rintro rfl
    change ((BitVec.ofBool s.regs.verify).setWidth 32).toNat = _
    cases s.regs.verify <;> rfl
  case flags | version | recTag => rintro rfl; exact byte_setWidth_toNat _
  case totOrigLo | inCntLo | outCntLo => rintro rfl; exact low_half_toNat _
  case totOrigHi | inCntHi | outCntHi => rintro rfl; exact high_half_toNat _
  case reserved => intro habove; rw [regAt_above habove]; rfl

end Sys2Proof.Machine
end

section
/-! SUPPORT. What a command leaves as it was (40_control R137), however its statements end: the table as a structure,
each command's row, and the issue of a command. -/

namespace Sys2Proof.Machine

/-- From `s` to `t` only what the command `i` may write has changed. BUSY is written by every command, and of PHASE
and the three registers of a fault `StatusKept` speaks. -/
structure CommandKeeps (i : Instr) (s t : State) : Prop where
  params : t.params = s.params
  eos : t.eos = s.eos
  events : t.events = s.events
  hostRead : t.hostRead = s.hostRead
  busyReads : t.busyReads = s.busyReads
  inq : i ∉ [.bufLd, .ckFabs, .hdrRd, .recRd] → t.inq = s.inq
  running : i ∉ [.bufLd, .ckFabs, .hdrRd, .recRd] → t.running = s.running
  out : i ∉ [.bufSt, .hdrWr, .recWr, .frmEnd false, .frmEnd true] → t.out = s.out
  verify : i ≠ .reset → t.regs.verify = s.regs.verify
  xlen : i ≠ .reset → t.regs.xlen = s.regs.xlen
  flags : i ∉ [.reset, .hdrRd] → t.regs.flags = s.regs.flags
  blksz : i ∉ [.reset, .hdrRd] → t.regs.blksz = s.regs.blksz
  version : i ∉ [.reset, .hdrWr, .hdrRd] → t.regs.version = s.regs.version
  recTag : i ∉ [.reset, .recWr, .frmEnd false, .frmEnd true, .recRd] → t.regs.recTag = s.regs.recTag
  origLen : i ∉ [.reset, .recRd] → t.regs.origLen = s.regs.origLen
  encLen : i ∉ [.reset, .recWr, .recRd] → t.regs.encLen = s.regs.encLen
  recCk : i ∉ [.reset, .recWr, .frmEnd true, .recRd] → t.regs.recCk = s.regs.recCk
  bufLen : i ∉ [.reset, .bufLd, .recRd] → t.regs.bufLen = s.regs.bufLen
  buf : i ∉ [.reset, .bufLd, .recRd] → ∀ a, bufByte t a = bufByte s a
  blkDigest : i ∉ [.reset, .ckBlk, .ckVfy, .recWr, .recRd] → t.regs.blkDigest = s.regs.blkDigest
  frmAcc : i ∉ [.reset, .ckFinit, .ckFabs, .ckFbuf, .hdrWr, .hdrRd] → t.regs.frmAcc = s.regs.frmAcc
  seq : i ∉ [.reset, .hdrWr, .recWr, .hdrRd, .recRd] → t.regs.seq = s.regs.seq
  totOrig : i ∉ [.reset, .hdrWr, .recWr, .hdrRd, .recRd] → t.regs.totOrig = s.regs.totOrig
  inCnt : i ∉ [.reset, .bufLd, .ckFabs, .hdrWr, .hdrRd, .recRd] → t.regs.inCnt = s.regs.inCnt
  outCnt : i ∉ [.reset, .bufSt, .hdrWr, .recWr, .frmEnd false, .frmEnd true, .hdrRd] → t.regs.outCnt = s.regs.outCnt

/-- From `s` to `t` the command `i` has raised no fault, nor changed PHASE but where it may. -/
structure StatusKept (i : Instr) (s t : State) : Prop where
  err : t.regs.err = s.regs.err
  ephase : t.regs.ephase = s.regs.ephase
  errSeq : t.regs.errSeq = s.regs.errSeq
  phase : i ∉ [.hdrWr, .frmEnd false, .frmEnd true, .hdrRd, .recRd, .frmVfy] → t.regs.phase = s.regs.phase

theorem CommandKeeps.refl (i : Instr) (s : State) : CommandKeeps i s s := by
  constructor <;> intros <;> rfl

/-- Fault entry writes nothing that `CommandKeeps` speaks of (60_exceptions R234). -/
theorem CommandKeeps.raise {i : Instr} {s t : State} (h : CommandKeeps i s t) (e : ErrCode) :
    CommandKeeps i s (raise e t) := { h with }

/-- How the statements of the command `i` end when they began in `b`: RESET apart, only a fault touches the registers
of a fault, and only the four commands that take from IN wait. -/
inductive BodyFrame (i : Instr) (b : State) : Res Unit → Prop where
  | ends {u : State} (h : CommandKeeps i b u) (hs : i ≠ .reset → StatusKept i b u) : BodyFrame i b (.ok () u)
  | raises {u : State} (h : CommandKeeps i b u) (hf : u.regs.phase = .failed) : BodyFrame i b (.raised u)
  | waits {u : State} (hi : i ∈ [.bufLd, .ckFabs, .hdrRd, .recRd]) (h : CommandKeeps i b u)
      (hs : StatusKept i b u) : BodyFrame i b (.wait u)

theorem require_frame {i : Instr} {b u : State} {c : Prop} [Decidable c] {e : ErrCode} (h : CommandKeeps i b u)
    (hs : StatusKept i b u) : BodyFrame i b (require c e u) := by
  rcases require_cases c e u with ⟨-, hr⟩ | ⟨-, hr⟩
  · rw [hr]; exact .ends h fun _ => hs
  · rw [hr]; exact .raises (h.raise e) rfl

/-- A check and what follows it. -/
theorem require_bind_frame {i : Instr} {b u : State} {c : Prop} [Decidable c] {e : ErrCode}
    {f : Unit → State → Res Unit} (h : CommandKeeps i b u) (hf : BodyFrame i b (f () u)) :
    BodyFrame i b ((require c e u).bind f) := by
  rcases require_cases c e u with ⟨-, hr⟩ | ⟨-, hr⟩
  · rw [hr, Res.bind_ok]; exact hf
  · rw [hr, Res.bind_raised]; exact .raises (h.raise e) rfl

/-! ### The rows of the commands with checks or input -/

theorem bufLdBody_frame (b : State) : BodyFrame .bufLd b (bufLdBody b) := by
  refine require_bind_frame (.refl _ b) ?_
  rcases loadBuf_cases b.regs.xlen b with ⟨-, h⟩ | ⟨-, -, h⟩ | ⟨-, -, h⟩
  · rw [h]; exact .ends (by constructor <;> simp) (fun _ => by constructor <;> simp)
  · rw [h]; exact .raises (by constructor <;> simp) rfl
  · rw [h]; exact .waits (by decide) (by constructor <;> simp) (by constructor <;> simp)

theorem ckVfyBody_frame (b : State) : BodyFrame .ckVfy b (ckVfyBody b) :=
  require_frame (by constructor <;> simp [bufByte]) (by constructor <;> simp)

theorem fabsTurns_frame (n : Nat) (b : State) : BodyFrame .ckFabs b (fabsTurns n b) := by
  have hkeeps (k : Nat) (v : Word) : CommandKeeps .ckFabs b ((consume k b).setFrmAcc v) := by
    constructor <;> simp [bufByte]
  have hstatus (k : Nat) (v : Word) : StatusKept .ckFabs b ((consume k b).setFrmAcc v) := by
    constructor <;> simp
  rcases Nat.lt_or_ge b.inq.length n with h | h
  · rw [fabsTurns_short h]
    cases b.eos with
    | true => exact .raises ((hkeeps _ _).raise _) rfl
    | false => exact .waits (by decide) (hkeeps _ _) (hstatus _ _)
  · rw [fabsTurns_enough h]; exact .ends (hkeeps _ _) fun _ => hstatus _ _

theorem hdrWrBody_frame (b : State) : BodyFrame .hdrWr b (hdrWrBody b) :=
  require_bind_frame (.refl _ b)
    (.ends (by constructor <;> simp [bufByte]) (fun _ => by constructor <;> simp))

/-- With and without checksums (43_serializer R172). -/
theorem recWrBody_frame (b : State) : BodyFrame .recWr b (recWrBody b) := by
  refine require_bind_frame (.refl _ b) (require_bind_frame (.refl _ b) ?_)
  simp only [recWrChecksum]
  split <;> exact .ends (by constructor <;> simp [bufByte]) (fun _ => by constructor <;> simp)

/-- Only with a trailer does FRM.END write REC_CK (43_serializer R174). -/
theorem frmEndBody_frame (t : Bool) (b : State) : BodyFrame (.frmEnd t) b (frmEndBody t b) := by
  refine require_bind_frame (.refl _ b) ?_
  cases t with
  | true | false => exact .ends (by constructor <;> simp [bufByte]) (fun _ => by constructor <;> simp)

theorem frmVfyBody_frame (b : State) : BodyFrame .frmVfy b (frmVfyBody b) :=
  require_bind_frame (.refl _ b)
    (.ends (by constructor <;> simp [bufByte]) (fun _ => by constructor <;> simp))

theorem hdrRdBody_frame (b : State) : BodyFrame .hdrRd b (hdrRdBody b) := by
  have hout := hdrRdBody_outcome b
  generalize hdrRdBody b = r at hout
  cases hout with
  | badMagic | badVersion | badFlags | badSize | truncatedEarly | truncatedFlags | truncatedSize =>
    exact .raises (by constructor <;> simp [bufByte]) rfl
  | waitsEarly | waitsFlags | waitsSize =>
    exact .waits (by decide) (by constructor <;> simp [bufByte]) (by constructor <;> simp)
  | done => exact .ends (by constructor <;> simp [bufByte]) (fun _ => by constructor <;> simp)

/-- Where REC.RD asks for a byte before the payload (44_parser R194). -/
theorem RecRdAt.frame {k : Nat} {b u : State} (h : RecRdAt b k u) :
    CommandKeeps .recRd b u ∧ StatusKept .recRd b u := by
  cases h with
  | tag => exact ⟨.refl _ b, by constructor <;> simp⟩
  | trailer | origLen | encLen | checksum =>
    exact ⟨by constructor <;> simp [recFields], by constructor <;> simp [recFields]⟩

theorem recRdBody_frame (b : State) : BodyFrame .recRd b (recRdBody b) := by
  have hout := recRdBody_outcome b
  generalize recRdBody b = r at hout
  cases hout with
  | truncated u hu | badLength k u hk hu => exact .raises (hu.frame.1.raise _) rfl
  | badTag | storedDiffers | tooLong | truncatedPayload | mismatch =>
    exact .raises (by constructor <;> simp [recFields, recLoaded]) rfl
  | waits u hu => exact .waits (by decide) hu.frame.1 hu.frame.2
  | waitsPayload =>
    exact .waits (by decide) (by constructor <;> simp [recFields]) (by constructor <;> simp [recFields])
  | checked | unchecked | ended | endedTrailer =>
    exact .ends (by constructor <;> simp [recFields, recLoaded])
      (fun _ => by constructor <;> simp [recFields, recLoaded])

/-! ### Every command -/

theorem bodyOf_frame (i : Instr) (b : State) : BodyFrame i b (bodyOf i b) := by
  cases i with
  | nop => exact .ends (.refl _ b) (fun _ => by constructor <;> simp)
  | reset => exact .ends (by constructor <;> simp) (fun h => absurd rfl h)
  | bufSt | ckBlk | ckFinit | ckFbuf =>
    exact .ends (by constructor <;> simp [bufByte]) (fun _ => by constructor <;> simp)
  | bufLd => exact bufLdBody_frame b
  | ckVfy => exact ckVfyBody_frame b
  | ckFabs => exact fabsTurns_frame _ b
  | hdrWr => exact hdrWrBody_frame b
  | recWr => exact recWrBody_frame b
  | frmEnd t => exact frmEndBody_frame t b
  | hdrRd => exact hdrRdBody_frame b
  | recRd => exact recRdBody_frame b
  | frmVfy => exact frmVfyBody_frame b

/-- The issue of a command adds nothing but BUSY to what its statements write, and the record of one that waits
(40_control R132). -/
theorem settle_commandKeeps {i : Instr} {s : State} {r : Res Unit} (h : BodyFrame i (s.setBusy true) r) :
    CommandKeeps i s (settle i s r) := by
  cases h with
  | ends h | raises h => exact { h with }
  | waits hi h => exact { h with running := fun hn => absurd hi hn }

/-- RESET apart, a command ends with the status it found or in FAILED. -/
theorem settle_status {i : Instr} {s : State} {r : Res Unit} (hi : i ≠ .reset)
    (h : BodyFrame i (s.setBusy true) r) :
    StatusKept i s (settle i s r) ∨ (settle i s r).regs.phase = .failed := by
  cases h with
  | ends h hs => exact .inl { hs hi with }
  | raises h hf => exact .inr hf
  | waits hin h hs => exact .inl { hs with }

theorem exec_commandKeeps {i : Instr} {s t : State} (ht : exec i s = .next t) : CommandKeeps i s t := by
  rcases exec_cases i s with ⟨-, he⟩ | ⟨-, he⟩ | ⟨-, he⟩
  · cases he.symm.trans ht; exact .refl i s
  · cases he.symm.trans ht; exact (CommandKeeps.refl i s).raise _
  · cases he.symm.trans ht; exact settle_commandKeeps (bodyOf_frame i _)

/-- RESET apart, a command that does not go from outside FAILED into it leaves the registers of a fault alone
(60_exceptions R234, R235). -/
theorem exec_status {i : Instr} {s t : State} (hi : i ≠ .reset) (ht : exec i s = .next t) :
    StatusKept i s t ∨ (s.regs.phase ≠ .failed ∧ t.regs.phase = .failed) := by
  rcases exec_cases i s with ⟨-, he⟩ | ⟨hadm, he⟩ | ⟨hadm, he⟩
  · cases he.symm.trans ht; exact .inl ⟨rfl, rfl, rfl, fun _ => rfl⟩
  · cases he.symm.trans ht; exact .inr ⟨live_of_violation hadm, rfl⟩
  · cases he.symm.trans ht
    exact (settle_status hi (bodyOf_frame i _)).imp_right fun hf => ⟨(legal_of_execute hadm hi).1, hf⟩

/-- Settles O32: RESET, which the table of R137 leaves out, is in every list of `CommandKeeps` that names registers. -/
theorem commandFrames : Obligations.CommandFrames := by
  intro i s t ht
  have h := exec_commandKeeps ht
  refine ⟨⟨h.params, h.eos, h.events, h.hostRead, h.busyReads⟩, fun hn => ⟨h.inq hn, h.running hn⟩, h.out,
    fun hi => ?_⟩
  have hreset {l : List Instr} (hl : i ∉ l) : i ∉ .reset :: l := List.not_mem_cons_of_ne_of_not_mem hi hl
  have hone {j : Instr} (hj : i ≠ j) : i ∉ [.reset, j] := hreset (by simpa using hj)
  have hstatus (hp : t.regs.phase ≠ .failed ∨ s.regs.phase = .failed) : StatusKept i s t :=
    (exec_status hi ht).resolve_right fun hf => hp.elim (fun hne => hne hf.2) hf.1
  exact ⟨h.verify hi, h.xlen hi, fun hn => ⟨h.flags (hone hn), h.blksz (hone hn)⟩,
    fun hn => h.version (hreset hn), fun hn => h.recTag (hreset hn),
    fun hn => h.origLen (hone hn), fun hn => h.encLen (hreset hn),
    fun hn => h.recCk (hreset hn), fun hn => ⟨h.bufLen (hreset hn), h.buf (hreset hn)⟩,
    fun hn => h.blkDigest (hreset hn), fun hn => h.frmAcc (hreset hn),
    fun hn => ⟨h.seq (hreset hn), h.totOrig (hreset hn)⟩, fun hn => h.inCnt (hreset hn),
    fun hn => h.outCnt (hreset hn), fun hp => ⟨(hstatus hp).err, (hstatus hp).ephase, (hstatus hp).errSeq⟩,
    fun hn hp => (hstatus (.inl hp)).phase hn⟩

end Sys2Proof.Machine
end


section
/-! SUPPORT. The load of BUF by what IN holds, what BUF holds after it, and the buffer commands BUF.LD and BUF.ST
(41_buffer R140, R141). -/

namespace Sys2Proof.Machine

/-! ### The load of BUF (41_buffer R140; 44_parser R194) -/

theorem loadBuf_of_prefix {n : Word} {s : State} {p rest : List Byte} (hq : s.inq = p ++ rest)
    (hlen : p.length = n.toNat) :
    loadBuf n s = .ok () ((memWrite 0 p (consume p.length s)).setBufLen n) := by
  rcases loadBuf_cases n s with ⟨-, h⟩ | ⟨hshort, -, -⟩ | ⟨hshort, -, -⟩
  · rw [h, ← hlen, hq, List.take_left]
  all_goals
    rw [hq, List.length_append] at hshort
    omega

theorem loadBuf_of_truncated {n : Word} {s : State} (hshort : s.inq.length < n.toNat) (heos : s.eos = true) :
    loadBuf n s = .raised (forgetBuf (raise .truncatedStream ((consume s.inq.length s).setBufLen 0))) := by
  rcases loadBuf_cases n s with ⟨henough, -⟩ | ⟨-, -, h⟩ | ⟨-, hopen, -⟩
  · omega
  · exact h
  · exact absurd (heos.symm.trans hopen) nofun

/-- BUF's content after a load is the loaded bytes (10_state R32). -/
theorem bufContent_load {n : Word} {p : List Byte} (hlen : p.length = n.toNat) (s : State) :
    bufContent ((memWrite 0 p s).setBufLen n) = p := by
  calc bufContent ((memWrite 0 p s).setBufLen n)
      = memRead (memWrite 0 p s) 0 n.toNat := rfl
    _ = p := by rw [← hlen, memRead_memWrite]

/-- A load leaves the bytes past the loaded ones as they were. -/
theorem bufByte_load_of_le {p : List Byte} {a : Nat} (ha : p.length ≤ a) (n : Word) (s : State) :
    bufByte ((memWrite 0 p s).setBufLen n) a = bufByte s a := by
  calc bufByte ((memWrite 0 p s).setBufLen n) a
      = bufByte (memWrite 0 p s) a := rfl
    _ = bufByte s a := by rw [bufByte_memWrite, if_neg (by omega)]

/-! ### BUF.LD, legal in every phase outside FAILED (40_control R136; 41_buffer R140) -/

theorem exec_bufLd_of_fits {s : State} (hlive : s.regs.phase ≠ .failed) (hfit : s.regs.xlen ≤ s.params.bufBytes) :
    exec .bufLd s = .next (settle .bufLd s (loadBuf s.regs.xlen (s.setBusy true))) := by
  have hbody : bufLdBody (s.setBusy true) = loadBuf s.regs.xlen (s.setBusy true) := by
    rw [bufLdBody, require_true (by simpa using hfit), Res.bind_ok, setBusy_xlen]
  rw [exec_of_legal hlive rfl, bodyOf, hbody]

/-- XLEN is checked before any effect, so that BUSY alone has changed, which fault entry clears (60_exceptions R226). -/
theorem exec_bufLd_of_not_fits {s : State} (hlive : s.regs.phase ≠ .failed)
    (hfit : ¬ s.regs.xlen ≤ s.params.bufBytes) : exec .bufLd s = .next (raise .allocationFailure s) := by
  have hbody : bufLdBody (s.setBusy true) = .raised (raise .allocationFailure (s.setBusy true)) := by
    rw [bufLdBody, require_false (by simpa using hfit), Res.bind_raised]
  rw [exec_of_legal hlive rfl, bodyOf, hbody, settle_raised]
  rfl

/-- Settles O34. -/
theorem bufLdLoadsXlenBytes : Obligations.BufLdLoadsXlenBytes := by
  intro s p rest hlive hfit hq hlen
  have hq' : (s.setBusy true).inq = p ++ rest := hq
  rw [exec_bufLd_of_fits hlive hfit, loadBuf_of_prefix hq' hlen, settle_ok, consume_append hq']
  exact ⟨_, rfl, rfl, bufContent_load hlen _, fun a ha => bufByte_load_of_le ha s.regs.xlen s⟩

/-- Settles O35. -/
theorem bufLdFaults : Obligations.BufLdFaults := by
  intro s hlive
  refine ⟨exec_bufLd_of_not_fits hlive, fun hfit hshort heos => ?_⟩
  rw [exec_bufLd_of_fits hlive hfit, loadBuf_of_truncated (s := s.setBusy true) hshort heos, settle_raised,
    consume_all]
  exact ⟨_, rfl, rfl⟩

/-! ### BUF.ST (41_buffer R141) -/

/-- OUT_CNT advances by BUF_LEN, the number of bytes BUF.ST emits (20_memory R70). -/
theorem outPut_bufContent (s : State) : outPut (bufContent s) s =
    { s with out := s.out ++ bufContent s, regs.outCnt := s.regs.outCnt + s.regs.bufLen.setWidth 64 } := by
  rw [outPut, bufContent_length, BitVec.ofNat_toNat]

/-- Settles O36. -/
theorem bufStEmitsContent : Obligations.BufStEmitsContent := by
  refine ⟨decode_encode .bufSt, fun s => ⟨bufContent_length s, fun hlive => ?_,
    fun hfailed => exec_of_failed hfailed nofun⟩⟩
  rw [exec_of_legal hlive rfl, bodyOf, bufStBody, settle_ok, outPut_bufContent]
  rfl

end Sys2Proof.Machine
end

section
/-! SUPPORT. The digest: folding in pieces, and that a round, a step and a fold lose nothing of the accumulator
(42_checksum R150, R151, R160, R161). -/

namespace Sys2Proof.Machine

/-! ### Worked values (42_checksum R150, R151) -/

/-- Settles O9: six closed values, each a run of the model; the check value, 72 rounds, is run by the kernel. -/
theorem digestExamples : Obligations.DigestExamples :=
  ⟨by decide, by decide, by decide, by decide, by decide, by decide +kernel⟩

/-! ### Folding in pieces (42_checksum R160) -/

theorem crcFold_cons (acc : Word) (b : Byte) (t : List Byte) : crcFold acc (b :: t) = crcFold (crcStep acc b) t := rfl

/-- The fold of the model is the library's left fold, whose laws of `++` and `flatten` it takes over. -/
theorem crcFold_eq_foldl (acc : Word) (s : List Byte) : crcFold acc s = s.foldl crcStep acc := by
  induction s generalizing acc with
  | nil => rfl
  | cons b t ih => rw [crcFold_cons, ih, List.foldl_cons]

theorem crcFold_append (acc : Word) (s t : List Byte) : crcFold acc (s ++ t) = crcFold (crcFold acc s) t := by
  simp only [crcFold_eq_foldl, List.foldl_append]

theorem foldl_crcFold (acc : Word) (ps : List (List Byte)) : ps.foldl crcFold acc = crcFold acc ps.flatten := by
  induction ps generalizing acc with
  | nil => rfl
  | cons p ps ih => rw [List.foldl_cons, ih, List.flatten_cons, crcFold_append]

/-- Settles O10. -/
theorem digestIsIncremental : Obligations.DigestIsIncremental :=
  ⟨crcFold_append, fun ps => by rw [foldl_crcFold]; rfl⟩

/-! ### One changed byte (42_checksum R161) -/

/-- The bit a round shifts out comes back at the top: bit 31 of the polynomial is 1. -/
theorem crcRound_bit31 (acc : Word) : (crcRound acc).getLsbD 31 = acc.getLsbD 0 := by
  have hpoly : Config.crcPolynomial.getLsbD 31 = true := by decide
  unfold crcRound
  split
  next h =>
    rw [BitVec.getLsbD_xor, BitVec.getLsbD_ushiftRight, hpoly, h, BitVec.getLsbD_of_ge _ _ (by decide), Bool.false_xor]
  next h => simpa using h

/-- A word is its bit 0 and the bits above it. -/
theorem word_eq_of_bit0_of_shift {a b : Word} (h0 : a.getLsbD 0 = b.getLsbD 0) (hshift : a >>> 1 = b >>> 1) :
    a = b := by
  refine BitVec.eq_of_getLsbD_eq fun i _ => ?_
  cases i with
  | zero => exact h0
  | succ i => simpa [Nat.add_comm] using congrArg (·.getLsbD i) hshift

/-- A round can be undone: its bit 31 tells whether the polynomial was added. -/
theorem crcRound_injective : Function.Injective crcRound := by
  intro a b h
  have h0 : a.getLsbD 0 = b.getLsbD 0 := by rw [← crcRound_bit31, ← crcRound_bit31, h]
  refine word_eq_of_bit0_of_shift h0 ?_
  unfold crcRound at h
  rw [h0] at h
  split at h
  · exact (BitVec.xor_left_inj _).mp h
  · exact h

theorem crcRounds_injective (n : Nat) : Function.Injective (crcRounds n) := by
  induction n with
  | zero => exact Function.injective_id
  | succ n ih => exact ih.comp crcRound_injective

theorem crcStep_injective_acc (b : Byte) : Function.Injective (crcStep · b) :=
  fun _ _ h => (BitVec.xor_left_inj _).mp (crcRounds_injective 8 h)

theorem crcStep_injective_byte (acc : Word) : Function.Injective (crcStep acc) := by
  intro b c h
  have hwide : b.setWidth 32 = c.setWidth 32 := (BitVec.xor_right_inj _).mp (crcRounds_injective 8 h)
  simpa using congrArg (BitVec.setWidth 8) hwide

theorem crcFold_injective_acc (q : List Byte) : Function.Injective (crcFold · q) := by
  induction q with
  | nil => exact Function.injective_id
  | cons b q ih => exact ih.comp (crcStep_injective_acc b)

/-- Settles O11: the common prefix leaves one accumulator, the step on the two bytes parts it, and no byte of the
common suffix can bring the two together again. -/
theorem digestDetectsOneChangedByte : Obligations.DigestDetectsOneChangedByte := by
  intro p q b c hbc h
  have hfold : crcFold Config.crcOnes (p ++ b :: q) = crcFold Config.crcOnes (p ++ c :: q) :=
    (BitVec.xor_left_inj _).mp h
  rw [crcFold_append, crcFold_append, crcFold_cons, crcFold_cons] at hfold
  exact hbc (crcStep_injective_byte _ (crcFold_injective_acc q hfold))

end Sys2Proof.Machine
end

section
/-! SUPPORT. The checksum commands, legal in every phase outside FAILED (40_control R136; 42_checksum R153 to R157). -/

namespace Sys2Proof.Machine

/-! ### A command by how its statements end (40_control R132) -/

theorem exec_of_body_ok (i : Instr) {s t : State} (hlive : s.regs.phase ≠ .failed) (hl : legal i s.regs.phase = true)
    (hbody : bodyOf i (s.setBusy true) = .ok () t) : exec i s = .next (t.setBusy false) := by
  rw [exec_of_legal hlive hl, hbody, settle_ok]

theorem exec_of_body_raised (i : Instr) {s t : State} (hlive : s.regs.phase ≠ .failed)
    (hl : legal i s.regs.phase = true) (hbody : bodyOf i (s.setBusy true) = .raised t) : exec i s = .next t := by
  rw [exec_of_legal hlive hl, hbody, settle_raised]

/-! ### The digest of BUF: CK.BLK and CK.VFY (42_checksum R153, R154) -/

/-- Settles O37. -/
theorem ckBlkStoresDigest : Obligations.CkBlkStoresDigest := by
  refine ⟨decode_encode .ckBlk, fun s => ⟨fun hlive => ?_, fun hfailed => exec_of_failed hfailed nofun⟩⟩
  rw [exec_of_body_ok .ckBlk hlive rfl rfl]
  rfl

theorem ckVfyBody_of_match {s : State} (h : digest (bufContent s) = s.regs.recCk) :
    ckVfyBody s = .ok () (digestBuf s) :=
  require_true (by simpa using h) _ _

theorem ckVfyBody_of_mismatch {s : State} (h : digest (bufContent s) ≠ s.regs.recCk) :
    ckVfyBody s = .raised (raise .checksumMismatch (digestBuf s)) :=
  require_false (by simpa using h) _ _

/-- Settles O38. -/
theorem ckVfyComparesWithRecCk : Obligations.CkVfyComparesWithRecCk := by
  refine ⟨decode_encode .ckVfy, fun s => ⟨fun hlive hmatch => ?_, fun hlive hmismatch => ?_,
    fun hfailed => exec_of_failed hfailed nofun⟩⟩
  · exact exec_of_body_ok .ckVfy hlive rfl (ckVfyBody_of_match (s := s.setBusy true) hmatch)
  · exact exec_of_body_raised .ckVfy hlive rfl (ckVfyBody_of_mismatch (s := s.setBusy true) hmismatch)

/-! ### The whole-frame accumulator: CK.FINIT, CK.FABS and CK.FBUF (42_checksum R155 to R157) -/

/-- Settles O39. -/
theorem ckFinitRestartsAccumulator : Obligations.CkFinitRestartsAccumulator := by
  refine ⟨decode_encode .ckFinit, fun s => ⟨fun hlive => ?_, fun hfailed => exec_of_failed hfailed nofun⟩⟩
  rw [exec_of_body_ok .ckFinit hlive rfl rfl]
  rfl

/-- CK.FABS's loop takes exactly the `n` bytes that IN begins with. -/
theorem fabsTurns_of_prefix {n : Nat} {s : State} {p rest : List Byte} (hq : s.inq = p ++ rest) (hlen : p.length = n) :
    fabsTurns n s = .ok () ((consume p.length s).setFrmAcc (crcFold s.regs.frmAcc p)) := by
  have henough : n ≤ s.inq.length := by rw [hq, List.length_append]; omega
  rw [fabsTurns_enough henough, ← hlen, hq, List.take_left]

theorem fabsTurns_of_truncated {n : Nat} {s : State} (hshort : s.inq.length < n) (heos : s.eos = true) :
    fabsTurns n s =
      .raised (raise .truncatedStream ((consume s.inq.length s).setFrmAcc (crcFold s.regs.frmAcc s.inq))) := by
  rw [fabsTurns_short hshort, if_pos heos]

/-- Settles O40. -/
theorem ckFabsFoldsInput : Obligations.CkFabsFoldsInput := by
  refine ⟨decode_encode .ckFabs, fun s p rest => ⟨fun hlive hq hlen => ?_, fun hlive hshort heos => ?_,
    fun hfailed => exec_of_failed hfailed nofun⟩⟩
  · have hq' : (s.setBusy true).inq = p ++ rest := hq
    rw [exec_of_body_ok .ckFabs hlive rfl (fabsTurns_of_prefix hq' hlen), consume_append hq']
    rfl
  · rw [exec_of_body_raised .ckFabs hlive rfl (fabsTurns_of_truncated (s := s.setBusy true) hshort heos), consume_all]
    rfl

/-- Settles O41. -/
theorem ckFbufFoldsContent : Obligations.CkFbufFoldsContent := by
  refine ⟨decode_encode .ckFbuf, fun s => ⟨fun hlive => ?_, fun hfailed => exec_of_failed hfailed nofun⟩⟩
  rw [exec_of_body_ok .ckFbuf hlive rfl rfl]
  rfl

end Sys2Proof.Machine
end

section
/-! SUPPORT. The serializer commands HDR.WR, REC.WR and FRM.END (43_serializer R171 to R174). -/

namespace Sys2Proof.Machine

/-! ### HDR.WR (43_serializer R171) -/

/-- Magic, version and flags are six bytes (30_encoding R101 to R103). -/
theorem headerBytes_length (m : Magic) (version flags : Byte) (blksz : Word) :
    (headerBytes m version flags blksz).length = 6 + (varint blksz).length := by
  simp only [headerBytes, Magic.bytes, List.length_append, List.length_cons, List.length_nil]

theorem hdrWrBody_of_blksz {s : State} (hz : s.regs.blksz ≠ 0) :
    hdrWrBody s = .ok () ((outPut (headerBytes s.params.magic Config.versionByte s.regs.flags s.regs.blksz)
      ((beginFrame s).setVersion Config.versionByte)).setPhase .sBody) := by
  rw [hdrWrBody, require_true hz, Res.bind_ok]
  rfl

theorem hdrWrBody_of_no_blksz {s : State} (hz : s.regs.blksz = 0) :
    hdrWrBody s = .raised (raise .protocolViolation s) := by
  rw [hdrWrBody, require_false (not_not.mpr hz), Res.bind_raised]

/-- OUT_CNT is cleared before the header goes out, so that it is the header's length. -/
theorem outPut_headerBytes_outCnt (m : Magic) (version flags : Byte) (blksz : Word) {s : State}
    (h0 : s.regs.outCnt = 0) :
    (outPut (headerBytes m version flags blksz) s).regs.outCnt = BitVec.ofNat 64 (6 + (varint blksz).length) := by
  rw [outPut_outCnt, h0, headerBytes_length]
  exact BitVec.zero_add _

/-- Where no frame is in progress, HDR.WR is legal (40_control R136). -/
theorem hdrWr_legal {p : Phase} (h : p = .idle ∨ p = .done) : p ≠ .failed ∧ legal .hdrWr p = true := by
  rcases h with rfl | rfl <;> exact ⟨nofun, rfl⟩

/-- Settles O42. -/
theorem hdrWrBeginsFrame : Obligations.HdrWrBeginsFrame := by
  refine ⟨decode_encode .hdrWr, fun s => ⟨fun hph hz => ?_, fun hph hz => ?_, fun hph => ?_,
    fun hfailed => exec_of_failed hfailed nofun⟩⟩
  · obtain ⟨hlive, hl⟩ := hdrWr_legal hph
    rw [exec_of_body_ok .hdrWr hlive hl (hdrWrBody_of_blksz (s := s.setBusy true) hz),
      ← outPut_headerBytes_outCnt s.params.magic Config.versionByte s.regs.flags s.regs.blksz (beginFrame_outCnt s)]
    rfl
  · obtain ⟨hlive, hl⟩ := hdrWr_legal hph
    exact exec_of_body_raised .hdrWr hlive hl (hdrWrBody_of_no_blksz (s := s.setBusy true) hz)
  · rcases hph with hph | hph | hph <;> exact exec_of_illegal (by rw [hph]; nofun) (by rw [hph]; rfl)

/-! ### REC.WR (43_serializer R172) -/

/-- STORED, widened with zeros, is REC_TAG with its other bits cleared. -/
theorem zextBit_tagStored (t : Byte) : zextBit (tagStored t) = t &&& 1 :=
  BitVec.and_one_eq_setWidth_ofBool_getLsbD.symm

/-- The checksum field, and the digest in BLK_DIGEST and REC_CK, are there in a frame with checksums only. -/
theorem recWrChecksum_eq (s : State) : recWrChecksum s =
    (if ck s then le32 (digest (bufContent s)) else [],
      (s.setBlkDigest (if ck s then digest (bufContent s) else s.regs.blkDigest)).setRecCk
        (if ck s then digest (bufContent s) else s.regs.recCk)) := by
  unfold recWrChecksum
  split <;> rfl

section recWrReads
/-! BUF's content is that of BUF and BUF_LEN alone, and FLAGS.CK that of FLAGS. -/

variable (s : State)

@[simp] theorem bufContent_setBusy (v : Bool) : bufContent (s.setBusy v) = bufContent s := bufContent_congr rfl rfl rfl
@[simp] theorem bufContent_setRecTag (v : Byte) : bufContent (s.setRecTag v) = bufContent s :=
  bufContent_congr rfl rfl rfl
@[simp] theorem bufContent_setEncLen (v : Word) : bufContent (s.setEncLen v) = bufContent s :=
  bufContent_congr rfl rfl rfl
@[simp] theorem bufContent_setRecCk (v : Word) : bufContent (s.setRecCk v) = bufContent s :=
  bufContent_congr rfl rfl rfl
@[simp] theorem bufContent_setBlkDigest (v : Word) : bufContent (s.setBlkDigest v) = bufContent s :=
  bufContent_congr rfl rfl rfl

theorem ck_setRecTag (v : Byte) : ck (s.setRecTag v) = ck s := rfl
theorem ck_setEncLen (v : Word) : ck (s.setEncLen v) = ck s := rfl

end recWrReads

/-- What REC.WR puts on OUT: the head with the tag of STORED alone, the checksum field, BUF's content. -/
def recWrBytes (s : State) : List Byte :=
  recordHead (zextBit (stored s)) s.regs.origLen s.regs.bufLen ++
    (if ck s then le32 (digest (bufContent s)) else []) ++ bufContent s

/-- BUSY is no part of what REC.WR reads. -/
theorem recWrBytes_setBusy (v : Bool) (s : State) : recWrBytes (s.setBusy v) = recWrBytes s := by
  rw [recWrBytes, recWrBytes, bufContent_setBusy]
  rfl

/-- The record's bytes have gone out, its registers show it, and it counts (10_state R35, R38, R40). -/
def recWritten (s : State) : State := { s with
  out := s.out ++ recWrBytes s
  regs.outCnt := s.regs.outCnt + BitVec.ofNat 64 (recWrBytes s).length
  regs.recTag := zextBit (stored s)
  regs.encLen := s.regs.bufLen
  regs.blkDigest := if ck s then digest (bufContent s) else s.regs.blkDigest
  regs.recCk := if ck s then digest (bufContent s) else s.regs.recCk
  regs.seq := s.regs.seq + 1
  regs.totOrig := s.regs.totOrig + s.regs.origLen.setWidth 64 }

theorem recWrBody_of_fits {s : State} (hfit : s.regs.origLen ≤ s.regs.blksz)
    (hst : stored s = false ∨ s.regs.bufLen = s.regs.origLen) : recWrBody s = .ok () (recWritten s) := by
  rw [recWrBody, require_true hfit, Res.bind_ok, require_true hst, Res.bind_ok]
  simp only [recWrChecksum_eq, bufContent_setEncLen, bufContent_setRecTag, bufContent_setBlkDigest,
    bufContent_setRecCk, ck_setEncLen, ck_setRecTag]
  simp only [recWritten, recWrBytes, countRecord, outPut, State.setEncLen, State.setRecTag, State.setBlkDigest,
    State.setRecCk]

theorem exec_recWr_of_fits {s : State} (hph : s.regs.phase = .sBody) (hfit : s.regs.origLen ≤ s.regs.blksz)
    (hst : stored s = false ∨ s.regs.bufLen = s.regs.origLen) :
    exec .recWr s = .next ((recWritten s).setBusy false) := by
  rw [exec_of_body_ok .recWr (by rw [hph]; nofun) (by rw [hph]; rfl)
    (recWrBody_of_fits (s := s.setBusy true) hfit hst), recWritten, recWrBytes_setBusy, bufContent_setBusy]
  rfl

/-- Neither check of REC.WR has an effect before it (60_exceptions R237). -/
theorem recWrBody_of_not_fits {s : State}
    (h : ¬ s.regs.origLen ≤ s.regs.blksz ∨ (stored s = true ∧ s.regs.bufLen ≠ s.regs.origLen)) :
    recWrBody s = .raised (raise .protocolViolation s) := by
  rw [recWrBody]
  rcases require_cases (s.regs.origLen ≤ s.regs.blksz) .protocolViolation s with ⟨hfit, hr⟩ | ⟨-, hr⟩
  · obtain ⟨hst, hlen⟩ := h.resolve_left (not_not.mpr hfit)
    rw [hr, Res.bind_ok, require_false (by simp [hst, hlen]), Res.bind_raised]
  · rw [hr, Res.bind_raised]

/-- Settles O43. -/
theorem recWrWritesRecord : Obligations.RecWrWritesRecord := by
  intro s hph hfit hst tag d bytes
  have htag : zextBit (stored s) = tag := zextBit_tagStored s.regs.recTag
  have hbytes : recWrBytes s = bytes := by rw [recWrBytes, htag, recordHead]; rfl
  have hst' : stored s = false ∨ s.regs.bufLen = s.regs.origLen :=
    (Bool.eq_false_or_eq_true (stored s)).symm.imp_right hst
  rw [exec_recWr_of_fits hph hfit hst', recWritten, hbytes, htag]
  rfl

/-- Settles O44. -/
theorem recWrRefusesBadLengths : Obligations.RecWrRefusesBadLengths := by
  intro s hph h
  exact exec_of_body_raised .recWr (by rw [hph]; nofun) (by rw [hph]; rfl)
    (recWrBody_of_not_fits (s := s.setBusy true) h)

/-! ### FRM.END (43_serializer R174) -/

/-- Without a trailer the end marker is the tag alone. -/
theorem frmEndBody_plain (s : State) :
    frmEndBody false s = .ok () ((outPut [0x02] (s.setRecTag 0x02)).setPhase .done) := by
  rw [frmEndBody, require_true (.inl rfl), Res.bind_ok]
  rfl

/-- The trailer is FRM_DIGEST, which REC_CK shows too. -/
theorem frmEndBody_trailer {s : State} (hck : ck s = true) :
    frmEndBody true s = .ok ()
      ((outPut (0x06 :: le32 (frmDigest s)) ((s.setRecTag 0x06).setRecCk (frmDigest s))).setPhase .done) := by
  rw [frmEndBody, require_true (.inr hck), Res.bind_ok]
  rfl

/-- A frame without checksums has no trailer (30_encoding R107). -/
theorem frmEndBody_of_no_ck {s : State} (hck : ck s = false) :
    frmEndBody true s = .raised (raise .protocolViolation s) := by
  rw [frmEndBody, require_false (by simp [hck]), Res.bind_raised]

/-- Settles O45. -/
theorem frmEndEndsFrame : Obligations.FrmEndEndsFrame := by
  refine ⟨decode_encode (.frmEnd false), decode_encode (.frmEnd true), fun s => ⟨fun hph => ?_, fun hph hck => ?_,
    fun hph hck => ?_, fun t hph => ?_, fun t hfailed => exec_of_failed hfailed nofun⟩⟩
  · rw [exec_of_body_ok (.frmEnd false) (by rw [hph]; nofun) (by rw [hph]; rfl) (frmEndBody_plain _)]
    rfl
  · rw [exec_of_body_ok (.frmEnd true) (by rw [hph]; nofun) (by rw [hph]; rfl)
      (frmEndBody_trailer (s := s.setBusy true) hck)]
    rfl
  · exact exec_of_body_raised (.frmEnd true) (by rw [hph]; nofun) (by rw [hph]; rfl)
      (frmEndBody_of_no_ck (s := s.setBusy true) hck)
  · rcases hph with hph | hph | hph | hph <;> exact exec_of_illegal (by rw [hph]; nofun) (by rw [hph]; rfl)

end Sys2Proof.Machine
end

section
/-! SUPPORT. The host's sequence that writes a frame (43_serializer R170): what each of its operations does where it
is sent, and what holds of the CFU after the header, after each record and after the end marker. -/

namespace Sys2Proof.Machine

/-! ### Several steps -/

/-- `k` steps lead from `s` to `t`, with no stop between. -/
def RunsTo (k : Nat) (s t : State) : Prop := core.run k s = .next t

theorem runsTo_zero (s : State) : RunsTo 0 s s := rfl

/-- A run of a machine in two parts. -/
theorem run_add {M : Host.Core} {j : Nat} {s t : M.State} (h : M.run j s = .next t) (k : Nat) :
    M.run (j + k) s = M.run k t := by
  induction j generalizing s with
  | zero =>
    cases h
    rw [Nat.zero_add]
  | succ j ih =>
    rw [Nat.succ_add, Host.Core.run]
    rw [Host.Core.run] at h
    cases hstep : M.step s with
    | next v =>
      rw [hstep] at h
      exact ih h
    | fault f | refused r =>
      rw [hstep] at h
      cases h

theorem run_one {M : Host.Core} {s t : M.State} (h : M.step s = .next t) : M.run 1 s = .next t := by
  rw [Host.Core.run, h]
  rfl

theorem runsTo_one {s t : State} (h : step s = .next t) : RunsTo 1 s t := run_one (M := core) h

theorem RunsTo.trans {j k : Nat} {s t u : State} (hst : RunsTo j s t) (htu : RunsTo k t u) : RunsTo (j + k) s u :=
  (run_add hst k).trans htu

/-! ### One operation of the host -/

/-- With an operation taken off the queue, `rest` is left. -/
def State.withEvents (s : State) (rest : List Event) : State := { s with events := rest }

/-- A CFU that performs what the host sends to the register space of `p` (40_control R130). -/
structure HostReady (p : Params) (s : State) : Prop where
  params : s.params = p
  wf : p.wf = true
  idle : s.regs.busy = false
  live : s.regs.phase ≠ .failed

/-- One bit sent as a word arrives as that bit (40_control R130). -/
theorem zextBit_of_word (b : Bool) : zextBit (((zextBit b).setWidth 32 : Word).getLsbD 0) = zextBit b := by
  cases b <;> rfl

theorem zextBit_getLsbD (b : Bool) : (zextBit b).getLsbD 0 = b := by cases b <;> rfl

namespace HostReady

variable {p : Params} {s : State} {rest : List Event} (h : HostReady p s)

include h

/-- A command's word written to CMD is executed (40_control R132). -/
theorem runs_command {i : Instr} {t : State} (he : s.events = wrAt p 0x00 (encode i) :: rest)
    (ht : exec i (s.withEvents rest) = .next t) : RunsTo 1 s t := by
  obtain ⟨rfl, hwf, hidle, -⟩ := h
  exact runsTo_one ((step_of_write hwf (by decide) (by decide) he hidle).trans
    ((wrOffset_command (decode_encode i) _).trans ht))

/-- A word written to any other offset goes to the register there. -/
theorem writes_register {off : Nat} {v : Word} (h4 : off % 4 = 0) (hl : off < 0x100) (hoff : off ≠ 0x00)
    (he : s.events = wrAt p off v :: rest) : RunsTo 1 s (writeReg (regAt off) v (s.withEvents rest)) := by
  obtain ⟨rfl, hwf, hidle, hlive⟩ := h
  exact runsTo_one ((step_of_write hwf h4 hl he hidle).trans (wrOffset_reg (s := s.withEvents rest) hlive hoff v))

/-- FLAGS and BLKSZ take a word in IDLE and DONE only (10_state R46). -/
theorem writes_flags {b : Bool} (hgate : gateOpen s.regs.phase = true)
    (he : s.events = wrAt p 0x0C ((zextBit b).setWidth 32) :: rest) :
    RunsTo 1 s ((s.withEvents rest).setFlags (zextBit b)) ∧
      HostReady p ((s.withEvents rest).setFlags (zextBit b)) := by
  have hrun := h.writes_register (by decide) (by decide) (by decide) he
  have hwrite : writeReg (regAt 0x0C) ((zextBit b).setWidth 32) (s.withEvents rest) =
      (s.withEvents rest).setFlags (zextBit (((zextBit b).setWidth 32 : Word).getLsbD 0)) := if_pos hgate
  rw [hwrite, zextBit_of_word] at hrun
  exact ⟨hrun, { h with }⟩

theorem writes_blksz {v : Word} (hgate : gateOpen s.regs.phase = true) (he : s.events = wrAt p 0x14 v :: rest) :
    RunsTo 1 s ((s.withEvents rest).setBlksz v) ∧ HostReady p ((s.withEvents rest).setBlksz v) := by
  have hrun := h.writes_register (by decide) (by decide) (by decide) he
  have hwrite : writeReg (regAt 0x14) v (s.withEvents rest) = (s.withEvents rest).setBlksz v := if_pos hgate
  rw [hwrite] at hrun
  exact ⟨hrun, { h with }⟩

theorem writes_recTag {b : Bool} (he : s.events = wrAt p 0x18 ((zextBit b).setWidth 32) :: rest) :
    RunsTo 1 s ((s.withEvents rest).setRecTag (zextBit b)) ∧
      HostReady p ((s.withEvents rest).setRecTag (zextBit b)) :=
  ⟨zextBit_of_word b ▸ h.writes_register (by decide) (by decide) (by decide) he, { h with }⟩

theorem writes_origLen {v : Word} (he : s.events = wrAt p 0x1C v :: rest) :
    RunsTo 1 s ((s.withEvents rest).setOrigLen v) ∧ HostReady p ((s.withEvents rest).setOrigLen v) :=
  ⟨h.writes_register (by decide) (by decide) (by decide) he, { h with }⟩

theorem writes_xlen {v : Word} (he : s.events = wrAt p 0x28 v :: rest) :
    RunsTo 1 s ((s.withEvents rest).setXlen v) ∧ HostReady p ((s.withEvents rest).setXlen v) :=
  ⟨h.writes_register (by decide) (by decide) (by decide) he, { h with }⟩

end HostReady

/-! ### A frame in the making -/

/-- The bytes of a frame before its end marker (30_encoding R100). -/
def openFrameBytes (m : Magic) (ckOn : Bool) (blksz : Word) (recs : List Rec) : List Byte :=
  headerBytes m Config.versionByte (zextBit ckOn) blksz ++ recs.flatMap (recBytes ckOn)

theorem frameBytes_eq_open_append (m : Magic) (ckOn : Bool) (blksz : Word) (recs : List Rec) (trailer : Option Word) :
    frameBytes m ckOn blksz recs trailer = openFrameBytes m ckOn blksz recs ++ endBytes trailer := rfl

theorem openFrameBytes_snoc (m : Magic) (ckOn : Bool) (blksz : Word) (recs : List Rec) (r : Rec) :
    openFrameBytes m ckOn blksz (recs ++ [r]) = openFrameBytes m ckOn blksz recs ++ recBytes ckOn r := by
  simp [openFrameBytes, List.append_assoc]

theorem payloads_snoc (recs : List Rec) (r : Rec) : payloads (recs ++ [r]) = payloads recs ++ r.payload := by
  simp [payloads]

theorem totalOrig_snoc (recs : List Rec) (r : Rec) :
    totalOrig (recs ++ [r]) = totalOrig recs + r.origLen.setWidth 64 := by
  simp [totalOrig]

/-- A CFU in S_BODY that began with `before` on OUT, has since written the header and the records `recs`, and has
folded the bytes `folded` into FRM_ACC (43_serializer R170; 42_checksum R158). -/
structure FrameOpen (p : Params) (ckOn : Bool) (blksz : Word) (before : List Byte) (recs : List Rec)
    (folded : List Byte) (s : State) : Prop where
  params : s.params = p
  idle : s.regs.busy = false
  phase : s.regs.phase = .sBody
  flags : s.regs.flags = zextBit ckOn
  size : s.regs.blksz = blksz
  out : s.out = before ++ openFrameBytes p.magic ckOn blksz recs
  outCnt : s.regs.outCnt = BitVec.ofNat 64 (openFrameBytes p.magic ckOn blksz recs).length
  acc : s.regs.frmAcc = crcFold Config.crcOnes folded
  seq : s.regs.seq = BitVec.ofNat 32 recs.length
  total : s.regs.totOrig = totalOrig recs

section writing

variable {p : Params} {ckOn : Bool} {blksz : Word} {before : List Byte} {recs : List Rec} {folded : List Byte}
  {s : State}

theorem FrameOpen.live (h : FrameOpen p ckOn blksz before recs folded s) : s.regs.phase ≠ .failed := by
  rw [h.phase]; nofun

theorem FrameOpen.ready (h : FrameOpen p ckOn blksz before recs folded s) (hp : p.wf = true) : HostReady p s :=
  ⟨h.params, hp, h.idle, h.live⟩

theorem FrameOpen.ck_eq (h : FrameOpen p ckOn blksz before recs folded s) : ck s = ckOn := by
  rw [ck, h.flags, zextBit_getLsbD]

/-! ### The header: FLAGS, BLKSZ, HDR.WR -/

theorem openFrameBytes_nil (m : Magic) (ckOn : Bool) (blksz : Word) :
    openFrameBytes m ckOn blksz [] = headerBytes m Config.versionByte (zextBit ckOn) blksz := List.append_nil _

/-- HDR.WR with the frame's flag and block size already set. -/
theorem exec_hdrWr_opens (hp : s.params = p) (hph : s.regs.phase = .idle ∨ s.regs.phase = .done)
    (hflags : s.regs.flags = zextBit ckOn) (hsize : s.regs.blksz = blksz) (hz : blksz ≠ 0) :
    ∃ t, exec .hdrWr s = .next t ∧ FrameOpen p ckOn blksz s.out [] [] t ∧ t.inq = s.inq ∧
      t.events = s.events := by
  refine ⟨_, (hdrWrBeginsFrame.2 s).1 hph (hsize ▸ hz), ?_, rfl, rfl⟩
  subst hp hsize
  exact {
    params := rfl, idle := rfl, phase := rfl, flags := hflags, size := rfl, acc := rfl, seq := rfl, total := rfl
    out := by rw [openFrameBytes_nil, ← hflags]; rfl
    outCnt := by rw [openFrameBytes_nil, headerBytes_length] }

/-- The host's first three operations open the frame with no record in it. -/
theorem header_written {rest : List Event} (h : HostReady p s) (hph : s.regs.phase = .idle ∨ s.regs.phase = .done)
    (hz : blksz ≠ 0)
    (he : s.events = wrAt p 0x0C ((zextBit ckOn).setWidth 32) :: wrAt p 0x14 blksz ::
      wrAt p 0x00 (encode .hdrWr) :: rest) :
    ∃ t, RunsTo 3 s t ∧ FrameOpen p ckOn blksz s.out [] [] t ∧ t.inq = s.inq ∧ t.events = rest := by
  have hgate : gateOpen s.regs.phase = true := (gateOpen_iff _).mpr hph
  obtain ⟨hflags, hready⟩ := h.writes_flags hgate he
  obtain ⟨hblksz, hready⟩ := hready.writes_blksz hgate rfl
  obtain ⟨t, hexec, hopen, hinq, hevents⟩ := exec_hdrWr_opens
    (s := State.withEvents (State.setBlksz _ blksz) rest) hready.params hph rfl rfl hz
  exact ⟨t, (hflags.trans hblksz).trans (hready.runs_command rfl hexec), hopen, hinq, hevents⟩

/-! ### The payload: XLEN, BUF.LD, CK.FBUF -/

/-- A length that fits a register is held there whole. -/
theorem ofNat_length_toNat {bs : List Byte} {n : Word} (h : bs.length ≤ n.toNat) :
    (BitVec.ofNat 32 bs.length).toNat = bs.length := by
  rw [BitVec.toNat_ofNat, Nat.mod_eq_of_lt (Nat.lt_of_le_of_lt h n.isLt)]

/-- The payload that is next in IN comes to stand in BUF and is folded, and the frame is open as before. -/
theorem payload_loaded {bs q : List Byte} {rest : List Event} (h : FrameOpen p ckOn blksz before recs folded s)
    (hp : p.wf = true) (hfit : bs.length ≤ p.bufBytes.toNat) (hq : s.inq = bs ++ q)
    (he : s.events = wrAt p 0x28 (BitVec.ofNat 32 bs.length) :: wrAt p 0x00 (encode .bufLd) ::
      wrAt p 0x00 (encode .ckFbuf) :: rest) :
    ∃ t, RunsTo 3 s t ∧ FrameOpen p ckOn blksz before recs (folded ++ bs) t ∧ bufContent t = bs ∧ t.inq = q ∧
      t.events = rest := by
  have hlen := ofNat_length_toNat hfit
  have hxfit : BitVec.ofNat 32 bs.length ≤ s.params.bufBytes := by
    rw [h.params, BitVec.le_def, hlen]
    exact hfit
  obtain ⟨hxlen, hready⟩ := (h.ready hp).writes_xlen he
  obtain ⟨t, hld, ht, hcontent, -⟩ := bufLdLoadsXlenBytes
    (State.withEvents (State.setXlen _ (BitVec.ofNat 32 bs.length)) (wrAt p 0x00 (encode .ckFbuf) :: rest))
    bs q hready.live hxfit hq hlen.symm
  have hopen : FrameOpen p ckOn blksz before recs folded t := by
    rw [ht]
    exact { h with idle := rfl }
  have hevents : t.events = wrAt p 0x00 (encode .ckFbuf) :: rest := by rw [ht]; rfl
  have hinq : t.inq = q := by rw [ht]
  have hfbuf := (ckFbufFoldsContent.2 (t.withEvents rest)).1 hopen.live
  refine ⟨_, (hxlen.trans (hready.runs_command rfl hld)).trans ((hopen.ready hp).runs_command hevents hfbuf), ?_,
    (bufContent_congr rfl rfl rfl).trans hcontent, hinq, rfl⟩
  have hfolded : crcFold t.regs.frmAcc (bufContent t) = crcFold Config.crcOnes (folded ++ bs) := by
    rw [hopen.acc, hcontent, crcFold_append]
  exact { hopen with idle := rfl, acc := hfolded }

/-! ### The record: REC_TAG, ORIG_LEN, REC.WR -/

/-- What REC.WR writes is the record of STORED, ORIG_LEN and BUF's content (30_encoding R106). -/
theorem recWrBytes_eq_recBytes (s : State) :
    recWrBytes s = recBytes (ck s) ⟨stored s, s.regs.origLen, bufContent s⟩ := by
  rw [recBytes, bufContent_length, BitVec.ofNat_toNat, BitVec.setWidth_eq]
  rfl

/-- REC.WR appends the record whose fields and payload the CFU holds. -/
theorem exec_recWr_appends {r : Rec} (h : FrameOpen p ckOn blksz before recs folded s) (hst : stored s = r.stored)
    (hlen : s.regs.origLen = r.origLen) (hcontent : bufContent s = r.payload) (hok : recOk p.bufBytes r)
    (hfit : r.origLen ≤ blksz) :
    ∃ t, exec .recWr s = .next t ∧ FrameOpen p ckOn blksz before (recs ++ [r]) folded t ∧ t.inq = s.inq ∧
      t.events = s.events := by
  have hstored : stored s = false ∨ s.regs.bufLen = s.regs.origLen := by
    refine (Bool.eq_false_or_eq_true (stored s)).symm.imp_right fun htrue => BitVec.eq_of_toNat_eq ?_
    rw [← bufContent_length, hcontent, hlen]
    exact hok.2 (hst ▸ htrue)
  have hbytes : recWrBytes s = recBytes ckOn r := by
    rw [recWrBytes_eq_recBytes, h.ck_eq, hst, hlen, hcontent]
  refine ⟨_, exec_recWr_of_fits h.phase (by rw [hlen, h.size]; exact hfit) hstored, ?_, rfl, rfl⟩
  exact { h with
    idle := rfl
    out := by
      rw [openFrameBytes_snoc, ← List.append_assoc, ← h.out, ← hbytes]
      rfl
    outCnt := by
      rw [openFrameBytes_snoc, List.length_append, BitVec.ofNat_add, ← h.outCnt, ← hbytes]
      rfl
    seq := by
      rw [List.length_append, BitVec.ofNat_add, ← h.seq]
      rfl
    total := by
      rw [totalOrig_snoc, ← h.total, ← hlen]
      rfl }

/-- The two fields of a record that BUF.LD does not give. -/
theorem fields_set {r : Rec} {rest : List Event} (h : FrameOpen p ckOn blksz before recs folded s) (hp : p.wf = true)
    (he : s.events = wrAt p 0x18 ((zextBit r.stored).setWidth 32) :: wrAt p 0x1C r.origLen :: rest) :
    ∃ t, RunsTo 2 s t ∧ FrameOpen p ckOn blksz before recs folded t ∧ stored t = r.stored ∧
      t.regs.origLen = r.origLen ∧ bufContent t = bufContent s ∧ t.inq = s.inq ∧ t.events = rest := by
  obtain ⟨htag, hready⟩ := (h.ready hp).writes_recTag he
  obtain ⟨hlen, -⟩ := hready.writes_origLen rfl
  exact ⟨_, htag.trans hlen, { h with }, zextBit_getLsbD r.stored, rfl, bufContent_congr rfl rfl rfl, rfl, rfl⟩

/-- The six operations of a record. -/
theorem record_written {r : Rec} {q : List Byte} {rest : List Event}
    (h : FrameOpen p ckOn blksz before recs (payloads recs) s) (hp : p.wf = true) (hok : recOk p.bufBytes r)
    (hfit : r.origLen ≤ blksz) (hq : s.inq = r.payload ++ q) (he : s.events = writeRecordEvents p r ++ rest) :
    ∃ t, RunsTo (writeRecordEvents p r).length s t ∧
      FrameOpen p ckOn blksz before (recs ++ [r]) (payloads (recs ++ [r])) t ∧ t.inq = q ∧ t.events = rest := by
  obtain ⟨u, hload, hu, hcontent, hinq, hevents⟩ := payload_loaded h hp hok.1 hq he
  obtain ⟨v, hset, hv, hst, hlen, hkept, hvinq, hvevents⟩ := fields_set hu hp hevents
  obtain ⟨t, hexec, ht, htinq, htevents⟩ := exec_recWr_appends (s := v.withEvents rest) { hv with } hst hlen
    ((bufContent_congr rfl rfl rfl).trans (hkept.trans hcontent)) hok hfit
  rw [payloads_snoc]
  exact ⟨t, hload.trans (hset.trans ((hv.ready hp).runs_command hvevents hexec)), ht,
    htinq.trans (hvinq.trans hinq), htevents⟩

/-- Each record finds its payload next in IN and leaves the others' there. -/
theorem records_written {todo : List Rec} {q : List Byte} {rest : List Event}
    (h : FrameOpen p ckOn blksz before recs (payloads recs) s) (hp : p.wf = true)
    (hok : ∀ r ∈ todo, recOk p.bufBytes r ∧ r.origLen ≤ blksz) (hq : s.inq = payloads todo ++ q)
    (he : s.events = todo.flatMap (writeRecordEvents p) ++ rest) :
    ∃ t, RunsTo (todo.flatMap (writeRecordEvents p)).length s t ∧
      FrameOpen p ckOn blksz before (recs ++ todo) (payloads (recs ++ todo)) t ∧ t.inq = q ∧ t.events = rest := by
  induction todo generalizing recs s with
  | nil =>
    rw [List.append_nil]
    exact ⟨s, runsTo_zero s, h, hq, he⟩
  | cons r todo ih =>
    obtain ⟨hr, htodo⟩ := List.forall_mem_cons.mp hok
    rw [payloads, List.flatMap_cons, List.append_assoc] at hq
    rw [List.flatMap_cons, List.append_assoc] at he
    obtain ⟨u, hru, hu, huinq, huevents⟩ := record_written h hp hr.1 hr.2 hq he
    obtain ⟨t, hrt, ht, htinq, htevents⟩ := ih hu htodo huinq huevents
    rw [List.flatMap_cons, List.length_append, List.append_cons]
    exact ⟨t, hru.trans hrt, ht, htinq, htevents⟩

/-! ### The end: FRM.END -/

/-- FRM.END closes the frame, with the digest of what has been folded in the trailer if there is one. -/
theorem exec_frmEnd_closes (h : FrameOpen p ckOn blksz before recs folded s) {t : Bool}
    (ht : t = true → ckOn = true) :
    ∃ u, exec (.frmEnd t) s = .next u ∧
      u.out = s.out ++ endBytes (if t then some (digest folded) else none) ∧
      u.regs.outCnt = s.regs.outCnt + BitVec.ofNat 64 (endBytes (if t then some (digest folded) else none)).length ∧
      u.regs.phase = .done ∧ u.regs.seq = s.regs.seq ∧ u.regs.totOrig = s.regs.totOrig ∧ u.inq = s.inq ∧
      u.events = s.events := by
  obtain ⟨hplain, htrailer, -⟩ := frmEndEndsFrame.2.2 s
  cases t with
  | false => exact ⟨_, hplain h.phase, rfl, rfl, rfl, rfl, rfl, rfl, rfl⟩
  | true =>
    have hck : s.regs.flags.getLsbD 0 = true := h.ck_eq.trans (ht rfl)
    have hdigest : s.regs.frmAcc ^^^ 0xFFFFFFFF = digest folded := by rw [h.acc]; rfl
    have hexec := htrailer h.phase hck
    rw [hdigest] at hexec
    exact ⟨_, hexec, rfl, rfl, rfl, rfl, rfl, rfl, rfl⟩

end writing

/-! ### The whole frame -/

/-- Settles O57: the header, then each record with its payload from IN, then the end marker. -/
theorem serializerWritesFrame : Obligations.SerializerWritesFrame := by
  intro s ckOn t blksz recs inRest evRest hinv hidle hph hz ht hok hq he
  have hready : HostReady s.params s := ⟨rfl, hinv.paramsWf, hidle, (hdrWr_legal hph).1⟩
  simp only [writeFrameEvents, List.append_assoc] at he
  obtain ⟨a, hsa, ha, hainq, haevents⟩ := header_written hready hph hz he
  obtain ⟨b, hab, hb, hbinq, hbevents⟩ := records_written ha hinv.paramsWf hok (hainq.trans hq) haevents
  rw [List.nil_append] at hb
  obtain ⟨u, hexec, hout, hcnt, hdone, hseq, htot, huinq, huevents⟩ :=
    exec_frmEnd_closes (s := b.withEvents evRest) { hb with } ht
  have hrun := (hsa.trans hab).trans ((hb.ready hinv.paramsWf).runs_command hbevents hexec)
  refine ⟨u, ?_, ?_, hdone, huinq.trans hbinq, huevents, hseq.trans hb.seq, htot.trans hb.total, ?_⟩
  · rw [writeFrameEvents, List.length_append, List.length_append]
    exact hrun
  · rw [frameBytes_eq_open_append, ← List.append_assoc, ← hb.out]
    exact hout
  · rw [frameBytes_eq_open_append, List.length_append, BitVec.ofNat_add, ← hb.outCnt]
    exact hcnt

end Sys2Proof.Machine
end

section
/-! SUPPORT. What the parser's readers do, by what IN begins with: a varint, a field of a header, the magic; and with
them HDR.RD and FRM.VFY (44_parser R191, R197). -/

namespace Sys2Proof.Machine

/-! ### Bytes taken from the front of IN -/

theorem consume_of_append {p q : List Byte} {k : Nat} {s : State} (hq : s.inq = p ++ q) (hk : p.length = k) :
    consume k s = { s with inq := q, regs.inCnt := s.regs.inCnt + BitVec.ofNat 64 k } := by
  rw [← hk, consume_append hq]

theorem consume_inq_of_append {p q : List Byte} {s : State} (hq : s.inq = p ++ q) : (consume p.length s).inq = q := by
  rw [consume_append hq]

/-! ### VarintRead (30_encoding R116) -/

theorem varintRead_of_varint {v : Word} {q : List Byte} {s : State} (hq : s.inq = varint v ++ q) :
    varintRead s = .ok v (consume (varint v).length s) :=
  (varintReadAcceptsExactlyVarint s).1 v q hq

/-- An ill-formed varint ends at its offending byte, so that none goes on in another. -/
theorem IllFormedVarint.eq_of_prefix {a b : List Byte} (ha : IllFormedVarint a) (hb : IllFormedVarint b)
    (h : a <+: b) : a = b := by
  rw [← List.dropLast_append_getLast hb.ne_nil, List.prefix_concat_iff, List.dropLast_append_getLast hb.ne_nil] at h
  refine h.resolve_right fun hlast => ?_
  obtain ⟨v, hv, -⟩ := hb.1
  exact ha.2 v (hlast.trans hv)

/-- Of VarintRead's ends only the fault is left where IN begins with an ill-formed varint. -/
theorem varintRead_of_illFormed {bad q : List Byte} {s : State} (hbad : IllFormedVarint bad) (hq : s.inq = bad ++ q) :
    varintRead s = .raised (raise .malformedBlock (consume bad.length s)) := by
  have hp : bad <+: s.inq := hq ▸ List.prefix_append _ _
  have h := varintRead_end s
  generalize varintRead s = r at h
  cases h with
  | value v rest hv =>
    refine absurd hbad ?_
    rw [List.prefix_iff_eq_take.mp hp]
    exact not_illFormedVarint_take (hv ▸ List.prefix_append _ _) _
  | malformed k hk hill =>
    have hbytes : bad = s.inq.take k := (List.prefix_or_prefix_of_prefix hp (List.take_prefix k _)).elim
      (hbad.eq_of_prefix hill) fun h => (hill.eq_of_prefix hbad h).symm
    rw [hbytes, List.length_take_of_le hk]
  | truncated hun | waits hun =>
    obtain ⟨v, hv, -⟩ := hun
    exact absurd (hp.trans hv) (hbad.2 v)

theorem varintRead_of_unfinished {cut : List Byte} {s : State} (hcut : UnfinishedVarint cut) (hq : s.inq = cut)
    (he : s.eos = true) : varintRead s = .raised (raise .truncatedStream (consume cut.length s)) := by
  subst hq
  obtain ⟨v, hp, hne⟩ := hcut
  exact (varintReadFaults s).2 v hp hne he

/-! ### The magic (44_parser R191) -/

/-- The bytes of the magic that agree are taken one by one, and the others are left to compare. -/
theorem readMagic_append {p q : List Byte} {s : State} (hq : s.inq = p ++ q) (ms : List Byte) :
    readMagic (p ++ ms) s = readMagic ms (consume p.length s) := by
  induction p generalizing s with
  | nil => rw [List.length_nil, consume_zero]; rfl
  | cons m p ih =>
    have hrest : (consume 1 s).inq = p ++ q := by rw [consume_inq, hq]; rfl
    rw [List.cons_append, readMagic, inByte_cons hq, Res.bind_ok, require_true rfl, Res.bind_ok, ih hrest,
      consume_consume, List.length_cons, Nat.add_comm]

theorem readMagic_of_differs {m b : Byte} {ms q : List Byte} {s : State} (hb : b ≠ m) (hq : s.inq = b :: q) :
    readMagic (m :: ms) s = .raised (raise .badMagic (consume 1 s)) := by
  rw [readMagic, inByte_cons hq, Res.bind_ok, require_false hb, Res.bind_raised]

theorem readMagic_of_exhausted {m : Byte} {ms : List Byte} {s : State} (hq : s.inq = []) (he : s.eos = true) :
    readMagic (m :: ms) s = .raised (raise .truncatedStream s) := by
  rw [readMagic, inByte_exhausted hq he, Res.bind_raised]

theorem magic_split (m : Magic) {k : Nat} (hk : k < 4) :
    m.bytes = m.bytes.take k ++ m.bytes.getD k 0 :: m.bytes.drop (k + 1) ∧ (m.bytes.take k).length = k := by
  match k, hk with
  | 0, _ | 1, _ | 2, _ | 3, _ => exact ⟨rfl, rfl⟩

/-! ### The version and the flags byte (30_encoding R102, R103) -/

theorem flagsReserved_eq_zero_iff (f : Byte) : flagsReserved f = 0 ↔ f = 0x00 ∨ f = 0x01 := by
  revert f; decide +kernel

theorem readVersion_of_byte {v : Byte} {q : List Byte} {s : State} (hq : s.inq = v :: q) :
    readVersion s = require (v = 0x10) .unsupportedVersion ((consume 1 s).setVersion v) := by
  rw [readVersion, inByte_cons hq, Res.bind_ok]
  simp only [versionAccepted_iff]
  rfl

theorem readFlags_of_byte {f : Byte} {q : List Byte} {s : State} (hq : s.inq = f :: q) :
    readFlags s = require (f = 0x00 ∨ f = 0x01) .malformedBlock ((consume 1 s).setFlags f) := by
  rw [readFlags, inByte_cons hq, Res.bind_ok]
  simp only [flagsReserved_eq_zero_iff]

/-! ### HDR.RD, field by field (44_parser R191) -/

/-- HDR.RD's statements from the block size on. -/
def hdrRdSize (s : State) : Res Unit := (varintRead s).bind fun v s => .ok () ((s.setBlksz v).setPhase .pBody)

/-- HDR.RD's statements from the flags byte on. -/
def hdrRdFlags (s : State) : Res Unit := (readFlags s).bind fun _ s => hdrRdSize s

/-- HDR.RD's statements from the version byte on. -/
def hdrRdVersion (s : State) : Res Unit := (readVersion s).bind fun _ s => hdrRdFlags s

theorem hdrRdBody_eq (s : State) :
    hdrRdBody s = (readMagic s.params.magic.bytes (beginFrame s)).bind fun _ s => hdrRdVersion s := rfl

section header

variable {s : State} {q : List Byte}

theorem hdrRdBody_of_wrong_magic {k : Nat} {b : Byte} (hk : k < 4) (hb : b ≠ s.params.magic.bytes.getD k 0)
    (hq : s.inq = s.params.magic.bytes.take k ++ b :: q) :
    hdrRdBody s = .raised (raise .badMagic (consume (k + 1) (beginFrame s))) := by
  obtain ⟨hsplit, hlen⟩ := magic_split s.params.magic hk
  have hrest := consume_inq_of_append (s := beginFrame s) hq
  rw [hdrRdBody_eq, hsplit, readMagic_append (s := beginFrame s) hq, readMagic_of_differs hb hrest, Res.bind_raised,
    consume_consume, hlen]

theorem hdrRdBody_of_magic (hq : s.inq = s.params.magic.bytes ++ q) :
    hdrRdBody s = hdrRdVersion (consume 4 (beginFrame s)) := by
  have h := readMagic_append (s := beginFrame s) hq []
  rw [List.append_nil] at h
  rw [hdrRdBody_eq, h]
  rfl

/-- IN ends inside the magic or behind it. -/
theorem hdrRdBody_of_magic_cut {k : Nat} (hk : k ≤ 4) (hq : s.inq = s.params.magic.bytes.take k) (he : s.eos = true) :
    hdrRdBody s = .raised (raise .truncatedStream (consume k (beginFrame s))) := by
  rcases Nat.lt_or_eq_of_le hk with hlt | rfl
  · obtain ⟨hsplit, hlen⟩ := magic_split s.params.magic hlt
    have hall : (beginFrame s).inq = s.params.magic.bytes.take k ++ [] := by rw [List.append_nil]; exact hq
    rw [hdrRdBody_eq, hsplit, readMagic_append hall, readMagic_of_exhausted (consume_inq_of_append hall) he,
      Res.bind_raised, hlen]
  · have hnil : (consume 4 (beginFrame s)).inq = [] := by rw [consume_inq, beginFrame_inq, hq]; rfl
    rw [hdrRdBody_of_magic (q := []) hq, hdrRdVersion, readVersion, inByte_exhausted hnil he, Res.bind_raised,
      Res.bind_raised]

theorem hdrRdBody_of_version {v : Byte} (hq : s.inq = s.params.magic.bytes ++ v :: q) :
    hdrRdBody s = (require (v = 0x10) .unsupportedVersion ((consume 5 (beginFrame s)).setVersion v)).bind
      fun _ s => hdrRdFlags s := by
  have hrest : (consume 4 (beginFrame s)).inq = v :: q := consume_inq_of_append (s := beginFrame s) hq
  rw [hdrRdBody_of_magic hq, hdrRdVersion, readVersion_of_byte hrest, consume_consume]

/-- The state in which HDR.RD reads the flags byte, the bytes `q` being left. -/
theorem hdrRdBody_of_own_version (hq : s.inq = s.params.magic.bytes ++ 0x10 :: q) :
    hdrRdBody s = hdrRdFlags ((consume 5 (beginFrame s)).setVersion 0x10) ∧
      ((consume 5 (beginFrame s)).setVersion 0x10).inq = q := by
  refine ⟨by rw [hdrRdBody_of_version hq, require_true rfl, Res.bind_ok], ?_⟩
  rw [setVersion_inq, consume_inq, beginFrame_inq, hq]
  rfl

theorem hdrRdBody_of_flags {f : Byte} (hq : s.inq = s.params.magic.bytes ++ 0x10 :: f :: q) :
    hdrRdBody s = (require (f = 0x00 ∨ f = 0x01) .malformedBlock
      (((consume 6 (beginFrame s)).setVersion 0x10).setFlags f)).bind fun _ s => hdrRdSize s := by
  obtain ⟨hbody, hrest⟩ := hdrRdBody_of_own_version hq
  rw [hbody, hdrRdFlags, readFlags_of_byte hrest, consume_setVersion, consume_consume]

/-- The state in which HDR.RD reads the block size. -/
theorem hdrRdBody_of_legal_flags {f : Byte} (hf : f = 0x00 ∨ f = 0x01)
    (hq : s.inq = s.params.magic.bytes ++ 0x10 :: f :: q) :
    hdrRdBody s = hdrRdSize (((consume 6 (beginFrame s)).setVersion 0x10).setFlags f) ∧
      (((consume 6 (beginFrame s)).setVersion 0x10).setFlags f).inq = q := by
  refine ⟨by rw [hdrRdBody_of_flags hq, require_true hf, Res.bind_ok], ?_⟩
  rw [setFlags_inq, setVersion_inq, consume_inq, beginFrame_inq, hq]
  rfl

/-- Bytes of the block size go on from the six before it. -/
theorem consume_size (k : Nat) (f : Byte) (b : State) : consume k (((consume 6 b).setVersion 0x10).setFlags f) =
    ((consume (6 + k) b).setVersion 0x10).setFlags f := by
  rw [consume_setFlags, consume_setVersion, consume_consume]

/-- The counters, which HDR.RD clears first, and IN, when it has taken `k` bytes (44_parser R191). -/
theorem consume_beginFrame {p : List Byte} {k : Nat} (hq : s.inq = p ++ q) (hk : p.length = k) :
    consume k (beginFrame s) = { s with
      inq := q
      regs.inCnt := BitVec.ofNat 64 k
      regs.outCnt := 0
      regs.seq := 0
      regs.totOrig := 0
      regs.frmAcc := 0xFFFFFFFF } := by
  have hcnt : (beginFrame s).regs.inCnt + BitVec.ofNat 64 k = BitVec.ofNat 64 k := BitVec.zero_add _
  rw [consume_of_append (s := beginFrame s) hq hk, hcnt]
  rfl

end header

/-- Where no frame is in progress, HDR.RD is legal (40_control R136). -/
theorem hdrRd_legal {p : Phase} (h : p = .idle ∨ p = .done) : p ≠ .failed ∧ legal .hdrRd p = true := by
  rcases h with rfl | rfl <;> exact ⟨nofun, rfl⟩

/-- Settles O46. -/
theorem hdrRdReadsHeader : Obligations.HdrRdReadsHeader := by
  intro s flags blksz rest hph hf hq
  obtain ⟨hlive, hl⟩ := hdrRd_legal hph
  have hfields : (s.setBusy true).inq = s.params.magic.bytes ++ 0x10 :: flags :: (varint blksz ++ rest) := by
    simpa using hq
  obtain ⟨hbody, hinq⟩ := hdrRdBody_of_legal_flags (s := s.setBusy true) hf hfields
  rw [hdrRdSize, varintRead_of_varint hinq, Res.bind_ok, consume_size,
    consume_beginFrame (s := s.setBusy true) hq (headerBytes_length s.params.magic 0x10 flags blksz)] at hbody
  rw [exec_of_body_ok .hdrRd hlive hl hbody]
  rfl

/-- Settles O47: the fields in the order in which they are read. -/
theorem hdrRdHeaderFaults : Obligations.HdrRdHeaderFaults := by
  intro s hph
  obtain ⟨hlive, hl⟩ := hdrRd_legal hph
  have hfault {t : State} (hbody : hdrRdBody (s.setBusy true) = .raised t) : exec .hdrRd s = .next t :=
    exec_of_body_raised .hdrRd hlive hl hbody
  refine ⟨fun k b rest hk hb hq => ?_, fun v rest hv hq => ?_, fun f rest h0 h1 hq => ?_,
    fun f bad rest hf hbad hq => ?_, fun he => ⟨fun k hk hq => ?_, fun hq => ?_, fun f cut hf hcut hq => ?_⟩⟩
  · obtain ⟨-, hlen⟩ := magic_split s.params.magic hk
    rw [hfault (hdrRdBody_of_wrong_magic (s := s.setBusy true) hk hb hq), consume_beginFrame (s := s.setBusy true)
      (hq.trans (List.append_cons _ _ _)) (by rw [List.length_append, hlen]; rfl)]
    rfl
  · have hbody := hdrRdBody_of_version (s := s.setBusy true) hq
    rw [require_false hv, Res.bind_raised, consume_beginFrame (s := s.setBusy true) (k := 5)
      (hq.trans (List.append_cons _ _ _)) rfl] at hbody
    exact hfault hbody
  · have hbody := hdrRdBody_of_flags (s := s.setBusy true) hq
    rw [require_false (not_or.mpr ⟨h0, h1⟩), Res.bind_raised, consume_beginFrame (s := s.setBusy true) (k := 6)
      (p := s.params.magic.bytes ++ [0x10, f]) (q := rest) (by simpa using hq) rfl] at hbody
    exact hfault hbody
  · obtain ⟨hbody, hinq⟩ := hdrRdBody_of_legal_flags (s := s.setBusy true) hf hq
    rw [hdrRdSize, varintRead_of_illFormed hbad hinq, Res.bind_raised, consume_size, consume_beginFrame
      (s := s.setBusy true) (p := s.params.magic.bytes ++ [0x10, f] ++ bad) (q := rest) (k := 6 + bad.length)
      (by simpa using hq) List.length_append] at hbody
    exact hfault hbody
  · have hbody := hdrRdBody_of_magic_cut (s := s.setBusy true) hk hq he
    rw [consume_beginFrame (s := s.setBusy true) (hq.trans (List.append_nil _).symm)
      (List.length_take_of_le hk)] at hbody
    exact hfault hbody
  · obtain ⟨hbody, hnil⟩ := hdrRdBody_of_own_version (s := s.setBusy true) hq
    rw [hdrRdFlags, readFlags, inByte_exhausted hnil he, Res.bind_raised, Res.bind_raised, consume_beginFrame
      (s := s.setBusy true) (k := 5) (hq.trans (List.append_nil _).symm) rfl] at hbody
    exact hfault hbody
  · obtain ⟨hbody, hinq⟩ := hdrRdBody_of_legal_flags (s := s.setBusy true) hf hq
    rw [hdrRdSize, varintRead_of_unfinished hcut hinq he, Res.bind_raised, consume_size,
      consume_beginFrame (s := s.setBusy true) (p := s.params.magic.bytes ++ [0x10, f] ++ cut) (q := [])
      (k := 6 + cut.length) (by simpa using hq) List.length_append] at hbody
    exact hfault hbody

/-! ### FRM.VFY (44_parser R197) -/

theorem frmVfyBody_of_match {s : State} (h : s.regs.verify = false ∨ frmDigest s = s.regs.recCk) :
    frmVfyBody s = .ok () (s.setPhase .done) := by
  rw [frmVfyBody, require_true h, Res.bind_ok]

theorem frmVfyBody_of_mismatch {s : State} (hv : s.regs.verify = true) (hd : frmDigest s ≠ s.regs.recCk) :
    frmVfyBody s = .raised (raise .checksumMismatch s) := by
  rw [frmVfyBody, require_false (not_or.mpr ⟨ne_false_of_eq_true hv, hd⟩), Res.bind_raised]

/-- The one phase in which FRM.VFY is legal (40_control R136). -/
theorem frmVfy_legal {p : Phase} (h : p = .pTrailer) : p ≠ .failed ∧ legal .frmVfy p = true := by
  subst h; exact ⟨nofun, rfl⟩

/-- Settles O54. -/
theorem frmVfyChecksTrailer : Obligations.FrmVfyChecksTrailer := by
  refine ⟨decode_encode .frmVfy, fun s => ⟨fun hph hmatch => ?_, fun hph hv hd => ?_, fun hph => ?_,
    fun hfailed => exec_of_failed hfailed nofun⟩⟩
  · obtain ⟨hlive, hl⟩ := frmVfy_legal hph
    exact exec_of_body_ok .frmVfy hlive hl (frmVfyBody_of_match (s := s.setBusy true) hmatch)
  · obtain ⟨hlive, hl⟩ := frmVfy_legal hph
    exact exec_of_body_raised .frmVfy hlive hl (frmVfyBody_of_mismatch (s := s.setBusy true) hv hd)
  · rcases hph with hph | hph | hph | hph <;> exact exec_of_illegal (by rw [hph]; nofun) (by rw [hph]; rfl)

end Sys2Proof.Machine
end

section
/-! SUPPORT. REC.RD field by field, by what IN begins with: the tag, the lengths, the checksum field, the payload and
its check; and the end marker (44_parser R194 to R196, R200). -/

namespace Sys2Proof.Machine

/-- The one phase in which REC.RD is legal (40_control R136). -/
theorem recRd_legal {p : Phase} (h : p = .pBody) : p ≠ .failed ∧ legal .recRd p = true := by
  subst h; exact ⟨nofun, rfl⟩

/-! ### The statements from each field on -/

/-- REC.RD's statements once a record's fields have been read. -/
def recRdPayload (s : State) : Res Unit :=
  (require (s.regs.encLen ≤ s.params.bufBytes) .allocationFailure s).bind fun _ s =>
  (loadBuf s.regs.encLen s).bind fun _ s =>
  (recRdVerify s).bind fun _ s => .ok () (countRecord s)

/-- REC.RD's statements once both lengths have been read. -/
def recRdChecksum (t : Byte) (s : State) : Res Unit :=
  (require (tagStored t = false ∨ s.regs.encLen = s.regs.origLen) .malformedBlock s).bind fun _ s =>
  (if ck s then readRecCk s else .ok () s).bind fun _ s => recRdPayload s

/-- REC.RD's statements from ENC_LEN on. -/
def recRdEncLen (t : Byte) (s : State) : Res Unit :=
  (varintRead s).bind fun v s => recRdChecksum t (s.setEncLen v)

/-- REC.RD's statements from ORIG_LEN on. -/
def recRdOrigLen (t : Byte) (s : State) : Res Unit :=
  (varintRead s).bind fun v s => recRdEncLen t (s.setOrigLen v)

theorem recRdRecord_eq (t : Byte) (s : State) : recRdRecord t s =
    (require (tagTrailer t = false) .malformedBlock s).bind fun _ s => recRdOrigLen t s := by
  simp only [recRdRecord, recRdFields, Res.bind_bind]
  rfl

/-! ### The checksum field (30_encoding R110) -/

/-- A record's checksum field, which a frame without checksums does not have. -/
def sumBytes (ckOn : Bool) (d : Word) : List Byte := if ckOn then le32 d else []

theorem readRecCk_of_le32 {d : Word} {q : List Byte} {s : State} (hq : s.inq = le32 d ++ q) :
    readRecCk s = .ok () ((consume 4 s).setRecCk d) := by
  have htake : s.inq.take 4 = le32 d := by rw [hq]; rfl
  have hlen : 4 ≤ s.inq.length := by simp [hq, le32]
  rw [readRecCk, inTake_enough hlen, htake, Res.bind_ok, le32Val_le32]

theorem readRecCk_of_short {cut : List Byte} {s : State} (hshort : cut.length < 4) (hq : s.inq = cut)
    (he : s.eos = true) : readRecCk s = .raised (raise .truncatedStream (consume cut.length s)) := by
  subst hq
  rw [readRecCk, inTake_short hshort, if_pos he, Res.bind_raised]

/-! ### The check of the payload (42_checksum R159) -/

/-- A check that is made and passes writes BLK_DIGEST; one that is not made writes nothing. -/
theorem recRdVerify_of_match {d : Word} {s : State}
    (h : ck s = true → s.regs.verify = true → digest (bufContent s) = d ∧ s.regs.recCk = d) :
    recRdVerify s = .ok () (s.setBlkDigest (if ck s && s.regs.verify then d else s.regs.blkDigest)) := by
  rcases recRdVerify_cases s with ⟨hck, hv, -, hr⟩ | ⟨hck, hv, hne, -⟩ | ⟨hoff, hr⟩
  · rw [hr, if_pos (by rw [hck, hv]; rfl), (h hck hv).1]
  · obtain ⟨hd, hc⟩ := h hck hv
    exact absurd (hd.trans hc.symm) hne
  · rw [hr, if_neg (by simpa using hoff)]
    rfl

theorem recRdVerify_of_mismatch {s : State} (hck : ck s = true) (hv : s.regs.verify = true)
    (hne : digest (bufContent s) ≠ s.regs.recCk) :
    recRdVerify s = .raised (raise .checksumMismatch (s.setBlkDigest (digest (bufContent s)))) := by
  rcases recRdVerify_cases s with ⟨-, -, heq, -⟩ | ⟨-, -, -, hr⟩ | ⟨hoff, -⟩
  · exact absurd heq hne
  · exact hr
  · exact absurd ⟨hck, hv⟩ hoff

/-! ### What has been loaded -/

section loaded

variable (k : Nat) (t : Byte) (o e c : Word) (p : List Byte) (s : State)

theorem consume_recFields (j : Nat) : consume j (recFields k t o e c s) = recFields (k + j) t o e c s := by
  simp only [recFields, consume_setRecCk, consume_setEncLen, consume_setOrigLen, consume_setRecTag, consume_consume]

@[simp] theorem recFields_encLen : (recFields k t o e c s).regs.encLen = e := by simp [recFields]
@[simp] theorem recFields_origLen : (recFields k t o e c s).regs.origLen = o := by simp [recFields]
@[simp] theorem recFields_recCk : (recFields k t o e c s).regs.recCk = c := by simp [recFields]

theorem recFields_setRecCk (d : Word) : (recFields k t o e c s).setRecCk d = recFields k t o e d s := by
  simp only [recFields]
  generalize (((consume k s).setRecTag t).setOrigLen o).setEncLen e = u
  rfl

theorem ck_recFields : ck (recFields k t o e c s) = ck s := ck_congr (by simp [recFields])

theorem bufByte_recFields (a : Nat) : bufByte (recFields k t o e c s) a = bufByte s a := by
  simp [bufByte, recFields]

variable {k t o e c p s}

theorem recFields_of_append {b q : List Byte} (hq : s.inq = b ++ q) (hk : b.length = k) :
    recFields k t o e c s = { s with
      inq := q
      regs.inCnt := s.regs.inCnt + BitVec.ofNat 64 k
      regs.recTag := t
      regs.origLen := o
      regs.encLen := e
      regs.recCk := c } := by
  rw [recFields, consume_of_append hq hk]
  rfl

theorem bufContent_recLoaded (hp : p.length = e.toNat) : bufContent (recLoaded k t o e c p s) = p :=
  bufContent_load hp _

theorem bufByte_recLoaded_of_le {a : Nat} (ha : p.length ≤ a) : bufByte (recLoaded k t o e c p s) a = bufByte s a :=
  (bufByte_load_of_le ha e _).trans (bufByte_recFields k t o e c s a)

end loaded

/-! ### REC.RD, field by field (44_parser R194) -/

/-- The tags of block records pass every check of the tag (30_encoding R107). -/
theorem recordTag_bits (b : Bool) : tagReserved (zextBit b) = 0 ∧ tagEnd (zextBit b) = false ∧
    tagTrailer (zextBit b) = false ∧ tagStored (zextBit b) = b := by
  cases b <;> decide

section fields

variable {s : State} {b : Bool} {o e d : Word} {q : List Byte}

/-- The state in which REC.RD reads ORIG_LEN, the bytes `q` being left. -/
theorem recRdBody_of_recordTag (hq : s.inq = zextBit b :: q) :
    recRdBody s = recRdOrigLen (zextBit b) ((consume 1 s).setRecTag (zextBit b)) ∧
      ((consume 1 s).setRecTag (zextBit b)).inq = q := by
  obtain ⟨hreserved, hend, htrailer, -⟩ := recordTag_bits b
  refine ⟨?_, consume_inq_of_append (p := [_]) hq⟩
  simp only [recRdBody, inByte_cons hq, Res.bind_ok, require_true hreserved, hend, recRdRecord_eq,
    require_true htrailer, Bool.false_eq_true, if_false]

/-- The state in which REC.RD reads ENC_LEN. -/
theorem recRdBody_of_origLen (hq : s.inq = zextBit b :: varint o ++ q) :
    recRdBody s = recRdEncLen (zextBit b)
        (((consume (1 + (varint o).length) s).setRecTag (zextBit b)).setOrigLen o) ∧
      (((consume (1 + (varint o).length) s).setRecTag (zextBit b)).setOrigLen o).inq = q := by
  obtain ⟨hbody, hrest⟩ := recRdBody_of_recordTag hq
  refine ⟨?_, by rw [Nat.add_comm]; exact consume_inq_of_append hq⟩
  rw [hbody, recRdOrigLen, varintRead_of_varint hrest, Res.bind_ok, consume_setRecTag, consume_consume]

theorem recordHead_length (t : Byte) (o e : Word) :
    (recordHead t o e).length = 1 + (varint o).length + (varint e).length := by
  simp only [recordHead, List.length_append, List.length_cons, List.length_nil]

/-- The state in which REC.RD has both lengths. -/
theorem recRdBody_of_head (hq : s.inq = recordHead (zextBit b) o e ++ q) :
    recRdBody s = recRdChecksum (zextBit b)
        (recFields (recordHead (zextBit b) o e).length (zextBit b) o e s.regs.recCk s) ∧
      (recFields (recordHead (zextBit b) o e).length (zextBit b) o e s.regs.recCk s).inq = q := by
  refine ⟨?_, by rw [recFields_inq]; exact consume_inq_of_append hq⟩
  have hq' : s.inq = (zextBit b :: varint o) ++ (varint e ++ q) := by
    rw [hq, recordHead, List.append_assoc]; rfl
  obtain ⟨hbody, hrest⟩ := recRdBody_of_origLen hq'
  rw [hbody, recRdEncLen, varintRead_of_varint hrest, Res.bind_ok, consume_setOrigLen, consume_setRecTag,
    consume_consume, recordHead_length]
  rfl

/-- The lengths agree as they must (30_encoding R109). -/
theorem lengths_agree (hst : b = true → e = o) : tagStored (zextBit b) = false ∨ e = o := by
  obtain ⟨-, -, -, hstored⟩ := recordTag_bits b
  rw [hstored]
  exact (Bool.eq_false_or_eq_true b).symm.imp_right hst

/-- The checksum field is read where the frame has it. -/
theorem recRdChecksum_of_sum {t : Byte} (hst : tagStored t = false ∨ s.regs.encLen = s.regs.origLen)
    (hq : s.inq = sumBytes (ck s) d ++ q) :
    recRdChecksum t s =
      recRdPayload ((consume (sumBytes (ck s) d).length s).setRecCk (if ck s then d else s.regs.recCk)) := by
  rw [recRdChecksum, require_true hst, Res.bind_ok]
  cases hck : ck s with
  | false =>
    rw [sumBytes, if_neg Bool.false_ne_true, if_neg Bool.false_ne_true, if_neg Bool.false_ne_true, Res.bind_ok,
      List.length_nil, consume_zero]
    rfl
  | true =>
    rw [hck] at hq
    rw [if_pos rfl, readRecCk_of_le32 hq, Res.bind_ok]
    rfl

/-- A record's bytes before its payload. -/
def fieldBytes (ckOn : Bool) (t : Byte) (o e d : Word) : List Byte := recordHead t o e ++ sumBytes ckOn d

/-- The state in which REC.RD comes to the payload. -/
theorem recRdBody_of_fields (hst : b = true → e = o) (hq : s.inq = fieldBytes (ck s) (zextBit b) o e d ++ q) :
    recRdBody s = recRdPayload (recFields (fieldBytes (ck s) (zextBit b) o e d).length (zextBit b) o e
        (if ck s then d else s.regs.recCk) s) ∧
      (recFields (fieldBytes (ck s) (zextBit b) o e d).length (zextBit b) o e
        (if ck s then d else s.regs.recCk) s).inq = q := by
  refine ⟨?_, by rw [recFields_inq]; exact consume_inq_of_append hq⟩
  rw [fieldBytes, List.append_assoc] at hq
  obtain ⟨hbody, hrest⟩ := recRdBody_of_head hq
  rw [hbody, recRdChecksum_of_sum (d := d) (q := q), consume_recFields, recFields_setRecCk, ck_recFields,
    recFields_recCk, fieldBytes, List.length_append]
  · rw [recFields_encLen, recFields_origLen]
    exact lengths_agree hst
  · rw [ck_recFields]
    exact hrest

end fields

/-! ### The payload -/

section payload

variable {s : State} {p q : List Byte}

theorem recRdPayload_of_too_long (hl : ¬ s.regs.encLen ≤ s.params.bufBytes) :
    recRdPayload s = .raised (raise .allocationFailure s) := by
  rw [recRdPayload, require_false hl, Res.bind_raised]

theorem recRdPayload_of_truncated (hl : s.regs.encLen ≤ s.params.bufBytes)
    (hshort : s.inq.length < s.regs.encLen.toNat) (he : s.eos = true) : recRdPayload s =
      .raised (forgetBuf (raise .truncatedStream ((consume s.inq.length s).setBufLen 0))) := by
  rw [recRdPayload, require_true hl, Res.bind_ok, loadBuf_of_truncated hshort he, Res.bind_raised]

theorem recRdPayload_of_payload (hl : s.regs.encLen ≤ s.params.bufBytes) (hq : s.inq = p ++ q)
    (hp : p.length = s.regs.encLen.toNat) : recRdPayload s =
      (recRdVerify ((memWrite 0 p (consume p.length s)).setBufLen s.regs.encLen)).bind fun _ s =>
        .ok () (countRecord s) := by
  rw [recRdPayload, require_true hl, Res.bind_ok, loadBuf_of_prefix hq hp, Res.bind_ok]

end payload

/-- A record's bytes with the checksum field `d`, which need not be its payload's digest. -/
def recBytesWith (ckOn : Bool) (r : Rec) (d : Word) : List Byte :=
  fieldBytes ckOn (zextBit r.stored) r.origLen (BitVec.ofNat 32 r.payload.length) d ++ r.payload

/-- A length that fits BUF is held in ENC_LEN whole, and a stored record's is ORIG_LEN (30_encoding R109). -/
theorem recOk.encLen {cap : Word} {r : Rec} (h : recOk cap r) :
    (BitVec.ofNat 32 r.payload.length).toNat = r.payload.length ∧ BitVec.ofNat 32 r.payload.length ≤ cap ∧
      (r.stored = true → BitVec.ofNat 32 r.payload.length = r.origLen) := by
  obtain ⟨hfit, hstored⟩ := h
  have hlen := ofNat_length_toNat hfit
  refine ⟨hlen, ?_, fun hst => ?_⟩
  · rw [BitVec.le_def, hlen]; exact hfit
  · exact BitVec.eq_of_toNat_eq (hlen.trans (hstored hst))

/-- From `s` to `u` REC.RD has loaded the record `r` with the checksum field `d`, whose bytes stood in IN before `rest`,
and has still to check its payload. -/
structure RecordLoaded (r : Rec) (d : Word) (rest : List Byte) (s u : State) : Prop where
  fields : u = { s with
    inq := rest
    regs.inCnt := s.regs.inCnt + BitVec.ofNat 64 (recBytesWith (ck s) r d).length
    regs.recTag := zextBit r.stored
    regs.origLen := r.origLen
    regs.encLen := BitVec.ofNat 32 r.payload.length
    regs.recCk := if ck s then d else s.regs.recCk
    regs.bufLen := BitVec.ofNat 32 r.payload.length
    regs.buf := u.regs.buf }
  content : bufContent u = r.payload
  past : ∀ a, r.payload.length ≤ a → bufByte u a = bufByte s a

section record

variable {r : Rec} {d : Word} {rest : List Byte} {s u : State}

/-- Whether the payload is to be checked, and against what. -/
theorem RecordLoaded.check (h : RecordLoaded r d rest s u) :
    ck u = ck s ∧ u.regs.verify = s.regs.verify ∧ u.regs.recCk = if ck s then d else s.regs.recCk :=
  ⟨ck_congr (by rw [h.fields]), by rw [h.fields], by rw [h.fields]⟩

theorem recRdBody_of_record (hok : recOk s.params.bufBytes r) (hq : s.inq = recBytesWith (ck s) r d ++ rest) :
    ∃ u, RecordLoaded r d rest s u ∧ recRdBody s = (recRdVerify u).bind fun _ s => .ok () (countRecord s) := by
  obtain ⟨hlen, hfit, hst⟩ := hok.encLen
  have hfields := hq
  rw [recBytesWith, List.append_assoc] at hfields
  obtain ⟨hbody, hrest⟩ := recRdBody_of_fields hst hfields
  refine ⟨recLoaded (recBytesWith (ck s) r d).length (zextBit r.stored) r.origLen (BitVec.ofNat 32 r.payload.length)
    (if ck s then d else s.regs.recCk) r.payload s,
    ⟨?_, bufContent_recLoaded hlen.symm, fun a ha => bufByte_recLoaded_of_le ha⟩, ?_⟩
  · rw [recLoaded, recFields_of_append hq rfl]
    rfl
  · rw [hbody, recRdPayload_of_payload (p := r.payload) (q := rest), consume_recFields, recFields_encLen, recLoaded,
      recBytesWith, List.length_append]
    · rw [recFields_encLen, recFields_params]
      exact hfit
    · exact hrest
    · rw [recFields_encLen, hlen]

end record

/-- Settles O48. -/
theorem recRdReadsRecord : Obligations.RecRdReadsRecord := by
  intro s r d rest ckOn bytes hph hok hq hmatch
  obtain ⟨hlive, hl⟩ := recRd_legal hph
  obtain ⟨u, hu, hbody⟩ := recRdBody_of_record (s := s.setBusy true) hok hq
  obtain ⟨hck, hv, hc⟩ := hu.check
  have hverify := recRdVerify_of_match (s := u) (d := d) fun hcku hvu =>
    ⟨by rw [hu.content, hmatch (hck.symm.trans hcku) (hv.symm.trans hvu)],
      hc.trans (if_pos (hck.symm.trans hcku))⟩
  rw [hverify, Res.bind_ok, hck, hv] at hbody
  refine ⟨_, exec_of_body_ok .recRd hlive hl hbody, ?_, (bufContent_congr rfl rfl rfl).trans hu.content, hu.past⟩
  rw [hu.fields]
  rfl

/-- Settles O49. -/
theorem recRdRejectsWrongDigest : Obligations.RecRdRejectsWrongDigest := by
  intro s r d rest bytes hph hck hv hok hq hne
  obtain ⟨hlive, hl⟩ := recRd_legal hph
  have hon : ck (s.setBusy true) = true := hck
  obtain ⟨u, hu, hbody⟩ :=
    recRdBody_of_record (s := s.setBusy true) (d := d) (rest := rest) hok (by rw [hon]; exact hq)
  obtain ⟨hcku, hvu, hc⟩ := hu.check
  have hmismatch : digest (bufContent u) ≠ u.regs.recCk := by
    rw [hu.content, hc, if_pos hon]
    exact hne.symm
  rw [recRdVerify_of_mismatch (hcku.trans hck) (hvu.trans hv) hmismatch, hu.content, Res.bind_raised] at hbody
  refine ⟨_, exec_of_body_raised .recRd hlive hl hbody, ?_, (bufContent_congr rfl rfl rfl).trans hu.content, hu.past⟩
  rw [hu.fields, hon, if_pos rfl]
  rfl

/-- Settles O50: the record's digest is that of other bytes of equal length, and BUF.ST is ignored in FAILED. -/
theorem corruptPayloadIsCaught : Obligations.CorruptPayloadIsCaught := by
  intro s stored origLen p q b c rest good bad hph hck hv hok hbc hq
  have hlen : good.payload.length = (p ++ c :: q).length := by simp [good]
  have hbad : recOk s.params.bufBytes ⟨stored, origLen, p ++ c :: q⟩ := by
    simpa only [recOk, hlen] using hok
  obtain ⟨t, hexec, ht, -⟩ := recRdRejectsWrongDigest s ⟨stored, origLen, p ++ c :: q⟩ (digest good.payload) rest
    hph hck hv hbad (by rw [hq]; simp only [bad, hlen]) (digestDetectsOneChangedByte p q b c hbc)
  have hfailed : t.regs.phase = .failed := by rw [ht]; rfl
  refine ⟨t, ?_, hfailed, by rw [ht]; rfl, by rw [ht]; rfl⟩
  simp only [execAll, hexec, exec_of_failed hfailed (i := .bufSt) nofun]

/-! ### The end marker (44_parser R196) -/

/-- Tag 0x02 ends the frame at once. -/
theorem recRdBody_of_end {s : State} {q : List Byte} (hq : s.inq = 0x02 :: q) :
    recRdBody s = .ok () (((consume 1 s).setRecTag 0x02).setPhase .done) := by
  rw [recRdBody, inByte_cons hq, Res.bind_ok]
  rfl

/-- Tag 0x06 is followed by the trailer, in a frame with checksums. -/
theorem recRdBody_of_trailerTag {s : State} {q : List Byte} (hck : ck s = true) (hq : s.inq = 0x06 :: q) :
    recRdBody s = (readRecCk ((consume 1 s).setRecTag 0x06)).bind fun _ s => .ok () (s.setPhase .pTrailer) := by
  have hon : ck ((consume 1 s).setRecTag 0x06) = true := hck
  rw [recRdBody, inByte_cons hq, Res.bind_ok]
  change (require (ck ((consume 1 s).setRecTag 0x06) = true) .malformedBlock _).bind _ = _
  rw [require_true hon, Res.bind_ok]

/-- Settles O51. -/
theorem recRdReadsEndMarker : Obligations.RecRdReadsEndMarker := by
  intro s d rest hph
  obtain ⟨hlive, hl⟩ := recRd_legal hph
  refine ⟨fun hq => ?_, fun hq hck => ?_⟩
  · rw [exec_of_body_ok .recRd hlive hl (recRdBody_of_end (s := s.setBusy true) hq),
      consume_of_append (s := s.setBusy true) (p := [0x02]) (k := 1) hq rfl]
    rfl
  · have hinq : ((consume 1 (s.setBusy true)).setRecTag 0x06).inq = le32 d ++ rest :=
      consume_inq_of_append (s := s.setBusy true) (p := [0x06]) hq
    have hbody := recRdBody_of_trailerTag (s := s.setBusy true) hck hq
    rw [readRecCk_of_le32 hinq, Res.bind_ok, consume_setRecTag, consume_consume,
      consume_of_append (s := s.setBusy true) (p := 0x06 :: le32 d) (k := 1 + 4) hq rfl] at hbody
    rw [exec_of_body_ok .recRd hlive hl hbody]
    rfl

/-! ### Faults in a record (60_exceptions R223, R224, R226, R237) -/

theorem length_tag_append (t : Byte) (a b : List Byte) : (t :: a ++ b).length = 1 + a.length + b.length := by
  rw [List.length_append, List.length_cons, Nat.add_comm 1]

/-- Settles O53. -/
theorem recRdLengthFaults : Obligations.RecRdLengthFaults := by
  intro s stored o e d rest hph tag sum head p q ck'
  obtain ⟨hlive, hl⟩ := recRd_legal hph
  have hfault {t : State} (hbody : recRdBody (s.setBusy true) = .raised t) : exec .recRd s = .next t :=
    exec_of_body_raised .recRd hlive hl hbody
  refine ⟨fun bad hbad hq => ?_, fun bad hbad hq => ?_, fun hst hne hq => ?_, fun hst hfit hq => ?_,
    fun hst hfit hq hshort he => ?_⟩
  · obtain ⟨hbody, hrest⟩ := recRdBody_of_recordTag (s := s.setBusy true) hq
    rw [recRdOrigLen, varintRead_of_illFormed hbad hrest, Res.bind_raised, consume_setRecTag, consume_consume,
      consume_of_append (s := s.setBusy true) hq (Nat.add_comm _ _)] at hbody
    exact hfault hbody
  · obtain ⟨hbody, hrest⟩ := recRdBody_of_origLen (s := s.setBusy true) (hq.trans (List.append_assoc _ _ _))
    rw [recRdEncLen, varintRead_of_illFormed hbad hrest, Res.bind_raised, consume_setOrigLen, consume_setRecTag,
      consume_consume, consume_of_append (s := s.setBusy true) hq (length_tag_append _ _ _)] at hbody
    exact hfault hbody
  · have hdiffer : ¬ (tagStored tag = false ∨ e = o) := by simp [tag, hst, recordTag_bits true, hne]
    obtain ⟨hbody, -⟩ := recRdBody_of_head (s := s.setBusy true) hq
    rw [recRdChecksum, require_false, Res.bind_raised, recFields_of_append (s := s.setBusy true) hq rfl] at hbody
    · exact hfault hbody
    · rw [recFields_encLen, recFields_origLen]
      exact hdiffer
  · have hfields : (s.setBusy true).inq = fieldBytes (ck (s.setBusy true)) tag o e d ++ rest := hq
    obtain ⟨hbody, -⟩ := recRdBody_of_fields hst hfields
    rw [recRdPayload_of_too_long, recFields_of_append hfields rfl] at hbody
    · exact hfault hbody
    · rw [recFields_encLen, recFields_params]
      exact hfit
  · have hfields : (s.setBusy true).inq = fieldBytes (ck (s.setBusy true)) tag o e d ++ rest := hq
    obtain ⟨hbody, hrest⟩ := recRdBody_of_fields hst hfields
    rw [recRdPayload_of_truncated, consume_recFields, hrest, ← List.length_append, recFields_of_append
      (hfields.trans (List.append_nil _).symm) rfl] at hbody
    · exact ⟨_, hfault hbody, rfl⟩
    · rw [recFields_encLen, recFields_params]
      exact hfit
    · rw [hrest, recFields_encLen]
      exact hshort
    · rw [recFields_eos]
      exact he

/-- Settles O60. -/
theorem recRdTruncatedBeforePayload : Obligations.RecRdTruncatedBeforePayload := by
  intro s stored o e cut hph he tag p
  obtain ⟨hlive, hl⟩ := recRd_legal hph
  have hall {bs : List Byte} (hq : s.inq = bs) : s.inq = bs ++ [] := hq.trans (List.append_nil bs).symm
  have hfault {t : State} (hbody : recRdBody (s.setBusy true) = .raised t) : exec .recRd s = .next t :=
    exec_of_body_raised .recRd hlive hl hbody
  refine ⟨fun hq => ?_, fun hcut hq => ?_, fun hcut hq => ?_, fun hck hst hshort hq => ?_, fun hck hshort hq => ?_⟩
  · refine hfault ?_
    rw [recRdBody, inByte_exhausted (s := s.setBusy true) hq he, Res.bind_raised]
    rfl
  · obtain ⟨hbody, hrest⟩ := recRdBody_of_recordTag (s := s.setBusy true) hq
    rw [recRdOrigLen, varintRead_of_unfinished hcut hrest he, Res.bind_raised, consume_setRecTag, consume_consume,
      consume_of_append (s := s.setBusy true) (hall hq) (Nat.add_comm _ _)] at hbody
    exact hfault hbody
  · obtain ⟨hbody, hrest⟩ := recRdBody_of_origLen (s := s.setBusy true) hq
    rw [recRdEncLen, varintRead_of_unfinished hcut hrest he, Res.bind_raised, consume_setOrigLen, consume_setRecTag,
      consume_consume, consume_of_append (s := s.setBusy true) (hall hq) (length_tag_append _ _ _)] at hbody
    exact hfault hbody
  · obtain ⟨hbody, hrest⟩ := recRdBody_of_head (s := s.setBusy true) hq
    rw [recRdChecksum, require_true, Res.bind_ok, if_pos, readRecCk_of_short hshort hrest, Res.bind_raised,
      consume_recFields, recFields_of_append (s := s.setBusy true) (hall hq) List.length_append] at hbody
    · exact hfault hbody
    · rw [recFields_eos]
      exact he
    · rw [ck_recFields]
      exact hck
    · rw [recFields_encLen, recFields_origLen]
      exact lengths_agree hst
  · have hbody := recRdBody_of_trailerTag (s := s.setBusy true) hck hq
    have hrest : ((consume 1 (s.setBusy true)).setRecTag 0x06).inq = cut := consume_inq_of_append (p := [_]) hq
    rw [readRecCk_of_short hshort hrest he, Res.bind_raised, consume_setRecTag, consume_consume,
      consume_of_append (s := s.setBusy true) (hall hq) (Nat.add_comm _ _)] at hbody
    exact hfault hbody

end Sys2Proof.Machine
end

section
/-! SUPPORT. The parser and BLKSZ: the statements of REC.RD and FRM.VFY come to the same with another block size, piece
by piece (44_parser R192). -/

namespace Sys2Proof.Machine

/-- The same end with another BLKSZ. -/
def Res.withBlksz {α : Type} (b : Word) : Res α → Res α
  | .ok a s => .ok a (s.setBlksz b)
  | .raised s => .raised (s.setBlksz b)
  | .wait s => .wait (s.setBlksz b)

/-- Statements that neither read nor write BLKSZ. -/
def IgnoresBlksz {α : Type} (f : State → Res α) : Prop := ∀ b s, f (s.setBlksz b) = (f s).withBlksz b

/-! ### Pieces put together -/

section pieces

variable {α β : Type}

theorem IgnoresBlksz.bind {f : State → Res α} {g : α → State → Res β} (hf : IgnoresBlksz f)
    (hg : ∀ a, IgnoresBlksz (g a)) : IgnoresBlksz fun s => (f s).bind g := by
  intro b s
  simp only [hf b s]
  cases f s with
  | ok a u => exact hg a b u
  | raised u | wait u => rfl

theorem IgnoresBlksz.ite {c : State → Prop} [∀ s, Decidable (c s)] {f g : State → Res α}
    (hc : ∀ b s, c (s.setBlksz b) ↔ c s) (hf : IgnoresBlksz f) (hg : IgnoresBlksz g) :
    IgnoresBlksz fun s => if c s then f s else g s := by
  intro b s
  by_cases h : c s
  · simp only [if_pos h, if_pos ((hc b s).mpr h), hf b s]
  · simp only [if_neg h, if_neg (mt (hc b s).mp h), hg b s]

theorem IgnoresBlksz.require {c : State → Prop} [∀ s, Decidable (c s)] (hc : ∀ b s, c (s.setBlksz b) ↔ c s)
    (e : ErrCode) : IgnoresBlksz fun s => require (c s) e s :=
  .ite hc (fun _ _ => rfl) (fun _ _ => rfl)

end pieces

theorem bufContent_setBlksz (b : Word) (s : State) : bufContent (s.setBlksz b) = bufContent s :=
  bufContent_congr rfl rfl rfl

/-! ### The streams -/

theorem inByte_ignoresBlksz : IgnoresBlksz inByte := by
  intro b s
  rcases inByte_cases s with ⟨c, rest, hq, h⟩ | ⟨hq, he, h⟩ | ⟨hq, he, h⟩
  · rw [h, inByte_cons (s := s.setBlksz b) hq]
    rfl
  · rw [h, inByte_exhausted (s := s.setBlksz b) hq he]
    rfl
  · rw [h, inByte_waits (s := s.setBlksz b) hq he]
    rfl

theorem inTake_ignoresBlksz (n : Nat) : IgnoresBlksz (inTake n) := by
  induction n with
  | zero => exact fun _ _ => rfl
  | succ n ih => exact inByte_ignoresBlksz.bind fun _ => ih.bind fun _ _ _ => rfl

theorem varintTurns_ignoresBlksz (more : Nat) (acc : Word) : IgnoresBlksz (varintTurns more acc) := by
  induction more generalizing acc with
  | zero =>
    exact inByte_ignoresBlksz.bind fun _ => (IgnoresBlksz.require (fun _ _ => Iff.rfl) _).bind fun _ =>
      (IgnoresBlksz.require (fun _ _ => Iff.rfl) _).bind fun _ _ _ => rfl
  | succ more ih =>
    exact inByte_ignoresBlksz.bind fun _ => .ite (fun _ _ => Iff.rfl) (ih _)
      ((IgnoresBlksz.require (fun _ _ => Iff.rfl) _).bind fun _ _ _ => rfl)

theorem varintRead_ignoresBlksz : IgnoresBlksz varintRead := varintTurns_ignoresBlksz 4 0

theorem loadBuf_ignoresBlksz (n : Word) : IgnoresBlksz (loadBuf n) := by
  intro b s
  have hcomm : (s.setBlksz b).setBufLen 0 = (s.setBufLen 0).setBlksz b := rfl
  rw [loadBuf, loadBuf, hcomm, inTake_ignoresBlksz n.toNat b (s.setBufLen 0)]
  cases inTake n.toNat (s.setBufLen 0) with
  | ok | raised | wait => rfl

/-! ### REC.RD and FRM.VFY -/

theorem recRdVerify_ignoresBlksz : IgnoresBlksz recRdVerify := by
  refine .ite (fun _ _ => Iff.rfl) (fun b s => ?_) (fun _ _ => rfl)
  dsimp only
  rw [bufContent_setBlksz]
  exact IgnoresBlksz.require (c := fun s => s.regs.blkDigest = s.regs.recCk) (fun _ _ => Iff.rfl) .checksumMismatch b
    (s.setBlkDigest (digest (bufContent s)))

theorem readRecCk_ignoresBlksz : IgnoresBlksz readRecCk := (inTake_ignoresBlksz 4).bind fun _ _ _ => rfl

theorem recRdPayload_ignoresBlksz : IgnoresBlksz recRdPayload := by
  have hload : IgnoresBlksz fun s => loadBuf s.regs.encLen s := fun b s => loadBuf_ignoresBlksz s.regs.encLen b s
  exact (IgnoresBlksz.require (fun _ _ => Iff.rfl) _).bind fun _ => hload.bind fun _ =>
    recRdVerify_ignoresBlksz.bind fun _ _ _ => rfl

theorem recRdChecksum_ignoresBlksz (t : Byte) : IgnoresBlksz (recRdChecksum t) :=
  (IgnoresBlksz.require (fun _ _ => Iff.rfl) _).bind fun _ =>
    (IgnoresBlksz.ite (fun _ _ => Iff.rfl) readRecCk_ignoresBlksz fun _ _ => rfl).bind fun _ =>
      recRdPayload_ignoresBlksz

theorem recRdOrigLen_ignoresBlksz (t : Byte) : IgnoresBlksz (recRdOrigLen t) :=
  varintRead_ignoresBlksz.bind fun o b s =>
    (varintRead_ignoresBlksz.bind fun e b s => recRdChecksum_ignoresBlksz t b (s.setEncLen e)) b (s.setOrigLen o)

theorem recRdRecord_ignoresBlksz (t : Byte) : IgnoresBlksz (recRdRecord t) := by
  rw [funext (recRdRecord_eq t)]
  exact (IgnoresBlksz.require (fun _ _ => Iff.rfl) _).bind fun _ => recRdOrigLen_ignoresBlksz t

theorem recRdEnd_ignoresBlksz (t : Byte) : IgnoresBlksz (recRdEnd t) :=
  (IgnoresBlksz.require (fun _ _ => Iff.rfl) _).bind fun _ =>
    .ite (fun _ _ => Iff.rfl)
      ((IgnoresBlksz.require (fun _ _ => Iff.rfl) _).bind fun _ => readRecCk_ignoresBlksz.bind fun _ _ _ => rfl)
      fun _ _ => rfl

theorem recRdBody_ignoresBlksz : IgnoresBlksz recRdBody := by
  refine inByte_ignoresBlksz.bind fun t => ?_
  have htag : IgnoresBlksz fun s => (require (tagReserved t = 0) .malformedBlock s).bind fun _ s =>
      if tagEnd t then recRdEnd t s else recRdRecord t s :=
    (IgnoresBlksz.require (fun _ _ => Iff.rfl) _).bind fun _ =>
      .ite (fun _ _ => Iff.rfl) (recRdEnd_ignoresBlksz t) (recRdRecord_ignoresBlksz t)
  exact fun b s => htag b (s.setRecTag t)

theorem frmVfyBody_ignoresBlksz : IgnoresBlksz frmVfyBody :=
  (IgnoresBlksz.require (fun _ _ => Iff.rfl) _).bind fun _ _ _ => rfl

/-- A wait of REC.RD leaves BUSY as it was. -/
theorem busy_of_recRdBody_wait {b u : State} (h : recRdBody b = .wait u) : u.regs.busy = b.regs.busy := by
  have hout := recRdBody_outcome b
  rw [h] at hout
  cases hout with
  | waits u hu he => exact hu.busy_eos.1
  | waitsPayload => simp

/-- FRM.VFY takes nothing from IN. -/
theorem frmVfyBody_ne_wait (b u : State) : frmVfyBody b ≠ .wait u := by
  intro h
  have hend := bodyOf_bodyEnd .frmVfy b
  rw [bodyOf, h] at hend
  cases hend with
  | waits hi => simp at hi

/-- Settles O55: ignored and refused commands write nothing of BLKSZ either. -/
theorem parserIgnoresBlksz : Obligations.ParserIgnoresBlksz := by
  intro i s t b hi ht hbusy
  have hbody : IgnoresBlksz (bodyOf i) := by
    rcases hi with rfl | rfl
    · exact recRdBody_ignoresBlksz
    · exact frmVfyBody_ignoresBlksz
  have hwait {u : State} (h : bodyOf i (s.setBusy true) = .wait u) : u.regs.busy = true := by
    rcases hi with rfl | rfl
    · exact busy_of_recRdBody_wait h
    · exact absurd h (frmVfyBody_ne_wait _ _)
  change exec i (s.setBlksz b) = .next (t.setBlksz b)
  rw [exec_eq_issue] at ht ⊢
  cases hadm : admission i s.regs.phase with
  | ignored =>
    cases (issue_ignored hadm _).symm.trans ht
    exact issue_ignored (s := s.setBlksz b) hadm _
  | violation =>
    cases (issue_violation hadm _).symm.trans ht
    exact issue_violation (s := s.setBlksz b) hadm _
  | execute =>
    rw [issue_execute hadm] at ht
    rw [issue_execute (s := s.setBlksz b) hadm]
    have hsame : bodyOf i ((s.setBlksz b).setBusy true) = (bodyOf i (s.setBusy true)).withBlksz b :=
      hbody b (s.setBusy true)
    rw [hsame]
    cases hr : bodyOf i (s.setBusy true) with
    | ok a u | raised u =>
      rw [hr] at ht
      cases ht
      rfl
    | wait u =>
      have hu : u.regs.busy = true := hwait hr
      rw [hr] at ht
      cases ht
      exact absurd (hu.symm.trans hbusy) nofun

end Sys2Proof.Machine
end

section
/-! SUPPORT. When a record counts, and when a parser command can raise ChecksumMismatch (44_parser R195). -/

namespace Sys2Proof.Machine

theorem settle_err (i : Instr) (s : State) (r : Res Unit) : (settle i s r).regs.err = r.final.regs.err := by
  cases r <;> rfl

theorem settle_seq (i : Instr) (s : State) (r : Res Unit) : (settle i s r).regs.seq = r.final.regs.seq := by
  cases r <;> rfl

/-- Where REC.RD asks for a byte before the payload, it has neither counted a record nor raised a fault. -/
theorem RecRdAt.seq {b u : State} {k : Nat} (h : RecRdAt b k u) : u.regs.seq = b.regs.seq := by
  cases h <;> simp [recFields]

theorem bufContent_countRecord (s : State) : bufContent (countRecord s) = bufContent s := bufContent_congr rfl rfl rfl

/-- With the check on, what REC.RD counts it has checked. -/
theorem recRdBody_checked_of_counts {b : State} (hck : ck b = true) (hv : b.regs.verify = true)
    (hseq : (recRdBody b).final.regs.seq ≠ b.regs.seq) : ∃ u, recRdBody b = .ok () u ∧
      digest (bufContent u) = u.regs.recCk ∧ u.regs.blkDigest = u.regs.recCk := by
  have hout := recRdBody_outcome b
  generalize recRdBody b = r at hout hseq
  cases hout with
  | truncated u hu | waits u hu | badLength k u hk hu => exact absurd hu.seq hseq
  | badTag | storedDiffers | tooLong | truncatedPayload | waitsPayload | mismatch | ended | endedTrailer =>
    exact absurd (by simp [Res.final, recLoaded, recFields]) hseq
  | unchecked k t o e c p hk ht hl hp hc hoff => exact absurd ⟨hck, hv⟩ hoff
  | checked k t o e p hk ht hl hp =>
    refine ⟨_, rfl, ?_, by simp [recLoaded]⟩
    rw [bufContent_countRecord, bufContent_setBlkDigest, bufContent_recLoaded hp]
    simp [recLoaded]

/-- HDR.RD checks no digest. -/
theorem hdrRdBody_err {b : State} (h : b.regs.err ≠ .checksumMismatch) :
    (hdrRdBody b).final.regs.err ≠ .checksumMismatch := by
  have hout := hdrRdBody_outcome b
  generalize hdrRdBody b = r at hout
  cases hout with
  | badMagic | badVersion | badFlags | badSize | truncatedEarly | truncatedFlags | truncatedSize => nofun
  | waitsEarly | waitsFlags | waitsSize | done => simpa [Res.final] using h

/-- With the check off, REC.RD raises no ChecksumMismatch. -/
theorem recRdBody_err {b : State} (h : b.regs.err ≠ .checksumMismatch)
    (hoff : ¬ (ck b = true ∧ b.regs.verify = true)) : (recRdBody b).final.regs.err ≠ .checksumMismatch := by
  have hout := recRdBody_outcome b
  generalize recRdBody b = r at hout
  cases hout with
  | truncated | badTag | badLength | storedDiffers | tooLong | truncatedPayload => nofun
  | waits u hu => rw [Res.final, hu.frame.2.err]; exact h
  | mismatch k t o e c p hk ht hl hp hv | checked k t o e p hk ht hl hp hv => exact absurd hv hoff
  | waitsPayload | unchecked | ended | endedTrailer => simpa [Res.final, recLoaded, recFields] using h

/-- Settles O56. -/
theorem recordsAreCheckedBeforeTheyCount : Obligations.RecordsAreCheckedBeforeTheyCount := by
  intro s t hinv _
  refine ⟨fun ht hseq hck hv => ?_, fun hoff herr i hi ht => ?_⟩
  · rcases exec_cases .recRd s with ⟨-, he⟩ | ⟨-, he⟩ | ⟨-, he⟩
    · cases he.symm.trans ht
      exact absurd rfl hseq
    · cases he.symm.trans ht
      exact absurd rfl hseq
    · cases he.symm.trans ht
      rw [settle_seq] at hseq
      obtain ⟨u, hbody, hdigest, hblk⟩ := recRdBody_checked_of_counts (b := s.setBusy true) hck hv hseq
      rw [bodyOf, hbody, settle_ok]
      exact ⟨hdigest, hblk⟩
  · have hchecked : ¬ (ck s = true ∧ s.regs.verify = true) := fun ⟨hck, hv⟩ =>
      hoff.elim (ne_false_of_eq_true hck) (ne_false_of_eq_true hv)
    rcases exec_cases i s with ⟨-, he⟩ | ⟨-, he⟩ | ⟨hadm, he⟩
    · cases he.symm.trans ht
      exact herr
    · cases he.symm.trans ht
      nofun
    · cases he.symm.trans ht
      rw [settle_err]
      have hfree : i = .hdrRd ∨ i = .recRd ∨ i = .frmVfy := by simpa using hi
      rcases hfree with rfl | rfl | rfl
      · exact hdrRdBody_err herr
      · exact recRdBody_err herr hchecked
      · have hph : s.regs.phase = .pTrailer := by simpa [legal] using (legal_of_execute hadm nofun).2
        have hverify : s.regs.verify = false := hoff.resolve_left (ne_false_of_eq_true (hinv.regs.trailerCk hph))
        rw [bodyOf, frmVfyBody_of_match (s := s.setBusy true) (.inl hverify)]
        exact herr

end Sys2Proof.Machine
end

section
/-! SUPPORT. The parse of a frame (44_parser R190): what holds of the CFU after the header, after each record and after
the end marker, and where the parse ends when the frame is cut (R198, R199). -/

namespace Sys2Proof.Machine

/-! ### Commands one after another -/

theorem execAll_cons {i : Instr} {s t : State} (h : exec i s = .next t) (is : List Instr) :
    execAll (i :: is) s = execAll is t := by
  rw [execAll, h]

theorem execAll_append {is : List Instr} {s t : State} (h : execAll is s = .next t) (js : List Instr) :
    execAll (is ++ js) s = execAll js t := by
  induction is generalizing s with
  | nil =>
    cases h
    rfl
  | cons i is ih =>
    rw [List.cons_append, execAll]
    rw [execAll] at h
    cases hexec : exec i s with
    | next u =>
      rw [hexec] at h
      exact ih h
    | fault | refused =>
      rw [hexec] at h
      cases h

/-- In FAILED all commands but RESET are ignored (40_control R135). -/
theorem execAll_of_failed {is : List Instr} {s : State} (hfailed : s.regs.phase = .failed) (hi : .reset ∉ is) :
    execAll is s = .next s := by
  induction is with
  | nil => rfl
  | cons i is ih =>
    rw [execAll_cons (exec_of_failed hfailed (List.ne_of_not_mem_cons hi).symm), ih (List.not_mem_of_not_mem_cons hi)]

/-- The commands for one record (44_parser R190; 42_checksum R158). -/
def readRecord : List Instr := [.recRd, .ckFbuf]

/-- The commands for the end marker and the trailer. -/
def readEnd (t : Bool) : List Instr := .recRd :: if t then [.frmVfy] else []

/-- The commands for `n` records and what follows them. -/
theorem readFrame_eq (n : Nat) (t : Bool) :
    readFrame n t = .hdrRd :: ((List.replicate n readRecord).flatten ++ readEnd t) := rfl

theorem reset_not_mem_readRest (n : Nat) (t : Bool) :
    .reset ∉ (List.replicate n readRecord).flatten ++ readEnd t := by
  cases t <;> simp [readRecord, readEnd]

/-! ### A frame half read -/

/-- A CFU in P_BODY that has read the header and the records `recs` of a frame, and has since folded the bytes `folded`
into FRM_ACC (44_parser R190; 42_checksum R158). -/
structure FrameParsed (p : Params) (ckOn : Bool) (blksz : Word) (recs : List Rec) (folded : List Byte) (s : State) :
    Prop where
  params : s.params = p
  phase : s.regs.phase = .pBody
  flags : s.regs.flags = zextBit ckOn
  size : s.regs.blksz = blksz
  acc : s.regs.frmAcc = crcFold Config.crcOnes folded
  seq : s.regs.seq = BitVec.ofNat 32 recs.length
  total : s.regs.totOrig = totalOrig recs
  inCnt : s.regs.inCnt = BitVec.ofNat 64 (openFrameBytes p.magic ckOn blksz recs).length

/-- The registers and BUF show the record `r`. -/
structure RecordShown (r : Rec) (s : State) : Prop where
  recTag : s.regs.recTag = zextBit r.stored
  origLen : s.regs.origLen = r.origLen
  encLen : s.regs.encLen.toNat = r.payload.length
  content : bufContent s = r.payload

section parsing

variable {p : Params} {ckOn : Bool} {blksz : Word} {recs : List Rec} {r : Rec} {q folded : List Byte}
  {s : State}

theorem FrameParsed.ck_eq (h : FrameParsed p ckOn blksz recs folded s) : ck s = ckOn := by
  rw [ck, h.flags, zextBit_getLsbD]

theorem header_parsed (hph : s.regs.phase = .idle ∨ s.regs.phase = .done)
    (hq : s.inq = headerBytes s.params.magic Config.versionByte (zextBit ckOn) blksz ++ q) :
    ∃ t, exec .hdrRd s = .next t ∧ FrameParsed s.params ckOn blksz [] [] t ∧ t.inq = q ∧ t.eos = s.eos := by
  have hflags : zextBit ckOn = 0x00 ∨ zextBit ckOn = 0x01 := by cases ckOn <;> decide
  refine ⟨_, hdrRdReadsHeader s (zextBit ckOn) blksz q hph hflags hq, ?_, rfl, rfl⟩
  exact {
    params := rfl, phase := rfl, flags := rfl, size := rfl, acc := rfl, seq := rfl, total := rfl
    inCnt := by rw [openFrameBytes_nil, headerBytes_length] }

/-- REC.RD reads a record, whatever CTRL.VERIFY is, since the digest is right. -/
theorem exec_recRd_parsed (h : FrameParsed p ckOn blksz recs folded s) (hok : recOk p.bufBytes r)
    (hq : s.inq = recBytes ckOn r ++ q) :
    ∃ t, exec .recRd s = .next t ∧ FrameParsed p ckOn blksz (recs ++ [r]) folded t ∧ RecordShown r t ∧ t.inq = q ∧
      t.eos = s.eos := by
  obtain rfl : s.regs.flags.getLsbD 0 = ckOn := h.ck_eq
  obtain rfl := h.params
  obtain ⟨t, hexec, ht, hcontent, -⟩ := recRdReadsRecord s r (digest r.payload) q h.phase hok hq fun _ _ => rfl
  have hseq : s.regs.seq + 1 = BitVec.ofNat 32 (recs ++ [r]).length := by
    rw [List.length_append, BitVec.ofNat_add, h.seq]
    rfl
  have hcnt : s.regs.inCnt + BitVec.ofNat 64 (recBytes (s.regs.flags.getLsbD 0) r).length =
      BitVec.ofNat 64 (openFrameBytes s.params.magic (s.regs.flags.getLsbD 0) blksz (recs ++ [r])).length := by
    rw [openFrameBytes_snoc, List.length_append, BitVec.ofNat_add, h.inCnt]
  refine ⟨t, hexec, ?_, ⟨by rw [ht], by rw [ht], by rw [ht]; exact hok.encLen.1, hcontent⟩, by rw [ht], by rw [ht]⟩
  rw [ht]
  exact { h with seq := hseq, inCnt := hcnt, total := by rw [totalOrig_snoc, ← h.total] }

/-- CK.FBUF folds the payload of the record that is shown. -/
theorem exec_ckFbuf_parsed (h : FrameParsed p ckOn blksz recs folded s) (hr : RecordShown r s) :
    ∃ t, exec .ckFbuf s = .next t ∧ FrameParsed p ckOn blksz recs (folded ++ r.payload) t ∧ RecordShown r t ∧
      t.inq = s.inq ∧ t.eos = s.eos := by
  refine ⟨_, (ckFbufFoldsContent.2 s).1 (by rw [h.phase]; nofun), ?_, ?_, rfl, rfl⟩
  · exact { h with acc := by rw [hr.content, h.acc, crcFold_append] }
  · exact { hr with content := (bufContent_congr rfl rfl rfl).trans hr.content }

theorem record_parsed (h : FrameParsed p ckOn blksz recs (payloads recs) s) (hok : recOk p.bufBytes r)
    (hq : s.inq = recBytes ckOn r ++ q) :
    ∃ t, execAll readRecord s = .next t ∧ FrameParsed p ckOn blksz (recs ++ [r]) (payloads (recs ++ [r])) t ∧
      RecordShown r t ∧ t.inq = q ∧ t.eos = s.eos := by
  obtain ⟨u, hsu, hu, hshown, huinq, hueos⟩ := exec_recRd_parsed h hok hq
  obtain ⟨t, hut, ht, htshown, htinq, hteos⟩ := exec_ckFbuf_parsed hu hshown
  rw [payloads_snoc]
  exact ⟨t, (execAll_cons hsu _).trans (execAll_cons hut _), ht, htshown, htinq.trans huinq, hteos.trans hueos⟩

theorem records_parsed {todo : List Rec} (h : FrameParsed p ckOn blksz recs (payloads recs) s)
    (hok : ∀ r ∈ todo, recOk p.bufBytes r) (hq : s.inq = todo.flatMap (recBytes ckOn) ++ q) :
    ∃ t, execAll (List.replicate todo.length readRecord).flatten s = .next t ∧
      FrameParsed p ckOn blksz (recs ++ todo) (payloads (recs ++ todo)) t ∧ t.inq = q := by
  induction todo generalizing recs s with
  | nil =>
    rw [List.append_nil]
    exact ⟨s, rfl, h, hq⟩
  | cons r todo ih =>
    obtain ⟨hr, htodo⟩ := List.forall_mem_cons.mp hok
    rw [List.flatMap_cons, List.append_assoc] at hq
    obtain ⟨u, hsu, hu, -, huinq, -⟩ := record_parsed h hr hq
    obtain ⟨t, hut, ht, htinq⟩ := ih hu htodo huinq
    rw [List.length_cons, List.replicate_succ, List.flatten_cons, execAll_append hsu, List.append_cons]
    exact ⟨t, hut, ht, htinq⟩

/-- The header and the records of a frame. -/
theorem openFrame_parsed (hph : s.regs.phase = .idle ∨ s.regs.phase = .done)
    (hok : ∀ r ∈ recs, recOk s.params.bufBytes r)
    (hq : s.inq = openFrameBytes s.params.magic ckOn blksz recs ++ q) :
    ∃ t, execAll (readRecords recs.length) s = .next t ∧ FrameParsed s.params ckOn blksz recs (payloads recs) t ∧
      t.inq = q := by
  rw [openFrameBytes, List.append_assoc] at hq
  obtain ⟨u, hsu, hu, huinq, -⟩ := header_parsed hph hq
  obtain ⟨t, hut, ht⟩ := records_parsed hu hok huinq
  exact ⟨t, (execAll_cons hsu _).trans hut, ht⟩

/-- The end marker and the trailer, whose digest is that of the payloads. -/
theorem end_parsed (h : FrameParsed p ckOn blksz recs (payloads recs) s) {t : Bool} (ht : t = true → ckOn = true)
    (hq : s.inq = endBytes (payloadTrailer t recs) ++ q) :
    ∃ u, execAll (readEnd t) s = .next u ∧ u.regs.phase = .done ∧ u.inq = q ∧ u.regs.flags = s.regs.flags ∧
      u.regs.blksz = s.regs.blksz ∧ u.regs.seq = s.regs.seq ∧ u.regs.totOrig = s.regs.totOrig ∧
      u.regs.frmAcc = s.regs.frmAcc := by
  obtain ⟨hplain, htrailer⟩ := recRdReadsEndMarker s (digest (payloads recs)) q h.phase
  cases t with
  | false => exact ⟨_, execAll_cons (hplain hq) _, rfl, rfl, rfl, rfl, rfl, rfl, rfl⟩
  | true =>
    have hmatch : s.regs.frmAcc ^^^ 0xFFFFFFFF = digest (payloads recs) := by rw [h.acc]; rfl
    have hrd := htrailer hq (h.ck_eq.trans (ht rfl))
    refine ⟨_, (execAll_cons hrd _).trans (execAll_cons ((frmVfyChecksTrailer.2 _).1 rfl (.inr hmatch)) _),
      rfl, rfl, rfl, rfl, rfl, rfl, rfl⟩

/-- After the commands for `before` and for the record `r` behind them, `r` is shown. -/
theorem nth_record_parsed {before : List Rec} (hph : s.regs.phase = .idle ∨ s.regs.phase = .done)
    (hok : ∀ r ∈ before, recOk s.params.bufBytes r) (hr : recOk s.params.bufBytes r)
    (hq : s.inq = openFrameBytes s.params.magic ckOn blksz before ++ (recBytes ckOn r ++ q)) :
    ∃ u, execAll (readRecords (before.length + 1)) s = .next u ∧
      FrameParsed s.params ckOn blksz (before ++ [r]) (payloads (before ++ [r])) u ∧ RecordShown r u := by
  obtain ⟨t, hst, ht, htinq⟩ := openFrame_parsed hph hok hq
  obtain ⟨u, htu, hu, hshown, -⟩ := record_parsed ht hr htinq
  refine ⟨u, ?_, hu, hshown⟩
  have hcmds : readRecords (before.length + 1) = readRecords before.length ++ readRecord := by
    rw [readRecords, List.replicate_succ', List.flatten_append]
    rfl
  rw [hcmds, execAll_append hst, htu]

theorem openFrameBytes_split (m : Magic) (ckOn : Bool) (blksz : Word) (recs : List Rec) {k : Nat}
    (hk : k < recs.length) : openFrameBytes m ckOn blksz recs = openFrameBytes m ckOn blksz (recs.take k) ++
      (recBytes ckOn recs[k] ++ (recs.drop (k + 1)).flatMap (recBytes ckOn)) := by
  have hsplit : recs.take k ++ recs[k] :: recs.drop (k + 1) = recs := by simp
  conv_lhs => rw [← hsplit]
  rw [openFrameBytes, List.flatMap_append, List.flatMap_cons, ← List.append_assoc]
  rfl

end parsing

/-- Settles O58. -/
theorem parserReadsFrame : Obligations.ParserReadsFrame := by
  intro s ckOn t blksz recs inRest hph _ ht hok hq
  rw [frameBytes_eq_open_append, List.append_assoc] at hq
  constructor
  · obtain ⟨u, hsu, hu, huinq⟩ := openFrame_parsed hph hok hq
    obtain ⟨v, huv, hdone, hinq, hflags, hblksz, hseq, htot, hacc⟩ := end_parsed hu ht huinq
    refine ⟨v, (execAll_append hsu _).trans huv, hdone, hinq, hflags.trans hu.flags, hblksz.trans hu.size,
      hseq.trans hu.seq, htot.trans hu.total, ?_⟩
    rw [hacc, hu.acc]
    rfl
  · intro k hk
    rw [openFrameBytes_split _ _ _ _ hk, List.append_assoc, List.append_assoc] at hq
    obtain ⟨u, hsu, hu, hshown⟩ := nth_record_parsed hph (fun r hr => hok r (List.mem_of_mem_take hr))
      (hok _ (List.getElem_mem hk)) hq
    have hlen : (recs.take k).length = k := List.length_take_of_le (Nat.le_of_lt hk)
    have hseq := hu.seq
    rw [List.length_append, hlen] at hseq
    rw [hlen] at hsu
    exact ⟨u, hsu, hu.phase, hshown.recTag, hshown.origLen, hshown.encLen, hshown.content, hseq⟩

/-! ### A frame cut short -/

theorem take_append_cases {α : Type} (a b : List α) {k : Nat} (hk : k < (a ++ b).length) :
    (k < a.length ∧ (a ++ b).take k = a.take k) ∨
    ∃ j, j < b.length ∧ k = a.length + j ∧ (a ++ b).take k = a ++ b.take j := by
  rcases Nat.lt_or_ge k a.length with h | h
  · exact .inl ⟨h, List.take_append_of_le_length (Nat.le_of_lt h)⟩
  · obtain ⟨j, rfl⟩ := Nat.exists_eq_add_of_le h
    rw [List.length_append] at hk
    exact .inr ⟨j, by omega, rfl, List.take_length_add_append _⟩

theorem unfinishedVarint_take {v : Word} {j : Nat} (hj : j < (varint v).length) :
    UnfinishedVarint ((varint v).take j) := by
  refine ⟨v, List.take_prefix _ _, fun h => ?_⟩
  have hlen := congrArg List.length h
  rw [List.length_take] at hlen
  omega

/-- The parse has failed at the end of IN, after `k` bytes of the frame (44_parser R199). -/
structure CutAt (k : Nat) (u : State) : Prop where
  failed : u.regs.phase = .failed
  err : u.regs.err = .truncatedStream
  inq : u.inq = []
  inCnt : u.regs.inCnt = BitVec.ofNat 64 k

section cutting

variable {p : Params} {ckOn : Bool} {blksz : Word} {recs : List Rec} {r : Rec} {folded : List Byte} {k : Nat}
  {s : State}

theorem header_cut (hph : s.regs.phase = .idle ∨ s.regs.phase = .done) (he : s.eos = true)
    (hk : k < (headerBytes s.params.magic Config.versionByte (zextBit ckOn) blksz).length)
    (hq : s.inq = (headerBytes s.params.magic Config.versionByte (zextBit ckOn) blksz).take k) :
    ∃ u, exec .hdrRd s = .next u ∧ CutAt k u := by
  have hflags : zextBit ckOn = 0x00 ∨ zextBit ckOn = 0x01 := by cases ckOn <;> decide
  obtain ⟨-, -, -, -, hcut⟩ := hdrRdHeaderFaults s hph
  obtain ⟨hmagic, hversion, hsize⟩ := hcut he
  rcases take_append_cases _ _ hk with ⟨hk6, htake⟩ | ⟨j, hj, rfl, htake⟩
  · rcases take_append_cases _ _ hk6 with ⟨hk4, htake'⟩ | ⟨j, hj, rfl, htake'⟩
    · exact ⟨_, hmagic k (Nat.le_of_lt hk4) (hq.trans (htake.trans htake')), rfl, rfl, rfl, rfl⟩
    · match j, hj with
      | 0, _ => exact ⟨_, hmagic 4 (Nat.le_refl 4) (hq.trans (htake.trans htake')), rfl, rfl, rfl, rfl⟩
      | 1, _ => exact ⟨_, hversion (hq.trans (htake.trans htake')), rfl, rfl, rfl, rfl⟩
  · refine ⟨_, hsize (zextBit ckOn) ((varint blksz).take j) hflags (unfinishedVarint_take hj)
      (hq.trans (htake.trans (List.append_assoc _ _ _))), rfl, rfl, rfl, ?_⟩
    rw [List.length_take_of_le (Nat.le_of_lt hj)]
    rfl

/-- REC.RD counts on from the bytes before it. -/
theorem FrameParsed.cutAt {i j : Nat} {u : State} (h : FrameParsed p ckOn blksz recs folded s) (hinq : u.inq = [])
    (hcnt : u.regs.inCnt = s.regs.inCnt + BitVec.ofNat 64 i) (hij : i = j) :
    CutAt ((openFrameBytes p.magic ckOn blksz recs).length + j) (raise .truncatedStream u) :=
  ⟨rfl, rfl, hinq, by rw [raise_inCnt, hcnt, h.inCnt, hij, BitVec.ofNat_add]⟩

theorem ck_of_sumBytes {ckOn : Bool} {d : Word} {c : Nat} (hc : c < (sumBytes ckOn d).length) : ckOn = true := by
  cases ckOn with
  | true => rfl
  | false => exact absurd hc (Nat.not_lt_zero c)

/-- A record cut at the tag, in a length, in the checksum field or in the payload. -/
theorem record_cut {j : Nat} (h : FrameParsed p ckOn blksz recs folded s) (he : s.eos = true)
    (hok : recOk p.bufBytes r) (hj : j < (recBytes ckOn r).length) (hq : s.inq = (recBytes ckOn r).take j) :
    ∃ u, exec .recRd s = .next u ∧ CutAt ((openFrameBytes p.magic ckOn blksz recs).length + j) u := by
  obtain rfl : s.regs.flags.getLsbD 0 = ckOn := h.ck_eq
  obtain rfl := h.params
  obtain ⟨hlen, hfit, hst⟩ := hok.encLen
  obtain ⟨htag, -⟩ := recRdTruncatedBeforePayload s r.stored r.origLen 0 [] h.phase he
  have hfield (cut : List Byte) := (recRdTruncatedBeforePayload s r.stored r.origLen
    (BitVec.ofNat 32 r.payload.length) cut h.phase he).2
  have hbytes : recBytes (s.regs.flags.getLsbD 0) r = [zextBit r.stored] ++ (varint r.origLen ++
      (varint (BitVec.ofNat 32 r.payload.length) ++
        (sumBytes (s.regs.flags.getLsbD 0) (digest r.payload) ++ r.payload))) := by
    simp only [recBytes, recordHead, sumBytes, List.append_assoc]
  rw [hbytes] at hj hq
  rcases take_append_cases _ _ hj with ⟨hj, htake⟩ | ⟨a, ha, rfl, htake⟩ <;> rw [htake] at hq
  · obtain rfl : j = 0 := Nat.lt_one_iff.mp hj
    exact ⟨_, htag hq, h.cutAt hq (BitVec.add_zero _).symm rfl⟩
  rcases take_append_cases _ _ ha with ⟨ha, htake⟩ | ⟨b, hb, rfl, htake⟩ <;> rw [htake] at hq
  · obtain ⟨horig, -⟩ := hfield ((varint r.origLen).take a)
    exact ⟨_, horig (unfinishedVarint_take ha) hq, h.cutAt rfl rfl (by
      rw [List.length_take_of_le (Nat.le_of_lt ha)]; rfl)⟩
  rcases take_append_cases _ _ hb with ⟨hb, htake⟩ | ⟨c, hc, rfl, htake⟩ <;> rw [htake] at hq
  · obtain ⟨-, henc, -⟩ := hfield ((varint (BitVec.ofNat 32 r.payload.length)).take b)
    exact ⟨_, henc (unfinishedVarint_take hb) hq, h.cutAt rfl rfl (by
      rw [List.length_take_of_le (Nat.le_of_lt hb), Nat.add_assoc]; rfl)⟩
  rcases take_append_cases _ _ hc with ⟨hc, htake⟩ | ⟨i, hi, rfl, htake⟩ <;> rw [htake] at hq
  · obtain ⟨-, -, hsum, -⟩ := hfield ((sumBytes (s.regs.flags.getLsbD 0) (digest r.payload)).take c)
    have hsumlen := List.length_take_of_le (Nat.le_of_lt hc)
    have hck : s.regs.flags.getLsbD 0 = true := ck_of_sumBytes hc
    have hfour : c < 4 := by rw [hck] at hc; exact hc
    exact ⟨_, hsum hck hst (by rw [hsumlen]; exact hfour) (hq.trans (by simp [recordHead])), h.cutAt rfl rfl (by
      rw [hsumlen, recordHead_length, List.length_singleton]; omega)⟩
  · obtain ⟨-, -, -, -, hpayload⟩ := recRdLengthFaults s r.stored r.origLen (BitVec.ofNat 32 r.payload.length)
      (digest r.payload) (r.payload.take i) h.phase
    have hpaylen := List.length_take_of_le (Nat.le_of_lt hi)
    obtain ⟨u, hexec, hu⟩ := hpayload hst hfit (hq.trans (by simp [recordHead, sumBytes]))
      (by rw [hpaylen, hlen]; exact hi) he
    refine ⟨u, hexec, ?_⟩
    rw [hu]
    refine h.cutAt rfl rfl ?_
    rw [List.length_append, List.length_append, recordHead_length, hpaylen, List.length_singleton]
    simp only [sumBytes]
    omega

theorem end_cut {j : Nat} {t : Bool} {d : Word} (h : FrameParsed p ckOn blksz recs folded s)
    (he : s.eos = true) (ht : t = true → ckOn = true) (hj : j < (endBytes (if t then some d else none)).length)
    (hq : s.inq = (endBytes (if t then some d else none)).take j) :
    ∃ u, exec .recRd s = .next u ∧ CutAt ((openFrameBytes p.magic ckOn blksz recs).length + j) u := by
  have hcut (cut : List Byte) := recRdTruncatedBeforePayload s false 0 0 cut h.phase he
  cases j with
  | zero =>
    obtain ⟨htag, -⟩ := hcut []
    exact ⟨_, htag hq, h.cutAt hq (BitVec.add_zero _).symm rfl⟩
  | succ j =>
    cases t with
    | false => exact absurd hj (by simp [endBytes])
    | true =>
      have hj : j < (le32 d).length := Nat.lt_of_succ_lt_succ hj
      have hlen : ((le32 d).take j).length = j := List.length_take_of_le (Nat.le_of_lt hj)
      obtain ⟨-, -, -, -, htrailer⟩ := hcut ((le32 d).take j)
      exact ⟨_, htrailer (h.ck_eq.trans (ht rfl)) (by rw [hlen]; exact hj) hq,
        h.cutAt rfl rfl (by rw [hlen, Nat.add_comm])⟩

/-- The frame is cut in one of the records still to be read, or in the end marker or the trailer. -/
theorem rest_cut {j : Nat} {t : Bool} {d : Word} {todo : List Rec}
    (h : FrameParsed p ckOn blksz recs (payloads recs) s) (he : s.eos = true) (ht : t = true → ckOn = true)
    (hok : ∀ r ∈ todo, recOk p.bufBytes r)
    (hj : j < (todo.flatMap (recBytes ckOn) ++ endBytes (if t then some d else none)).length)
    (hq : s.inq = (todo.flatMap (recBytes ckOn) ++ endBytes (if t then some d else none)).take j) :
    ∃ u, execAll ((List.replicate todo.length readRecord).flatten ++ readEnd t) s = .next u ∧
      CutAt ((openFrameBytes p.magic ckOn blksz recs).length + j) u := by
  induction todo generalizing recs s j with
  | nil =>
    obtain ⟨u, hsu, hu⟩ := end_cut h he ht hj hq
    exact ⟨u, (execAll_cons hsu _).trans (execAll_of_failed hu.failed (by cases t <;> simp)), hu⟩
  | cons r todo ih =>
    obtain ⟨hr, htodo⟩ := List.forall_mem_cons.mp hok
    rw [List.length_cons, List.replicate_succ, List.flatten_cons, List.append_assoc]
    rw [List.flatMap_cons, List.append_assoc] at hj hq
    rcases take_append_cases _ _ hj with ⟨hj, htake⟩ | ⟨i, hi, rfl, htake⟩
    · obtain ⟨u, hsu, hu⟩ := record_cut h he hr hj (hq.trans htake)
      exact ⟨u, (execAll_cons hsu _).trans (execAll_of_failed hu.failed
        (List.not_mem_cons_of_ne_of_not_mem nofun (reset_not_mem_readRest _ _))), hu⟩
    · obtain ⟨v, hsv, hv, -, hvinq, hveos⟩ := record_parsed h hr (hq.trans htake)
      obtain ⟨u, hvu, hu⟩ := ih hv (hveos.trans he) htodo hi hvinq
      rw [openFrameBytes_snoc, List.length_append, Nat.add_assoc] at hu
      exact ⟨u, (execAll_append hsv _).trans hvu, hu⟩

end cutting

/-- Settles O59. -/
theorem truncatedFrameIsCaught : Obligations.TruncatedFrameIsCaught := by
  intro s ckOn t blksz recs k hph _ he ht hok hk hq
  rw [frameBytes, List.append_assoc] at hk hq
  rw [readFrame_eq]
  rcases take_append_cases _ _ hk with ⟨hk, htake⟩ | ⟨j, hj, rfl, htake⟩
  · obtain ⟨u, hsu, hu⟩ := header_cut hph he hk (hq.trans htake)
    exact ⟨u, (execAll_cons hsu _).trans (execAll_of_failed hu.failed (reset_not_mem_readRest _ _)),
      hu.failed, hu.err, hu.inq, hu.inCnt⟩
  · obtain ⟨v, hsv, hv, hvinq, hveos⟩ := header_parsed hph (hq.trans htake)
    obtain ⟨u, hvu, hu⟩ := rest_cut hv (hveos.trans he) ht hok hj hvinq
    rw [openFrameBytes_nil] at hu
    exact ⟨u, (execAll_cons hsv _).trans hvu, hu.failed, hu.err, hu.inq, hu.inCnt⟩

end Sys2Proof.Machine
end

section
/-! SUPPORT. Where each command leaves PHASE: as it was, at a phase of its success, or in FAILED with what fault entry
records (40_control R136; 60_exceptions R230 to R234, R240). -/

namespace Sys2Proof.Machine

/-! ### Fault entry by a command's statements (60_exceptions R231, R232, R234) -/

/-- From `b` to `t` a statement of the command `i` has raised one of its faults, from the phase of `b`, with nothing put
on OUT. -/
structure FaultEntered (i : Instr) (b t : State) : Prop where
  phase : t.regs.phase = .failed
  err : t.regs.err ∈ faultsOf i
  ephase : t.regs.ephase = b.regs.phase
  errSeq : t.regs.errSeq = t.regs.seq
  busy : t.regs.busy = false
  out : t.out = b.out

/-- Fault entry after statements that have left PHASE and OUT alone. -/
theorem faultEntered_raise {i : Instr} {e : ErrCode} {b u : State} (he : e ∈ faultsOf i)
    (hph : u.regs.phase = b.regs.phase) (hout : u.out = b.out) : FaultEntered i b (raise e u) :=
  ⟨rfl, he, hph, rfl, rfl, hout⟩

theorem FaultEntered.forgetBuf {i : Instr} {b t : State} (h : FaultEntered i b t) :
    FaultEntered i b (forgetBuf t) := { h with }

/-- BUSY is no part of what fault entry records. -/
theorem FaultEntered.of_setBusy {i : Instr} {s t : State} {v : Bool} (h : FaultEntered i (s.setBusy v) t) :
    FaultEntered i s t := { h with }

/-- The faults of the commands are among the codes that are raised at all (60_exceptions R230). -/
theorem code_of_mem_faultsOf {i : Instr} {e : ErrCode} (h : e ∈ faultsOf i) :
    e.code ∈ [1, 2, 3, 4, 5, 7, 9] := by
  rw [raised_code_iff]
  refine ⟨?_, ?_, ?_⟩ <;> (rintro rfl; cases i <;> simp [faultsOf] at h)

/-! ### PHASE at the end of a command's statements (60_exceptions R240) -/

/-- No command's success leads to FAILED. -/
theorem failed_not_mem_successPhases (i : Instr) (p : Phase) : .failed ∉ successPhases i p := by
  unfold successPhases
  split <;> simp

/-- How the statements of the command `i` end when they began in `b`, as far as PHASE goes. -/
inductive BodyMoves (i : Instr) (b : State) : Res Unit → Prop where
  | stays {u : State} (h : u.regs.phase = b.regs.phase) : BodyMoves i b (.ok () u)
  | succeeds {u : State} (h : u.regs.phase ∈ successPhases i b.regs.phase) : BodyMoves i b (.ok () u)
  | raises {u : State} (h : FaultEntered i b u) : BodyMoves i b (.raised u)
  | waits {u : State} (h : u.regs.phase = b.regs.phase) : BodyMoves i b (.wait u)

/-- A raise after statements that have left PHASE and OUT alone. -/
theorem raise_moves {i : Instr} {e : ErrCode} {b u : State} (he : e ∈ faultsOf i)
    (hph : u.regs.phase = b.regs.phase) (hout : u.out = b.out) : BodyMoves i b (.raised (raise e u)) :=
  .raises (faultEntered_raise he hph hout)

/-- A check, before any effect, and what follows it. -/
theorem require_bind_moves {i : Instr} {b : State} {c : Prop} [Decidable c] {e : ErrCode}
    {f : Unit → State → Res Unit} (he : e ∈ faultsOf i) (hf : BodyMoves i b (f () b)) :
    BodyMoves i b ((require c e b).bind f) := by
  rcases require_cases c e b with ⟨-, hr⟩ | ⟨-, hr⟩
  · rw [hr, Res.bind_ok]; exact hf
  · rw [hr, Res.bind_raised]; exact raise_moves he rfl rfl

theorem bufLdBody_moves (b : State) : BodyMoves .bufLd b (bufLdBody b) := by
  refine require_bind_moves (by decide) ?_
  rcases loadBuf_cases b.regs.xlen b with ⟨-, h⟩ | ⟨-, -, h⟩ | ⟨-, -, h⟩
  · rw [h]; exact .stays (by simp)
  · rw [h]; exact .raises (faultEntered_raise (by decide) (by simp) (by simp)).forgetBuf
  · rw [h]; exact .waits (by simp)

theorem ckVfyBody_moves (b : State) : BodyMoves .ckVfy b (ckVfyBody b) := by
  by_cases h : digest (bufContent b) = b.regs.recCk
  · rw [ckVfyBody_of_match h]; exact .stays rfl
  · rw [ckVfyBody_of_mismatch h]; exact raise_moves (by decide) rfl rfl

theorem fabsTurns_moves (n : Nat) (b : State) : BodyMoves .ckFabs b (fabsTurns n b) := by
  rcases Nat.lt_or_ge b.inq.length n with h | h
  · rw [fabsTurns_short h]
    cases b.eos with
    | true => exact raise_moves (by decide) rfl rfl
    | false => exact .waits rfl
  · rw [fabsTurns_enough h]; exact .stays rfl

theorem hdrWrBody_moves {b : State} (hph : b.regs.phase = .idle ∨ b.regs.phase = .done) :
    BodyMoves .hdrWr b (hdrWrBody b) := by
  refine require_bind_moves (by decide) (.succeeds ?_)
  rcases hph with hph | hph <;> simp [hph, successPhases]

theorem recWrBody_moves (b : State) : BodyMoves .recWr b (recWrBody b) := by
  refine require_bind_moves (by decide) (require_bind_moves (by decide) ?_)
  simp only [recWrChecksum]
  split <;> exact .stays (by simp)

theorem frmEndBody_moves (t : Bool) {b : State} (hph : b.regs.phase = .sBody) :
    BodyMoves (.frmEnd t) b (frmEndBody t b) :=
  require_bind_moves (by simp [faultsOf]) (.succeeds (by simp [hph, successPhases]))

theorem frmVfyBody_moves {b : State} (hph : b.regs.phase = .pTrailer) : BodyMoves .frmVfy b (frmVfyBody b) :=
  require_bind_moves (by decide) (.succeeds (by simp [hph, successPhases]))

theorem hdrRdBody_moves {b : State} (hph : b.regs.phase = .idle ∨ b.regs.phase = .done) :
    BodyMoves .hdrRd b (hdrRdBody b) := by
  have hout := hdrRdBody_outcome b
  generalize hdrRdBody b = r at hout
  cases hout with
  | badMagic | badVersion | badFlags | badSize | truncatedEarly | truncatedFlags | truncatedSize =>
    exact raise_moves (by decide) (by simp) (by simp)
  | waitsEarly | waitsFlags | waitsSize => exact .waits (by simp)
  | done =>
    refine .succeeds ?_
    rcases hph with hph | hph <;> simp [hph, successPhases]

theorem RecRdAt.out {b u : State} {k : Nat} (hu : RecRdAt b k u) : u.out = b.out := by
  cases hu <;> simp [recFields]

/-- The end markers alone change PHASE (44_parser R194, R196). -/
theorem recRdBody_moves {b : State} (hph : b.regs.phase = .pBody) : BodyMoves .recRd b (recRdBody b) := by
  have hout := recRdBody_outcome b
  generalize recRdBody b = r at hout
  cases hout with
  | truncated u hu | badLength k u hk hu => exact raise_moves (by decide) hu.sameButLoaded.phase hu.out
  | badTag | storedDiffers | tooLong | mismatch =>
    exact raise_moves (by decide) (by simp) (by simp [recFields, recLoaded])
  | truncatedPayload =>
    exact .raises (faultEntered_raise (by decide) (by simp) (by simp [recFields])).forgetBuf
  | waits u hu => exact .waits hu.sameButLoaded.phase
  | waitsPayload => exact .waits (by simp)
  | checked | unchecked => exact .stays (by simp)
  | ended | endedTrailer => exact .succeeds (by simp [hph, successPhases])

/-- Every command's statements, where the command is legal (40_control R136). -/
theorem bodyOf_moves (i : Instr) {b : State} (hl : legal i b.regs.phase = true) : BodyMoves i b (bodyOf i b) := by
  cases i with
  | nop | bufSt | ckBlk | ckFinit | ckFbuf => exact .stays rfl
  | reset => exact .succeeds (by simp [successPhases])
  | bufLd => exact bufLdBody_moves b
  | ckVfy => exact ckVfyBody_moves b
  | ckFabs => exact fabsTurns_moves _ b
  | hdrWr => exact hdrWrBody_moves (by simpa [legal] using hl)
  | recWr => exact recWrBody_moves b
  | frmEnd t => exact frmEndBody_moves t (by simpa [legal] using hl)
  | hdrRd => exact hdrRdBody_moves (by simpa [legal] using hl)
  | recRd => exact recRdBody_moves (by simpa [legal] using hl)
  | frmVfy => exact frmVfyBody_moves (by simpa [legal] using hl)

/-! ### PHASE at the end of a command -/

/-- RESET, which FAILED does not stop, is legal in every phase (40_control R134, R136). -/
theorem legal_of_admission_execute {i : Instr} {p : Phase} (h : admission i p = .execute) : legal i p = true := by
  by_cases hi : i = .reset
  · rw [hi]; rfl
  · exact (legal_of_execute h hi).2

theorem not_legal_of_violation {i : Instr} {p : Phase} (h : admission i p = .violation) : legal i p = false := by
  rw [admission_live (live_of_violation h)] at h
  simpa using h

/-- All that the command `i` can do to PHASE from `s` to `t`: nothing; its success; or, outside FAILED, a fault of its
own or the fault of a phase that is not listed for it (40_control R136; 60_exceptions R232, R240). -/
inductive ExecMoves (i : Instr) (s t : State) : Prop where
  | stays (h : t.regs.phase = s.regs.phase)
  | succeeds (h : t.regs.phase ∈ successPhases i s.regs.phase)
  | faults (hlive : s.regs.phase ≠ .failed) (h : FaultEntered i s t)
  | notAdmitted (hlive : s.regs.phase ≠ .failed) (hl : legal i s.regs.phase = false)
    (h : t = raise .protocolViolation s)

/-- RESET, the one command that executes in FAILED, raises nothing. -/
theorem exec_moves {i : Instr} {s t : State} (ht : exec i s = .next t) : ExecMoves i s t := by
  rcases exec_cases i s with ⟨-, he⟩ | ⟨hadm, he⟩ | ⟨hadm, he⟩
  · cases he.symm.trans ht; exact .stays rfl
  · cases he.symm.trans ht
    exact .notAdmitted (live_of_violation hadm) (not_legal_of_violation hadm) rfl
  · have hbody := bodyOf_moves i (b := s.setBusy true) (legal_of_admission_execute hadm)
    generalize bodyOf i (s.setBusy true) = r at he hbody
    cases he.symm.trans ht
    cases hbody with
    | stays h | waits h => exact .stays h
    | succeeds h => exact .succeeds h
    | raises h =>
      have hi : i ≠ .reset := by
        rintro rfl
        exact List.not_mem_nil h.err
      exact .faults (legal_of_execute hadm hi).1 h.of_setBusy

/-- A command goes from outside FAILED into it by a fault of its own or where its phase is not listed. -/
theorem exec_fault {i : Instr} {s t : State} (ht : exec i s = .next t) (hlive : s.regs.phase ≠ .failed)
    (hfailed : t.regs.phase = .failed) :
    FaultEntered i s t ∨ (legal i s.regs.phase = false ∧ t = raise .protocolViolation s) := by
  cases exec_moves ht with
  | stays h => exact absurd (h.symm.trans hfailed) hlive
  | succeeds h => exact absurd (hfailed ▸ h) (failed_not_mem_successPhases i _)
  | faults _ h => exact .inl h
  | notAdmitted _ hl h => exact .inr ⟨hl, h⟩

/-- A command's column of the table of R240. -/
theorem exec_phase {i : Instr} {s t : State} (ht : exec i s = .next t) :
    t.regs.phase = s.regs.phase ∨ (s.regs.phase ≠ .failed ∧ t.regs.phase = .failed) ∨
      t.regs.phase ∈ successPhases i s.regs.phase := by
  cases exec_moves ht with
  | stays h => exact .inl h
  | succeeds h => exact .inr (.inr h)
  | faults hlive h => exact .inr (.inl ⟨hlive, h.phase⟩)
  | notAdmitted hlive _ h => exact .inr (.inl ⟨hlive, by rw [h, raise_phase]⟩)

/-- Settles O26. -/
theorem faultRecordsPhaseSeqAndCode : Obligations.FaultRecordsPhaseSeqAndCode := by
  intro i s t ht hlive hfailed
  rcases exec_fault ht hlive hfailed with h | ⟨-, rfl⟩
  · exact ⟨h.ephase, h.errSeq, h.busy, code_of_mem_faultsOf h.err, h.out ▸ List.prefix_rfl⟩
  · have hcode : ErrCode.code .protocolViolation ∈ [1, 2, 3, 4, 5, 7, 9] := by decide
    exact ⟨rfl, rfl, rfl, hcode, List.prefix_rfl⟩

/-- Settles O27. -/
theorem faultsOfEachCommand : Obligations.FaultsOfEachCommand :=
  fun _ _ _ ht hlive hfailed => (exec_fault ht hlive hfailed).imp_left FaultEntered.err

end Sys2Proof.Machine
end

section
/-! SUPPORT. Everything one step can do, said once, and what follows for PHASE and for a CFU in FAILED (40_control R130,
R131; 60_exceptions R235, R238, R240; 70_reset R250). -/

namespace Sys2Proof.Machine

/-! ### The command of a step -/

theorem commandOf_of_write {s : State} {size : AccessSize} {w : Word} {rest : List Event} {i : Instr}
    (he : s.events = .wr size s.params.cfuBase w :: rest) (hw : decode w = .command i) : commandOf s = some i := by
  simp [commandOf, he, hw]

theorem commandOf_of_input {s : State} {bs : List Byte} {rest : List Event} {w : Running}
    (he : s.events = .input bs :: rest) (hrun : s.running = some w) : commandOf s = some w.cmd := by
  simp [commandOf, he, hrun]

theorem commandOf_of_endOfStream {s : State} {rest : List Event} {w : Running}
    (he : s.events = .endOfStream :: rest) (hrun : s.running = some w) : commandOf s = some w.cmd := by
  simp [commandOf, he, hrun]

/-! ### What a step can do -/

/-- What a step from `s` to `t` does to the registers, PHASE and OUT. -/
inductive StepEffect (s t : State) : Prop where
  /-- No register changes, and OUT can only be removed from: a read, a write that is ignored, the environment while
  no command waits, no operation at all. -/
  | quiet (hregs : t.regs = s.regs) (hout : t.out <:+ s.out)
  /-- The host issues a command. -/
  | issues (i : Instr) (rest : List Event) (hc : commandOf s = some i) (ht : exec i (s.withEvents rest) = .next t)
  /-- The host issues a reserved word outside FAILED. -/
  | issuesReserved (rest : List Event) (hlive : s.regs.phase ≠ .failed)
    (ht : t = raise .protocolViolation (s.withEvents rest))
  /-- The host writes another register than CMD outside FAILED. -/
  | writes (r : Reg) (v : Word) (rest : List Event) (hlive : s.regs.phase ≠ .failed)
    (ht : t = writeReg r v (s.withEvents rest))
  /-- The command that waits goes on from the registers of its issue. -/
  | resumes (w : Running) (u : State) (hrun : s.running = some w) (hc : commandOf s = some w.cmd)
    (hu : u.regs = w.before) (ht : exec w.cmd u = .next t)
  /-- The platform resets the CFU. -/
  | resets (he : s.events.head? = some .hardReset) (ht : t.regs = resetRegs s.regs)

/-- A word written to CMD (40_control R132). -/
theorem wrOffset_cmd_effect {s t : State} {size : AccessSize} {w : Word} {rest : List Event}
    (he : s.events = .wr size s.params.cfuBase w :: rest) (ht : wrOffset 0x00 w (s.withEvents rest) = .next t) :
    StepEffect s t := by
  cases hw : decode w with
  | command i => exact .issues i rest (commandOf_of_write he hw) ((wrOffset_command hw _).symm.trans ht)
  | reserved why =>
    rw [wrOffset_reserved hw] at ht
    unfold issueReserved at ht
    split at ht
    next => cases ht; exact .quiet rfl List.suffix_rfl
    next hlive => cases ht; exact .issuesReserved rest hlive rfl

/-- A write to any other offset (40_control R130; 10_state R47). -/
theorem wrOffset_reg_effect {s t : State} {off : Nat} {v : Word} {rest : List Event} (hoff : off ≠ 0x00)
    (ht : wrOffset off v (s.withEvents rest) = .next t) : StepEffect s t := by
  by_cases hfailed : s.regs.phase = .failed
  · cases (wrOffset_of_failed (s := s.withEvents rest) hfailed fun h => hoff h.1).symm.trans ht
    exact .quiet rfl List.suffix_rfl
  · cases (wrOffset_reg (s := s.withEvents rest) hfailed hoff v).symm.trans ht
    exact .writes (regAt off) v rest hfailed rfl

theorem hostWrite_effect {s t : State} {size : AccessSize} {addr : Nat} {v : Word} {rest : List Event}
    (he : s.events = .wr size addr v :: rest) (ht : hostWrite size addr v (s.withEvents rest) = .next t) :
    StepEffect s t := by
  unfold hostWrite at ht
  split at ht
  next => cases ht
  next off hplace =>
    obtain ⟨-, rfl⟩ := regOffset_ok hplace
    split at ht
    next => cases ht
    next =>
      by_cases hoff : off = 0x00
      · subst hoff; exact wrOffset_cmd_effect he ht
      · exact wrOffset_reg_effect hoff ht

/-- A read changes the model's record of the answer and nothing else (20_memory R74). -/
theorem hostRead_quiet {s t : State} {size : AccessSize} {addr : Nat} (ht : hostRead size addr s = .next t) :
    t.regs = s.regs ∧ t.out = s.out := by
  unfold hostRead at ht
  split at ht
  next => cases ht
  next =>
    split at ht
    next =>
      split at ht
      next => cases ht; exact ⟨rfl, rfl⟩
      next => cases ht
    next => cases ht; exact ⟨rfl, rfl⟩

/-- What the environment has done to IN and EOS, in `q`, moves a waiting command on and does nothing else. -/
theorem resume_effect {s q t : State} (ht : resume q = .next t) (hregs : q.regs = s.regs) (hout : q.out = s.out)
    (hrun : q.running = s.running) (hc : ∀ w, s.running = some w → commandOf s = some w.cmd) : StepEffect s t := by
  unfold resume at ht
  split at ht
  next => cases ht; exact .quiet hregs (hout ▸ List.suffix_rfl)
  next w hw => exact .resumes w (rewind w q) (hrun ▸ hw) (hc w (hrun ▸ hw)) (rewind_regs q w) ht

theorem envInput_effect {s t : State} {bs : List Byte} {rest : List Event} (he : s.events = .input bs :: rest)
    (ht : envInput bs (s.withEvents rest) = .next t) : StepEffect s t := by
  unfold envInput at ht
  split at ht
  next => cases ht
  next => exact resume_effect ht rfl rfl rfl fun _ => commandOf_of_input he

theorem envEndOfStream_effect {s t : State} {rest : List Event} (he : s.events = .endOfStream :: rest)
    (ht : envEndOfStream (s.withEvents rest) = .next t) : StepEffect s t := by
  unfold envEndOfStream at ht
  split at ht
  next => cases ht
  next => exact resume_effect ht rfl rfl rfl fun _ => commandOf_of_endOfStream he

theorem handle_effect {s t : State} {e : Event} {rest : List Event} (he : s.events = e :: rest)
    (ht : handle e (s.withEvents rest) = .next t) : StepEffect s t := by
  cases e with
  | wr size addr v => exact hostWrite_effect he ht
  | rd size addr =>
    obtain ⟨hregs, hout⟩ := hostRead_quiet ht
    exact .quiet hregs (hout ▸ List.suffix_rfl)
  | input bs => exact envInput_effect he ht
  | endOfStream => exact envEndOfStream_effect he ht
  | takeOutput n => cases ht; exact .quiet rfl (List.drop_suffix n s.out)
  | hardReset => cases ht; exact .resets (by rw [he]; rfl) rfl

/-- All that a step can do. -/
theorem step_effect {s t : State} (ht : step s = .next t) : StepEffect s t := by
  cases he : s.events with
  | nil =>
    rw [step_of_no_event he] at ht
    unfold idle at ht
    split at ht
    next => cases ht; exact .quiet rfl List.suffix_rfl
    next => cases ht
  | cons e rest => exact handle_effect he ((step_of_event he).symm.trans ht)

/-! ### The phase machine (60_exceptions R240) -/

/-- A write to a register leaves PHASE or is refused by the gate on FLAGS and BLKSZ (10_state R46). -/
theorem writeReg_phase (r : Reg) (v : Word) (s : State) :
    (writeReg r v s).regs.phase = s.regs.phase ∨ (writeReg r v s).regs.phase = .failed := by
  cases r with
  | flags => rw [writeReg, writeFlags]; split <;> simp
  | blksz => rw [writeReg, writeBlksz]; split <;> simp
  | _ => exact .inl rfl

/-- Settles O29: a waiting command has left PHASE as it was issued, so going on leads from the phase of now. -/
theorem phaseMachine : Obligations.PhaseMachine := by
  intro s t hinv ht
  cases step_effect ht with
  | quiet hregs => exact .inl (by rw [hregs])
  | issues i rest hc hexec =>
    exact (exec_phase hexec).imp_right (.imp_right fun h => .inr ⟨i, hc, h⟩)
  | issuesReserved rest hlive h => exact .inr (.inl ⟨hlive, by rw [h, raise_phase]⟩)
  | writes r v rest hlive h =>
    rw [h]
    exact (writeReg_phase r v (s.withEvents rest)).imp_right fun hfailed => .inl ⟨hlive, hfailed⟩
  | resumes w u hrun hc hu hexec =>
    have hph : s.regs.phase = u.regs.phase := by rw [hu]; exact (hinv.waiting w hrun).phaseKept
    rw [hph]
    exact (exec_phase hexec).imp_right (.imp_right fun h => .inr ⟨w.cmd, hc, h⟩)
  | resets he h => exact .inr (.inr (.inl ⟨he, by rw [h, resetRegs_phase]⟩))

/-! ### FAILED (60_exceptions R235, R238) -/

/-- No command waits in FAILED, since fault entry has ended it (60_exceptions R234). -/
theorem Inv.no_command_of_failed {s : State} (h : Inv s) (hfailed : s.regs.phase = .failed) : s.running = none := by
  refine h.no_command (Bool.eq_false_iff.mpr fun hb => ?_)
  exact h.regs.busyLive hb hfailed

/-- Settles O28: of what a step can do, FAILED leaves a command that is ignored, the two resets, and what changes no
register. -/
theorem firstFaultStays : Obligations.FirstFaultStays := by
  intro s t hinv hfailed ht hreset hhard
  cases step_effect ht with
  | quiet hregs hout => exact ⟨hregs, hout⟩
  | issues i rest hc hexec =>
    have hi : i ≠ .reset := fun h => hreset (h ▸ hc)
    cases (exec_of_failed (s := s.withEvents rest) hfailed hi).symm.trans hexec
    exact ⟨rfl, List.suffix_rfl⟩
  | issuesReserved _ hlive | writes _ _ _ hlive => exact absurd hfailed hlive
  | resumes w u hrun => exact absurd (hrun.symm.trans (hinv.no_command_of_failed hfailed)) nofun
  | resets he => exact absurd he hhard

end Sys2Proof.Machine
end

section
/-! SUPPORT. The host's accesses while BUSY is 1, and hard reset (70_reset R250, R254). -/

namespace Sys2Proof.Machine

/-! ### STATUS as a word (10_state R22) -/

/-- Bit 12 of STATUS is BUSY, whatever the fields below it show. -/
theorem statusWord_getLsbD_busy (busy : Bool) (fields : BitVec 12) :
    (statusWord busy fields).getLsbD 12 = busy := by
  rw [statusWord, BitVec.getLsbD_append, if_neg (by decide), BitVec.getLsbD_append, if_pos (by decide)]
  cases busy <;> rfl

/-- Bits 31:13 of STATUS are zero, whatever the fields show (log 7). -/
theorem statusWord_toNat_lt (busy : Bool) (fields : BitVec 12) : (statusWord busy fields).toNat < 2 ^ 13 := by
  have hzero : (0 : BitVec 19).toNat = 0 := rfl
  have hbusy : (BitVec.ofBool busy).toNat < 2 ^ 1 := BitVec.isLt _
  have hfields : fields.toNat < 2 ^ 12 := fields.isLt
  rw [statusWord, append_toNat, append_toNat, hzero]
  omega

/-! ### Accesses while BUSY is 1 (70_reset R254) -/

/-- The host's read of an aligned word while BUSY is 1: STATUS answers, with free fields below BUSY (log 7), and every
other offset is refused (log 8). -/
theorem step_of_read_busy {s : State} {off : Nat} {rest : List Event} (hp : s.params.wf = true)
    (h4 : off % 4 = 0) (hl : off < 0x100) (he : s.events = .rd .word (s.params.cfuBase + off) :: rest)
    (hb : s.regs.busy = true) :
    step s =
      if regAt off = .status then
        .next { s with
          events := rest
          hostRead := some (statusWord true (Config.busyStatusFields s.busyReads))
          busyReads := s.busyReads + 1 }
      else .refused .accessWhileBusy := by
  rw [step_of_event he]
  simp only [handle, hostRead]
  rw [regOffset_inside hp h4 hl]
  simp [hb]

/-- The host's write of an aligned word while BUSY is 1 is refused at every offset, CMD included (log 8). -/
theorem step_of_write_busy {s : State} {off : Nat} {v : Word} {rest : List Event} (hp : s.params.wf = true)
    (h4 : off % 4 = 0) (hl : off < 0x100) (he : s.events = wrAt s.params off v :: rest)
    (hb : s.regs.busy = true) : step s = .refused .accessWhileBusy := by
  rw [step_of_event he]
  simp only [handle, wrAt, hostWrite]
  rw [regOffset_inside hp h4 hl]
  simp [hb]

/-- Settles O17: STATUS stands at offset 4 alone. -/
theorem busyAdmitsOnlyStatusReads : Obligations.BusyAdmitsOnlyStatusReads := by
  intro s off v rest hp hb h4 hl
  refine ⟨?status, ?otherRead, fun he => step_of_write_busy hp h4 hl he hb⟩
  case status =>
    intro hoff he
    have hstatus : regAt off = .status := by rw [hoff]; rfl
    exact ⟨_, statusWord_getLsbD_busy _ _, statusWord_toNat_lt _ _,
      (step_of_read_busy hp h4 hl he hb).trans (if_pos hstatus)⟩
  case otherRead =>
    intro hoff he
    exact (step_of_read_busy hp h4 hl he hb).trans (if_neg (mt regAt_status hoff))

/-! ### Hard reset (70_reset R250) -/

/-- Settles O23: the registers are those of the reset table, and nothing else but the waiting command is touched. -/
theorem hardResetRestoresRegisters : Obligations.HardResetRestoresRegisters :=
  fun s _ he => ⟨_, step_of_event he, resetTable_resetRegs s.regs, rfl, rfl, rfl, rfl, rfl, rfl⟩

end Sys2Proof.Machine
end
